-- ==== Sys2Proof/Word.lean ====
section
/-! DEFINITION. The widths of the hardware (00_scope.md R5, R6) as bit-vector types. -/

namespace Sys2Proof

/-- One byte of the register window (20_memory.md R58). -/
abbrev Byte := BitVec 8

/-- The width `REG_W` of `CNTR`, `HRC`, `LRC` and `CTRL` (00_scope.md R5). -/
abbrev Word32 := BitVec 32

/-- The widths `NS_W` and `ADDR_W` of operands, responses and addresses (00_scope.md R6). -/
abbrev Word64 := BitVec 64

/-- The width `CLK_W` of the stored clock rate (00_scope.md R6). -/
abbrev ClkRate := BitVec 63

/-- The width `CH_W` of the channel index field (00_scope.md R6). -/
abbrev Channel := BitVec 3

end Sys2Proof
end

