-- ==== Sys2Proof/Syntax.lean ====
section
/-! DEFINITION. The five operations (30_encoding.md R82) with the operands their formats give them (R83), the
command record that carries them (R80), and the enumerations they use. -/

namespace Sys2Proof

/-- The address-resolution policy (00_scope.md R9; 10_state.md R22). -/
inductive Variant where
  /-- The default policy: `base + i * 0x10` (40_resolve.md R111). -/
  | flat
  /-- The alternate policy: channels 4 to 7 in a second bank (40_resolve.md R112). -/
  | banked
  deriving DecidableEq, Repr, Inhabited

/-- The requested polarity (30_encoding.md R90): `normal` stands for every polarity but the supported one. -/
inductive Polarity where
  | normal
  | inversed
  deriving DecidableEq, Repr

/-- The four registers of a channel's block, in the listing order of 10_state.md R25. -/
inductive Reg where
  | cntr
  | hrc
  | lrc
  | ctrl
  deriving DecidableEq, Repr

/-- One constructor per row of spec/opcode_table.json. -/
inductive Instr where
  /-- INIT, format I: `var`, `clk_rate_in` (an `i64` pattern, 30_encoding.md R88), `base`. -/
  | init (var : Variant) (clkRateIn : Word64) (base : Word64)
  /-- TEARDOWN, format N. -/
  | teardown
  /-- RESOLVE, format C: `ch`. -/
  | resolve (ch : Channel)
  /-- GET_STATE, format C: `ch`. -/
  | getState (ch : Channel)
  /-- APPLY, format A: `ch`, `en`, `pol`, `period` and `duty_cycle` in nanoseconds (30_encoding.md R87). -/
  | apply (ch : Channel) (en : Bool) (pol : Polarity) (period : Word64) (duty : Word64)
  deriving DecidableEq, Repr

/-- The command record (30_encoding.md R80): the header and the two operands. -/
structure Command where
  hdr : BitVec 8
  opa : Word64
  opb : Word64
  deriving DecidableEq, Repr

end Sys2Proof
end

