-- ==== Sys2Proof/Config.lean ====
section
/-! DEFINITION. What is fixed for one machine: the constants of 00_scope.md R5, the three OPEN parameters of R7 as
constants without a body, and the free values for register contents the spec leaves unspecified. -/

namespace Sys2Proof.Config

/-- `CHANNEL_COUNT` (00_scope.md R5). -/
def channelCount : Nat := 8

/-- `CHAN_STRIDE`, in bytes (00_scope.md R5). -/
def chanStride : Word64 := 0x10

/-- `BANK_OFFSET`, in bytes (00_scope.md R5). -/
def bankOffset : Word64 := 0x8000

/-- `BANK_SLOTS`: register slots per bank under the banked policy (00_scope.md R5). -/
def bankSlots : Nat := 4

/-- `NSEC_PER_SEC` (00_scope.md R5). -/
def nsecPerSec : Nat := 1000000000

/-- `PWM_CELLS` (00_scope.md R5): used by the external framework only, no rule reads it. -/
def pwmCells : Nat := 3

/-- `N_VARIANTS` (00_scope.md R5). -/
def nVariants : Nat := 2

/-- The OPEN parameter `BANK_ALIASED` (00_scope.md R7; 20_memory.md R57). Log 8. -/
opaque bankAliased : Bool

/-- `N_PORTS - 1`: the requester ports beside port 0 (00_scope.md R7; 10_state.md R38). Log 10. -/
opaque extraPorts : Nat

/-- The OPEN parameter `N_PORTS`, a positive integer (00_scope.md R7). Log 10. -/
def nPorts : Nat := extraPorts + 1

/-- The bits of `HRC`, `LRC` and `CTRL` that the OPEN parameter `DEVICE_WRITABLE` names (00_scope.md R7); its value at
`CNTR` is not used (`deviceMask` of Machine/Ops.lean). Log 9. -/
opaque deviceWritable : Reg → Word32

/-- Free value: the content of the register at a window offset after its content became unspecified (10_state.md R43;
44_lifecycle.md R178). The first argument numbers the draw. Log 5. -/
opaque freeRegister : Nat → Nat → Word32

/-- Free value: `cfg.clk_rate` after a reset during a run (10_state.md R43). Log 6. -/
opaque freeClkRate : Nat → ClkRate

/-- Free value: `cfg.variant` after a reset during a run (10_state.md R43). Log 6. -/
opaque freeVariant : Nat → Variant

/-- Free value: `cfg.base` after a reset during a run (10_state.md R43). Log 6. -/
opaque freeBase : Nat → Word64

end Sys2Proof.Config
end

