-- ==== Sys2Proof/WellFormed.lean ====
section
/-! DEFINITION. The one check on an instruction's operands that its types do not already make: the requirements on
INIT's `base` (70_reset_and_hazards.md R226). Every other operand value has an encoding and a meaning
(30_encoding.md R85, R87, R89). -/

namespace Sys2Proof

/-- The least size of the mapped window, in bytes (20_memory.md R52). -/
def Variant.windowBytes : Variant → Nat
  | .flat => 0x80
  | .banked => 0x8040

/-- The platform's duty on `base` (70_reset_and_hazards.md R226): a multiple of 4, and the window does not wrap. -/
def baseMeetsDuty (v : Variant) (base : Word64) : Bool :=
  decide (base.toNat % 4 = 0) && decide (base.toNat + v.windowBytes ≤ 2 ^ 64)

/-- An instruction is well formed when its `base`, if it has one, meets the platform's duty. -/
def Instr.wellFormed : Instr → Bool
  | .init var _ base => baseMeetsDuty var base
  | .teardown => true
  | .resolve _ => true
  | .getState _ => true
  | .apply _ _ _ _ _ => true

end Sys2Proof
end

