-- ==== Sys2Proof/Decode.lean ====
section
/-! DEFINITION. The decoder of the command record (30_encoding.md R80 to R92), total on every record, and the encoder
that writes a record from an instruction with the ignored bits 0 (R98). -/

namespace Sys2Proof

/-- Why a record is not an operation: the header's `op` is one of the reserved codes 5, 6, 7 (30_encoding.md R91). -/
inductive DecodeError where
  | reservedOp (op : BitVec 3)
  deriving DecidableEq, Repr

/-- `HDR[2:0]`, the operation code (30_encoding.md R81). -/
def Command.op (c : Command) : BitVec 3 := c.hdr.extractLsb' 0 3

/-- `HDR[5:3]`, the channel index (30_encoding.md R81, R89). -/
def Command.ch (c : Command) : Channel := c.hdr.extractLsb' 3 3

/-- `HDR[6]`: `en` of APPLY, `var` of INIT (30_encoding.md R81). -/
def Command.bit6 (c : Command) : Bool := c.hdr.getLsbD 6

/-- `HDR[7]`: `pol` of APPLY (30_encoding.md R81). -/
def Command.bit7 (c : Command) : Bool := c.hdr.getLsbD 7

/-- `var`: 0 is `FLAT`, 1 is `BANKED` (30_encoding.md R81). -/
def Variant.ofBit (b : Bool) : Variant := if b then .banked else .flat

/-- The bit of a variant (30_encoding.md R98). -/
def Variant.bit : Variant → Bool
  | .flat => false
  | .banked => true

/-- `pol`: 0 is normal, 1 is inversed (30_encoding.md R90). -/
def Polarity.ofBit (b : Bool) : Polarity := if b then .inversed else .normal

/-- The bit of a polarity (30_encoding.md R98). -/
def Polarity.bit : Polarity → Bool
  | .normal => false
  | .inversed => true

/-- The operation map (30_encoding.md R82, R83). The decoder looks at `op` only and never at the state (R85); bits a
format does not use are ignored (R92). -/
def decode (c : Command) : Except DecodeError Instr :=
  match c.op.toNat with
  | 0 => .ok (.init (Variant.ofBit c.bit6) c.opa c.opb)
  | 1 => .ok .teardown
  | 2 => .ok (.resolve c.ch)
  | 3 => .ok (.getState c.ch)
  | 4 => .ok (.apply c.ch c.bit6 (Polarity.ofBit c.bit7) c.opa c.opb)
  | _ => .error (.reservedOp c.op)

/-- The header `p e c c c o o o` of 30_encoding.md R81 from its fields. -/
def header (pol : Bool) (bit6 : Bool) (ch : Channel) (op : BitVec 3) : BitVec 8 :=
  BitVec.ofBool pol ++ BitVec.ofBool bit6 ++ ch ++ op

/-- The record of an instruction (30_encoding.md R98), ignored fields 0. -/
def encode : Instr → Command
  | .init var clk base => ⟨header false var.bit 0 0b000, clk, base⟩
  | .teardown => ⟨header false false 0 0b001, 0, 0⟩
  | .resolve ch => ⟨header false false ch 0b010, 0, 0⟩
  | .getState ch => ⟨header false false ch 0b011, 0, 0⟩
  | .apply ch en pol period duty => ⟨header pol.bit en ch 0b100, period, duty⟩

/-- The record as one word, `CMD[135:0] = OPB ++ OPA ++ HDR` (30_encoding.md R80). -/
def Command.toWord (c : Command) : BitVec 136 := c.opb ++ c.opa ++ c.hdr

/-- The record that a 136-bit word stands for (30_encoding.md R80). -/
def Command.ofWord (w : BitVec 136) : Command :=
  ⟨w.extractLsb' 0 8, w.extractLsb' 8 64, w.extractLsb' 72 64⟩

/-- The record whose low `nbits` bits are those of `w` and whose other bits are 0. -/
def Command.ofTableWord (nbits w : Nat) : Command :=
  Command.ofWord (BitVec.ofNat 136 (w % 2 ^ nbits))

/-- The instruction read from a record given as the number of its bits, bit 0 being `HDR[0]`. -/
def decodeTableWord (nbits w : Nat) : Option Instr :=
  match decode (Command.ofTableWord nbits w) with
  | .ok i => some i
  | .error _ => none

/-- INIT and TEARDOWN, the operations that need the block to themselves (70_reset_and_hazards.md R231). -/
def Instr.isLifecycle : Instr → Bool
  | .init _ _ _ => true
  | .teardown => true
  | .resolve _ => false
  | .getState _ => false
  | .apply _ _ _ _ _ => false

/-- Whether a record is that of INIT or TEARDOWN. -/
def Command.isLifecycle (c : Command) : Bool :=
  match decode c with
  | .ok i => i.isLifecycle
  | .error _ => false

end Sys2Proof
end

