-- ==== Sys2Proof/Machine/State.lean ====
section
/-! DEFINITION. The state of the machine as plain data: the configuration, the resource flags, the register window and
the sequencer contexts the spec gives the block (10_state.md), and the model's own fields for what the outside world
does next and for what has crossed the block's interfaces. -/

namespace Sys2Proof.Machine

/-- Why a step stops without a next state. No run from reset reaches one of these (`State.good` of Safety.lean). -/
inductive Fault where
  /-- Raised by a register access while `res.map` = 0: the window is usable exactly while it is mapped
  (20_memory.md R51). Safe: the machine stops. -/
  | windowUnmapped
  /-- Raised by GET_STATE when a Controller in service holds a clock rate of 0, which the spec rules out
  (41_convert.md R123; 60_exceptions.md R191). Safe: the machine stops. -/
  | zeroClockRate
  /-- Raised by a sequencer position its operation has not got (10_state.md R21). Safe: the machine stops. -/
  | sequencerOverrun
  deriving DecidableEq, Repr

/-- What the model gives no meaning to. -/
inductive Refusal where
  /-- Raised by `exec` for an instruction without a meaning. Safe. No arm uses it. -/
  | notModelled (mnemonic : String)
  /-- Raised by INIT when it would capture a `base` that breaks the platform's duty, and by a register access under
  such a configuration: the spec says a model gives it no meaning (70_reset_and_hazards.md R226; 20_memory.md R60).
  Safe. Log 15. -/
  | baseBreaksDuty
  /-- Raised by INIT when it would capture a configuration whose register offsets the mapped window does not cover, and by
  a register access under such a configuration: the spec says a model gives it no meaning (70_reset_and_hazards.md R226;
  93_implementation_defined.md U8). Safe. Log 22. -/
  | windowTooSmall
  /-- Raised when INIT or TEARDOWN is accepted while an operation is in flight, or an operation while one of them is:
  the spec says the model refuses the run (70_reset_and_hazards.md R231). Safe. Log 16. -/
  | lifecycleOverlap
  /-- Raised by a reset that falls on a running operation while resources are held: the spec treats it as a breach of
  the host's duty and refuses it (70_reset_and_hazards.md R222; 93_implementation_defined.md U12). Safe. Log 17. -/
  | resetInMidOperation
  /-- Raised by a command on a port whose number is not below `N_PORTS` (10_state.md R38). Safe. Log 10. -/
  | noSuchPort
  deriving DecidableEq, Repr

/-- The Controller's configuration `cfg` (10_state.md R22). -/
structure Cfg where
  inService : Bool
  clkRate : ClkRate
  variant : Variant
  base : Word64
  deriving DecidableEq, Repr

/-- The resource flags `res` (10_state.md R41). -/
structure Res where
  map : Bool
  clk : Bool
  rst : Bool
  reg : Bool
  deriving DecidableEq, Repr

/-- The sequencer context of one requester port (10_state.md R38). -/
structure Ctx where
  busy : Bool
  seq : BitVec 3
  cmd : Command
  cb : Word64
  tp : Word32
  td : Word32
  tc : Word32
  deriving DecidableEq, Repr

/-- The context of a port that runs nothing; its fields beside `busy` are meaningless (10_state.md R38, R43). Log 3. -/
def Ctx.idle : Ctx := ⟨false, 0, ⟨0, 0, 0⟩, 0, 0, 0, 0⟩

/-- The context right after a command was accepted: `seq` is 0 and the command is latched (10_state.md R21, R38). -/
def Ctx.accepted (c : Command) : Ctx := { Ctx.idle with busy := true, cmd := c }

/-- What the platform found about the optional reset line (44_lifecycle.md R171). -/
inductive ResetLine where
  | absent
  | present
  | error
  deriving DecidableEq, Repr

/-- The platform's answers `env` (44_lifecycle.md R171). -/
structure Env where
  mapOk : Bool
  clkOk : Bool
  rst : ResetLine
  regOk : Bool
  /-- The bytes from `base` on that the window covers which the platform maps on `mapOk` (70_reset_and_hazards.md R225,
  R226). Log 22. -/
  windowBytes : Nat
  deriving DecidableEq, Repr

/-- A register block of the device by the place of its address: the blocks at `slot * 0x10`, and those of the second
bank at `0x8000 + slot * 0x10` (20_memory.md R54, R55). -/
inductive Block where
  | primary (slot : BitVec 3)
  | secondary (slot : BitVec 2)
  deriving DecidableEq, Repr

/-- What the outside world does to the machine. -/
inductive Input where
  /-- A requester presents a command on port `p` (30_encoding.md R80). -/
  | command (p : Nat) (c : Command)
  /-- Port `p` runs the next statement of its operation (60_exceptions.md R209). -/
  | advance (p : Nat)
  /-- The device offers a new value for a register; its writable bits change (10_state.md R36). -/
  | device (b : Block) (r : Reg) (v : Word32)
  /-- The platform's answers change (44_lifecycle.md R171). -/
  | platform (e : Env)
  /-- The block's reset (70_reset_and_hazards.md R220). -/
  | reset
  deriving DecidableEq, Repr

/-- What the block asks of the platform (44_lifecycle.md R172, R177). -/
inductive Action where
  | mapWindow
  | unmapWindow
  | clockOn
  | clockOff
  | deassertReset
  | assertReset
  | register
  | unregister
  deriving DecidableEq, Repr

/-- The status of a response (30_encoding.md R95); codes 6 and 7 are never produced. -/
inductive Status where
  | ok
  | invalidClockRate
  | unsupportedPolarity
  | resourceFailure
  | wrongLifecycleState
  | illegalCommand
  deriving DecidableEq, Repr

/-- The response record (30_encoding.md R94). -/
structure Response where
  status : Status
  ra : Word64
  rb : Word64
  ren : Bool
  rpol : Bool
  deriving DecidableEq, Repr

/-- What crosses the block's interfaces (92_eei_decisions.md D1): register accesses with their effective address,
requests to the platform, and responses. -/
inductive Event where
  | read (p : Nat) (ea : Word64) (v : Word32)
  | write (p : Nat) (ea : Word64) (v : Word32)
  | action (a : Action)
  | response (p : Nat) (r : Response)
  deriving DecidableEq, Repr

/-- The bytes of the register window by physical offset (20_memory.md R50, R57), addresses strictly rising, no byte
that equals what an unlisted offset reads as. Log 4. -/
abbrev Memory := List Host.Cell

/-- The whole state. -/
structure State where
  /-- `cfg` (10_state.md R22). -/
  cfg : Cfg
  /-- `res` (10_state.md R41). -/
  res : Res
  /-- The model's own: the bytes from `base` on that the mapped window covers, 0 while none is mapped
  (70_reset_and_hazards.md R226; 20_memory.md R52). Log 22. -/
  mapped : Nat
  /-- The registers `CNTR`, `HRC`, `LRC`, `CTRL` of every block (10_state.md R24). -/
  window : Memory
  /-- `ctx[p]` for every port that is not idle, port numbers strictly rising (10_state.md R38). Log 3. -/
  ports : List (Nat × Ctx)
  /-- The model's own: the platform's present answers (44_lifecycle.md R171). Log 13. -/
  env : Env
  /-- The model's own: the inputs still to come, in order. Log 11. -/
  pending : List Input
  /-- The model's own: the port whose command `exec` runs. Log 14. -/
  port : Nat
  /-- The model's own: how many free values were drawn. Log 5. -/
  draws : Nat
  /-- The model's own: what crossed the interfaces, newest first (60_exceptions.md R196). Log 14. -/
  trace : List Event
  deriving DecidableEq, Repr

/-- The machine right after reset (10_state.md R43): out of service, no resource held, every port idle. The values of
`clk_rate`, `variant`, `base` (log 2), of the device registers (log 1) and of the model's own fields (log 5, 11, 13, 14)
are the model's. -/
def State.reset : State where
  cfg := ⟨false, 0, .flat, 0⟩
  res := ⟨false, false, false, false⟩
  mapped := 0
  window := []
  ports := []
  env := ⟨true, true, .absent, true, 0x8040⟩
  pending := []
  port := 0
  draws := 0
  trace := []

end Sys2Proof.Machine
end

