-- ==== Sys2Proof/Machine/Ops.lean ====
section
/-! DEFINITION. The named operations over the state: the lists kept by key, the bytes and registers of the window, the
sequencer contexts, the platform's actions, the responses, and the one operation that ends an operation with an error
status (60_exceptions.md R200). -/

namespace Sys2Proof.Machine

/-! ### Lists kept by key -/

/-- The value kept for a key; a key that is not listed has the value `d`. -/
def lookup {α : Type} (d : α) (k : Nat) : List (Nat × α) → α
  | [] => d
  | e :: l => if k = e.1 then e.2 else lookup d k l

/-- The list without an entry for `k`, keys rising, and with one for `v` unless `v` is the value `d` of an unlisted
key. -/
def update {α : Type} [DecidableEq α] (d : α) (k : Nat) (v : α) : List (Nat × α) → List (Nat × α)
  | [] => if v = d then [] else [(k, v)]
  | e :: l =>
    if k < e.1 then (if v = d then e :: l else (k, v) :: e :: l)
    else if k = e.1 then (if v = d then l else (k, v) :: l)
    else e :: update d k v l

/-- Every key of the list is above `k`. -/
def keysAbove {α : Type} (k : Nat) (l : List (Nat × α)) : Bool := l.all (fun e => decide (k < e.1))

/-- The canonical form: keys strictly rising, no entry equal to what an unlisted key has. -/
def canonical {α : Type} [DecidableEq α] (d : α) : List (Nat × α) → Bool
  | [] => true
  | e :: l => decide (e.2 ≠ d) && keysAbove e.1 l && canonical d l

/-! ### The register window -/

/-- What a byte of the window that is not listed reads as. Log 1, log 4. -/
def Memory.unlisted : Byte := 0

/-- The byte at a physical offset of the window. -/
def Memory.byte (m : Memory) (off : Nat) : Byte := lookup Memory.unlisted off m

/-- The window with one byte replaced. -/
def Memory.setByte (m : Memory) (off : Nat) (b : Byte) : Memory := update Memory.unlisted off b m

/-- The canonical form holds. -/
def Memory.wf (m : Memory) : Bool := canonical Memory.unlisted m

/-- Byte `k` of a register value, byte 0 being `v[7:0]` (20_memory.md R58). -/
def wordByte (v : Word32) (k : Nat) : Byte := v.extractLsb' (8 * k) 8

/-- The register at a physical offset, its byte at the lowest address the least significant (20_memory.md R58). -/
def Memory.read32 (m : Memory) (off : Nat) : Word32 :=
  m.byte (off + 3) ++ m.byte (off + 2) ++ m.byte (off + 1) ++ m.byte off

/-- The window with the register at a physical offset replaced (20_memory.md R58, R61). -/
def Memory.write32 (m : Memory) (off : Nat) (v : Word32) : Memory :=
  (((m.setByte off (wordByte v 0)).setByte (off + 1) (wordByte v 1)).setByte (off + 2) (wordByte v 2)).setByte (off + 3)
    (wordByte v 3)

/-- `off(REG)`, the offset of a register inside its block (10_state.md R25). -/
def regOff : Reg → Word64
  | .cntr => 0x0
  | .hrc => 0x4
  | .lrc => 0x8
  | .ctrl => 0xC

/-- The physical offset of a register block (20_memory.md R54, R55). -/
def Block.off : Block → Nat
  | .primary slot => slot.toNat * 0x10
  | .secondary slot => 0x8000 + slot.toNat * 0x10

/-- The twelve register blocks of both layouts. -/
def Block.all : List Block :=
  (List.range 8).map (fun i => .primary (BitVec.ofNat 3 i)) ++ (List.range 4).map (fun i => .secondary (BitVec.ofNat 2 i))

/-- The four registers of a block (10_state.md R24). -/
def allRegs : List Reg := [.cntr, .hrc, .lrc, .ctrl]

/-- The physical offset of every register of both layouts. -/
def registerOffsets : List Nat := Block.all.flatMap (fun b => allRegs.map (fun r => b.off + (regOff r).toNat))

/-- The window after its registers' contents became unspecified: each holds the free value of draw `d`. Log 5. -/
@[irreducible] def Memory.scramble (d : Nat) (m : Memory) : Memory :=
  registerOffsets.foldl (fun m off => m.write32 off (Config.freeRegister d off)) m

/-- The bits of a register the device may change, the OPEN parameter `DEVICE_WRITABLE`: all of `CNTR`, and what Config
says of the others (10_state.md R36). Log 9. -/
def deviceMask : Reg → Word32
  | .cntr => 0xFFFFFFFF
  | r => Config.deviceWritable r

/-- A register value after the device changed the bits of `mask` to those of `v` (10_state.md R36). -/
def deviceChange (mask old v : Word32) : Word32 := (old &&& ~~~mask) ||| (v &&& mask)

/-- The unspecified contents of every register, as free values of the next draw (10_state.md R43). Log 5. -/
def State.scrambleRegisters (s : State) : State :=
  { s with window := s.window.scramble s.draws, draws := s.draws + 1 }

/-! ### Sequencer contexts -/

/-- `ctx[p]` (10_state.md R38). -/
def State.ctx (s : State) (p : Nat) : Ctx := lookup Ctx.idle p s.ports

/-- The state with `ctx[p]` replaced. -/
def State.setCtx (s : State) (p : Nat) (c : Ctx) : State := { s with ports := update Ctx.idle p c s.ports }

/-- Whether `p` is one of the `N_PORTS` requester ports (10_state.md R38). Log 10. -/
def portExists : Nat → Bool
  | 0 => true
  | p + 1 => decide (p < Config.extraPorts)

/-- Some port runs an operation. -/
def State.anyBusy (s : State) : Bool := s.ports.any (fun e => e.2.busy)

/-- INIT or TEARDOWN runs on some port. -/
def State.lifecycleInFlight (s : State) : Bool := s.ports.any (fun e => e.2.busy && e.2.cmd.isLifecycle)

/-- The lowest-numbered port that runs an operation. -/
def State.firstBusy (s : State) : Option Nat := (s.ports.find? (fun e => e.2.busy)).map (fun e => e.1)

/-! ### What a statement of an operation does -/

/-- The outcome of one statement of a running operation (10_state.md R21). -/
inductive Progress where
  /-- The operation goes on with its next statement. -/
  | goes (c : Ctx) (s : State)
  /-- The operation ends with a response. -/
  | answers (r : Response) (s : State)
  | faults (f : Fault)
  | refuses (r : Refusal)
  deriving DecidableEq, Repr

/-- The context after a statement finished: `seq` grows by one (10_state.md R21). -/
def Ctx.next (c : Ctx) : Ctx := { c with seq := c.seq + 1 }

/-- An event is appended to the trace. Log 14. -/
def State.log (s : State) (e : Event) : State := { s with trace := e :: s.trace }

/-- The status codes (30_encoding.md R95). -/
def Status.code : Status → BitVec 3
  | .ok => 0
  | .invalidClockRate => 1
  | .unsupportedPolarity => 2
  | .resourceFailure => 3
  | .wrongLifecycleState => 4
  | .illegalCommand => 5

/-- The response that carries a status and nothing else (30_encoding.md R94). -/
def Response.only (st : Status) : Response := ⟨st, 0, 0, false, false⟩

/-- The response as one word, `RSP[132:0] = rpol ++ ren ++ RB ++ RA ++ STATUS` (30_encoding.md R94). -/
def Response.toWord (r : Response) : BitVec 133 :=
  BitVec.ofBool r.rpol ++ BitVec.ofBool r.ren ++ r.rb ++ r.ra ++ r.status.code

/-- TAKING AN EXCEPTION: `raise <Status>()` ends the operation with an error status; nothing else is recorded and no
control is transferred (60_exceptions.md R196, R200). There is no return from it (R201). -/
def raise (st : Status) (s : State) : Progress := .answers (Response.only st) s

/-- `respond()` with status `OK` and no other field (00_scope.md R12). -/
def respondOk (s : State) : Progress := .answers (Response.only .ok) s

/-- The lifecycle gate: `WrongLifecycleState` unless `cfg.in_service` is as required (60_exceptions.md R194). -/
def gate (required : Bool) (s : State) (k : Progress) : Progress :=
  if s.cfg.inService = required then k else raise .wrongLifecycleState s

/-- The requirements on `base` and on the mapped window, which the block does not check: under a breach the model gives
no meaning (70_reset_and_hazards.md R226; 93_implementation_defined.md U8). Log 15, log 22. -/
def underDuty (var : Variant) (base : Word64) (s : State) (k : Progress) : Progress :=
  if baseMeetsDuty var base then (if var.windowBytes ≤ s.mapped then k else .refuses .windowTooSmall)
  else .refuses .baseBreaksDuty

/-! ### The platform's actions -/

/-- The register window is mapped: `res.map <- 1` (44_lifecycle.md R172); it covers what the platform mapped. -/
def State.mapWindow (s : State) : State :=
  { s with res := { s.res with map := true }, mapped := s.env.windowBytes }.log (.action .mapWindow)

/-- The register window is unmapped: `res.map <- 0` (44_lifecycle.md R172, R177). -/
def State.unmapWindow (s : State) : State :=
  { s with res := { s.res with map := false }, mapped := 0 }.log (.action .unmapWindow)

/-- The input clock is enabled: `res.clk <- 1` (44_lifecycle.md R172). -/
def State.clockOn (s : State) : State := { s with res := { s.res with clk := true } }.log (.action .clockOn)

/-- The input clock is disabled and released: `res.clk <- 0` (44_lifecycle.md R172, R177). -/
def State.clockOff (s : State) : State := { s with res := { s.res with clk := false } }.log (.action .clockOff)

/-- The reset line is deasserted: `res.rst <- 1` (44_lifecycle.md R174). -/
def State.deassertReset (s : State) : State := { s with res := { s.res with rst := true } }.log (.action .deassertReset)

/-- The reset line is asserted if the block had deasserted it: `res.rst <- 0` (44_lifecycle.md R172, R177). -/
def State.assertReset (s : State) : State :=
  if s.res.rst then { s with res := { s.res with rst := false } }.log (.action .assertReset) else s

/-- The Controller is registered with the framework: `res.reg <- 1` (44_lifecycle.md R172). -/
def State.register (s : State) : State := { s with res := { s.res with reg := true } }.log (.action .register)

/-- The Controller is unregistered: `res.reg <- 0` (44_lifecycle.md R177). -/
def State.unregister (s : State) : State := { s with res := { s.res with reg := false } }.log (.action .unregister)

end Sys2Proof.Machine
end

