-- ==== Sys2Proof/Machine/Convert.lean ====
section
/-! DEFINITION. The conversions between nanoseconds and ticks (41_convert.md R120 to R125), in exact natural-number
arithmetic (R121, 92_eei_decisions.md D11). -/

namespace Sys2Proof.Machine

/-- `rnd_div(a, b)`: the nearest integer to `a / b`, ties up, for `b >= 1` (41_convert.md R120). -/
def rndDiv (a b : Nat) : Nat := (a + b / 2) / b

/-- `ns_to_ticks(ns, clk)` (41_convert.md R121). -/
def nsToTicks (ns clk : Nat) : Nat := rndDiv (ns * clk) Config.nsecPerSec

/-- `ticks_to_ns(t, clk)` (41_convert.md R122). -/
def ticksToNs (t clk : Nat) : Nat := rndDiv (t * Config.nsecPerSec) clk

/-- `tick_reg(ns, clk)`: the low 32 bits of the tick count (41_convert.md R124). -/
def tickReg (ns : Word64) (clk : ClkRate) : Word32 := BitVec.ofNat 32 (nsToTicks ns.toNat clk.toNat)

/-- The nanoseconds GET_STATE reports for a tick count, as a response field (41_convert.md R122). -/
def nsField (t : Word32) (clk : ClkRate) : Word64 := BitVec.ofNat 64 (ticksToNs t.toNat clk.toNat)

/-- `fits32(ns, clk)` (41_convert.md R125). -/
def fits32 (ns clk : Nat) : Bool := decide (nsToTicks ns clk ≤ 0xFFFFFFFF)

end Sys2Proof.Machine
end

