-- ==== Sys2Proof/Machine/Flags.lean ====
section
/-! DEFINITION. The bits of `CTRL` (10_state.md R29) and what the block does with them (43_apply.md R157, R158;
42_get_state.md R144). The block has no flags of its own. -/

namespace Sys2Proof.Machine

/-- The named bits of `CTRL` (10_state.md R29). -/
inductive CtrlBit where
  | en
  | eclk
  | nec
  | oe
  | single
  | inte
  | int
  | cntrrst
  | capte
  deriving DecidableEq, Repr

/-- The number of a named bit (10_state.md R29). -/
def CtrlBit.pos : CtrlBit → Nat
  | .en => 0
  | .eclk => 1
  | .nec => 2
  | .oe => 3
  | .single => 4
  | .inte => 5
  | .int => 6
  | .cntrrst => 7
  | .capte => 8

/-- A named bit of a `CTRL` value. -/
def ctrlBit (tc : Word32) (b : CtrlBit) : Bool := tc.getLsbD b.pos

/-- `ENABLE_BIT` (10_state.md R29). -/
def enableBit : Word32 := 0x00000001

/-- `OUTPUT_ENABLE_BIT` (10_state.md R29). -/
def outputEnableBit : Word32 := 0x00000008

/-- `EN_OE_MASK` (10_state.md R29). -/
def enOeMask : Word32 := enableBit ||| outputEnableBit

/-- The value APPLY writes to `CTRL`: the two enable bits set or cleared, every other bit as read
(43_apply.md R157, R158). -/
def ctrlWithEnable (tc : Word32) (en : Bool) : Word32 := if en then tc ||| enOeMask else tc &&& ~~~enOeMask

/-- `enabled = (CTRL & ENABLE_BIT) != 0` (42_get_state.md R144). -/
def enabledOf (tc : Word32) : Bool := tc &&& enableBit != 0

end Sys2Proof.Machine
end

