-- ==== Sys2Proof/Machine/Operands.lean ====
section
/-! DEFINITION. The operand forms: the Channel Address Resolver (40_resolve.md R110 to R112), the effective address
(20_memory.md R56), the physical register an address selects (R57), and the two access primitives (R61). -/

namespace Sys2Proof.Machine

/-- `chan_off(variant, i)` (40_resolve.md R111, R112). -/
def chanOff (v : Variant) (ch : Channel) : Word64 :=
  match v with
  | .flat => ch.setWidth 64 * Config.chanStride
  | .banked =>
    if ch.toNat < Config.bankSlots then ch.setWidth 64 * Config.chanStride
    else BitVec.ofNat 64 (ch.toNat % Config.bankSlots) * Config.chanStride + Config.bankOffset

/-- `resolve_channel_base(base, variant, i)`, modulo `2^64` (40_resolve.md R110). -/
def channelBase (base : Word64) (v : Variant) (ch : Channel) : Word64 := base + chanOff v ch

/-- The channel base under the captured configuration (20_memory.md R56). -/
def State.channelBase (s : State) (ch : Channel) : Word64 := Machine.channelBase s.cfg.base s.cfg.variant ch

/-- The effective address of a register, modulo `2^64` (20_memory.md R56). -/
def effAddr (cb : Word64) (r : Reg) : Word64 := cb + regOff r

/-- `phys(offset)` for a value of `BANK_ALIASED` (20_memory.md R57). -/
def physOffset (aliased : Bool) (v : Variant) (off : Word64) : Word64 :=
  match v with
  | .flat => off
  | .banked =>
    if 0x8000 ≤ off.toNat ∧ off.toNat ≤ 0x803F then (if aliased then off - Config.bankOffset else off) else off

/-- The key in the window of the register an effective address selects: `phys(ea - cfg.base)` (20_memory.md R57, R61).
Log 8. -/
def State.windowKey (s : State) (ea : Word64) : Nat :=
  (physOffset Config.bankAliased s.cfg.variant (ea - s.cfg.base)).toNat

/-- An access needs a mapped window (20_memory.md R51) and a configuration whose accesses are aligned, do not wrap and lie
in the window (R52, R60; 70_reset_and_hazards.md R226). -/
def access (s : State) (k : Progress) : Progress :=
  if s.res.map then underDuty s.cfg.variant s.cfg.base s k else .faults .windowUnmapped

/-- The value `MemRead(ea, 4)` returns (20_memory.md R61). -/
def State.readAt (s : State) (ea : Word64) : Word32 := s.window.read32 (s.windowKey ea)

/-- The state after `MemRead(ea, 4)` by port `p`: only the trace has grown (20_memory.md R62). -/
def State.afterRead (s : State) (p : Nat) (ea : Word64) : State := s.log (.read p ea (s.readAt ea))

/-- The state after `MemWrite(ea, 4, v)` by port `p` (20_memory.md R61). -/
def State.afterWrite (s : State) (p : Nat) (ea : Word64) (v : Word32) : State :=
  { s with window := s.window.write32 (s.windowKey ea) v }.log (.write p ea v)

/-- The register `r` of channel `ch`, as the block reads it under the captured configuration. -/
def State.channelReg (s : State) (ch : Channel) (r : Reg) : Word32 := s.readAt (effAddr (s.channelBase ch) r)

end Sys2Proof.Machine
end

