-- ==== Sys2Proof/Machine/Converter.lean ====
section
/-! DEFINITION. The State Converter: the statements of GET_STATE (42_get_state.md R140) and of APPLY
(43_apply.md R150), numbered by `seq`. -/

namespace Sys2Proof.Machine

/-- The response of GET_STATE (42_get_state.md R144). A zero rate cannot occur in service (41_convert.md R123). -/
def stateResponse (clk : ClkRate) (tp td tc : Word32) : Response :=
  ⟨.ok, nsField tp clk, nsField td clk, enabledOf tc, true⟩

/-- GET_STATE (42_get_state.md R140). -/
def getStateStatement (ch : Channel) (p : Nat) (c : Ctx) (s : State) : Progress :=
  match c.seq.toNat with
  | 0 => gate true s (.goes { c.next with cb := s.channelBase ch } s)
  | 1 => access s (.goes { c.next with tp := s.readAt (effAddr c.cb .lrc) } (s.afterRead p (effAddr c.cb .lrc)))
  | 2 => access s (.goes { c.next with td := s.readAt (effAddr c.cb .hrc) } (s.afterRead p (effAddr c.cb .hrc)))
  | 3 =>
    access s
      (if s.cfg.clkRate = 0 then .faults .zeroClockRate
       else .answers (stateResponse s.cfg.clkRate c.tp c.td (s.readAt (effAddr c.cb .ctrl)))
        (s.afterRead p (effAddr c.cb .ctrl)))
  | _ => .faults .sequencerOverrun

/-- APPLY (43_apply.md R150). -/
def applyStatement (ch : Channel) (en : Bool) (pol : Polarity) (period duty : Word64) (p : Nat) (c : Ctx) (s : State) :
    Progress :=
  match c.seq.toNat with
  | 0 =>
    gate true s
      (match pol with
       | .normal => raise .unsupportedPolarity s
       | .inversed =>
         .goes { c.next with
           cb := s.channelBase ch, tp := tickReg period s.cfg.clkRate, td := tickReg duty s.cfg.clkRate } s)
  | 1 => access s (.goes c.next (s.afterWrite p (effAddr c.cb .lrc) c.tp))
  | 2 => access s (.goes c.next (s.afterWrite p (effAddr c.cb .hrc) c.td))
  | 3 => access s (.goes c.next (s.afterWrite p (effAddr c.cb .cntr) 0))
  | 4 => access s (.goes { c.next with tc := s.readAt (effAddr c.cb .ctrl) } (s.afterRead p (effAddr c.cb .ctrl)))
  | 5 => access s (respondOk (s.afterWrite p (effAddr c.cb .ctrl) (ctrlWithEnable c.tc en)))
  | _ => .faults .sequencerOverrun

end Sys2Proof.Machine
end

