-- ==== Sys2Proof/Machine/Lifecycle.lean ====
section
/-! DEFINITION. The statements of INIT (44_lifecycle.md R172) and of TEARDOWN (R177), numbered by `seq`. Neither makes
a register access (R176). -/

namespace Sys2Proof.Machine

/-- The clock rate INIT stores, `clk_rate_in[62:0]` (30_encoding.md R88). -/
def storedRate (clkRateIn : Word64) : ClkRate := clkRateIn.extractLsb' 0 63

/-- The state a successful INIT leaves: the configuration captured and the Controller in service (44_lifecycle.md
R172). -/
def State.capture (s : State) (var : Variant) (clkRateIn base : Word64) : State :=
  { s with cfg := ⟨true, storedRate clkRateIn, var, base⟩ }

/-- INIT (44_lifecycle.md R172). `underDuty` of statement 5 is the model's refusal of 70_reset_and_hazards.md R226, not a
check of the block. Log 15, log 22. -/
def initStatement (var : Variant) (clkRateIn base : Word64) (_p : Nat) (c : Ctx) (s : State) : Progress :=
  match c.seq.toNat with
  | 0 => gate false s (.goes c.next s)
  | 1 => if s.env.mapOk then .goes c.next s.mapWindow else raise .resourceFailure s
  | 2 => if s.env.clkOk then .goes c.next s.clockOn else raise .resourceFailure s.unmapWindow
  | 3 => if clkRateIn.toInt ≤ 0 then raise .invalidClockRate s.clockOff.unmapWindow else .goes c.next s
  | 4 =>
    match s.env.rst with
    | .absent => .goes c.next s
    | .present => .goes c.next s.deassertReset
    | .error => raise .resourceFailure s.clockOff.unmapWindow
  | 5 =>
    if s.env.regOk then underDuty var base s (respondOk (s.register.capture var clkRateIn base))
    else raise .resourceFailure s.assertReset.clockOff.unmapWindow
  | _ => .faults .sequencerOverrun

/-- The Controller leaves service: `cfg.in_service <- 0` (44_lifecycle.md R177). -/
def State.leaveService (s : State) : State := { s with cfg := { s.cfg with inService := false } }

/-- TEARDOWN (44_lifecycle.md R177). Once the reset line is asserted or the clock is off, the registers' contents are
unspecified (R178): free values. Log 5. -/
def teardownStatement (_p : Nat) (c : Ctx) (s : State) : Progress :=
  match c.seq.toNat with
  | 0 => gate true s (.goes c.next s.leaveService.unregister)
  | 1 => if s.res.rst then .goes c.next s.assertReset.scrambleRegisters else .goes c.next s
  | 2 => .goes c.next s.clockOff.scrambleRegisters
  | 3 => respondOk s.unmapWindow
  | _ => .faults .sequencerOverrun

end Sys2Proof.Machine
end

