-- ==== Sys2Proof/Machine/Resolve.lean ====
section
/-! DEFINITION. The statements of RESOLVE (40_resolve.md R113). -/

namespace Sys2Proof.Machine

/-- RESOLVE (40_resolve.md R113): statement 0 answers the channel base. -/
def resolveStatement (ch : Channel) (_p : Nat) (c : Ctx) (s : State) : Progress :=
  match c.seq.toNat with
  | 0 => gate true s (.answers ⟨.ok, s.channelBase ch, 0, false, false⟩ s)
  | _ => .faults .sequencerOverrun

end Sys2Proof.Machine
end

