-- ==== Sys2Proof/Machine/Sequencer.lean ====
section
/-! DEFINITION. The sequencers of the requester ports (10_state.md R38), what one input of the outside world does, and
the running of a whole operation with the inputs that fall inside it (20_memory.md R64, R65; 60_exceptions.md R209). -/

namespace Sys2Proof.Machine

/-- What a statement of some operation is: a function of the port, its context and the state. -/
abbrev Statement := Nat → Ctx → State → Progress

/-- The outcome of a step of this machine. -/
abbrev Result := Host.Outcome State Fault Refusal

/-- The statements of an operation (10_state.md R21). -/
def statementOf (i : Instr) : Statement :=
  match i with
  | .init var clkRateIn base => initStatement var clkRateIn base
  | .teardown => teardownStatement
  | .resolve ch => resolveStatement ch
  | .getState ch => getStateStatement ch
  | .apply ch en pol period duty => applyStatement ch en pol period duty

/-- The response leaves on port `p` and the port is free again (30_encoding.md R94; 10_state.md R38). -/
def State.respond (s : State) (p : Nat) (r : Response) : State := (s.setCtx p Ctx.idle).log (.response p r)

/-- Port `p` runs one statement of its operation. -/
def runStatement (stmt : Statement) (p : Nat) (s : State) : Result :=
  match stmt p (s.ctx p) s with
  | .goes c s' => .next (s'.setCtx p c)
  | .answers r s' => .next (s'.respond p r)
  | .faults f => .fault f
  | .refuses r => .refused r

/-- Port `p` runs the next statement of the command it latched; an idle port has nothing to run. -/
def advance (p : Nat) (s : State) : Result :=
  if (s.ctx p).busy then
    match decode (s.ctx p).cmd with
    | .ok i => runStatement (statementOf i) p s
    | .error _ => .next (s.respond p (Response.only .illegalCommand))
  else .next s

/-- Acceptance of the operation `i`, whose record is `c`, on port `p` (10_state.md R38): a busy port accepts nothing
(log 18), and INIT and TEARDOWN need the block to themselves (70_reset_and_hazards.md R231; log 16). -/
def accept (p : Nat) (i : Instr) (c : Command) (s : State) : Result :=
  if portExists p then
    if (s.ctx p).busy then .next s
    else if (i.isLifecycle && s.anyBusy) || s.lifecycleInFlight then .refused .lifecycleOverlap
    else .next (s.setCtx p (Ctx.accepted c))
  else .refused .noSuchPort

/-- A reserved command: the decoder answers `IllegalCommand`, whatever the lifecycle state (60_exceptions.md R195). -/
def rejectReserved (p : Nat) (s : State) : Result :=
  if portExists p then
    if (s.ctx p).busy then .next s else .next (s.log (.response p (Response.only .illegalCommand)))
  else .refused .noSuchPort

/-- A command is presented on port `p` while another operation runs: it is latched, and its statements run when the port
advances. -/
def offer (p : Nat) (c : Command) (s : State) : Result :=
  match decode c with
  | .ok i => accept p i c s
  | .error _ => rejectReserved p s

/-- The device changes the bits of a register that it may change (10_state.md R36). -/
def deviceMove (b : Block) (r : Reg) (v : Word32) (s : State) : State :=
  { s with
    window :=
      s.window.write32 (b.off + (regOff r).toNat)
        (deviceChange (deviceMask r) (s.window.read32 (b.off + (regOff r).toNat)) v) }

/-- Some resource is held. -/
def Res.anyHeld (r : Res) : Bool := r.map || r.clk || r.rst || r.reg

/-- The block's reset during a run (70_reset_and_hazards.md R220, R222; 10_state.md R43): out of service, no resource,
every port idle; configuration and registers are unspecified. Log 6. -/
def State.resetBlock (s : State) : State :=
  { s.scrambleRegisters with
    cfg := ⟨false, Config.freeClkRate s.draws, Config.freeVariant s.draws, Config.freeBase s.draws⟩
    res := ⟨false, false, false, false⟩
    mapped := 0
    ports := [] }

/-- A reset abandons running operations (70_reset_and_hazards.md R222); with resources held in mid-operation the run is
refused (93_implementation_defined.md U12). Log 17. -/
def resetInput (s : State) : Result :=
  if s.anyBusy && s.res.anyHeld then .refused .resetInMidOperation else .next s.resetBlock

/-- One input of the outside world, as one step of one agent (60_exceptions.md R209). -/
def consume (x : Input) (s : State) : Result :=
  match x with
  | .command p c => offer p c s
  | .advance p => advance p s
  | .device b r v => .next (deviceMove b r v s)
  | .platform e => .next { s with env := e }
  | .reset => resetInput s

/-- Port `p` runs the rest of its operation with no other agent's step in between, at most `n` statements
(60_exceptions.md R208). -/
def runAlone (stmt : Statement) (p : Nat) : Nat → State → Result
  | 0, s => if (s.ctx p).busy then .fault .sequencerOverrun else .next s
  | n + 1, s =>
    if (s.ctx p).busy then
      match runStatement stmt p s with
      | .next s' => runAlone stmt p n s'
      | .fault f => .fault f
      | .refused r => .refused r
    else .next s

/-- The statements an operation has at most (60_exceptions.md R208). -/
def maxStatements : Nat := 6

/-- The inputs fall one after the other between the statements of port `p`'s operation until it has answered (or a reset
abandoned it); inputs left over stay pending, and when they run out the port runs alone. Log 12. -/
def runInputs (stmt : Statement) (p : Nat) : List Input → State → Result
  | [], s => runAlone stmt p maxStatements s
  | x :: xs, s =>
    if (s.ctx p).busy then
      match (match x with
        | .advance q => if q = p then runStatement stmt p s else advance q s
        | y => consume y s) with
      | .next s' => runInputs stmt p xs s'
      | .fault f => .fault f
      | .refused r => .refused r
    else .next { s with pending := x :: xs }

/-- The whole operation `i` on port `s.port`: acceptance, then its statements with the pending inputs that fall between
them, up to the response. -/
def runOperation (i : Instr) (stmt : Statement) (s : State) : Result :=
  if (s.ctx s.port).busy && portExists s.port then .next s
  else
    match accept s.port i (encode i) s with
    | .next s' => runInputs stmt s.port s.pending { s' with pending := [] }
    | .fault f => .fault f
    | .refused r => .refused r

end Sys2Proof.Machine
end

