-- ==== Sys2Proof/Machine/Operations.lean ====
section
/-! DEFINITION. The meaning of each operation: its own statements, run from acceptance to response on the port
`s.port`, with the pending inputs that fall between them. -/

namespace Sys2Proof.Machine

/-- INIT (44_lifecycle.md R172). -/
def execInit (var : Variant) (clkRateIn base : Word64) (s : State) : Result :=
  runOperation (.init var clkRateIn base) (initStatement var clkRateIn base) s

/-- TEARDOWN (44_lifecycle.md R177). -/
def execTeardown (s : State) : Result := runOperation .teardown teardownStatement s

/-- RESOLVE (40_resolve.md R113). -/
def execResolve (ch : Channel) (s : State) : Result := runOperation (.resolve ch) (resolveStatement ch) s

/-- GET_STATE (42_get_state.md R140). -/
def execGetState (ch : Channel) (s : State) : Result := runOperation (.getState ch) (getStateStatement ch) s

/-- APPLY (43_apply.md R150). -/
def execApply (ch : Channel) (en : Bool) (pol : Polarity) (period duty : Word64) (s : State) : Result :=
  runOperation (.apply ch en pol period duty) (applyStatement ch en pol period duty) s

end Sys2Proof.Machine
end

