-- ==== Sys2Proof/Machine/Dispatch.lean ====
section
/-! DEFINITION. One arm per operation. -/

namespace Sys2Proof.Machine

def exec (i : Instr) (s : State) : Host.Outcome State Fault Refusal :=
  match i with
  | .init var clkRateIn base => Sys2Proof.Machine.execInit var clkRateIn base s
  | .teardown => Sys2Proof.Machine.execTeardown s
  | .resolve ch => Sys2Proof.Machine.execResolve ch s
  | .getState ch => Sys2Proof.Machine.execGetState ch s
  | .apply ch en pol period duty => Sys2Proof.Machine.execApply ch en pol period duty s

end Sys2Proof.Machine
end

