-- ==== Sys2Proof/Machine/Step.lean ====
section
/-! DEFINITION. One step of the machine: the next input of the outside world, a command being run by `exec` as a whole
operation. Log 11, log 12. -/

namespace Sys2Proof.Machine

/-- A command on port `p` is decoded and run (30_encoding.md R85; 60_exceptions.md R197). -/
def runCommand (p : Nat) (c : Command) (s : State) : Host.Outcome State Fault Refusal :=
  match decode c with
  | .ok i => exec i { s with port := p }
  | .error _ => rejectReserved p s

/-- With no input pending the lowest busy port goes on (70_reset_and_hazards.md R236), and a block with nothing to do
waits for a command (R223). -/
def idleStep (s : State) : Host.Outcome State Fault Refusal :=
  match s.firstBusy with
  | some p => advance p s
  | none => .next s

/-- One step. -/
def step (s : State) : Host.Outcome State Fault Refusal :=
  match s.pending with
  | [] => idleStep s
  | .command p c :: rest => runCommand p c { s with pending := rest }
  | x :: rest => consume x { s with pending := rest }

/-- The state with a command next on an idle port 0: the record whose low `nbits` bits are those of `w`, its other bits
0. Log 23. -/
def State.withFetchWord (s : State) (nbits w : Nat) : State :=
  { s.setCtx 0 Ctx.idle with pending := .command 0 (Command.ofTableWord nbits w) :: s.pending }

end Sys2Proof.Machine
end

