-- ==== Sys2Proof/Safety.lean ====
section
/-! DEFINITION. What a good state is, and the conditions under which an operation runs to its response: the terms the
claims use. -/

namespace Sys2Proof.Machine

/-- The captured base and the mapped window meet the platform's duty (70_reset_and_hazards.md R226). -/
def State.dutyMet (s : State) : Bool :=
  baseMeetsDuty s.cfg.variant s.cfg.base && decide (s.cfg.variant.windowBytes ≤ s.mapped)

/-- What the spec says of a Controller in service: window mapped, clock enabled, registered (10_state.md R41), rate at
least 1 (60_exceptions.md R191), and the platform's duty on base and window met (70_reset_and_hazards.md R226). -/
def State.serving (s : State) : Bool :=
  s.res.map && s.res.clk && s.res.reg && decide (s.cfg.clkRate ≠ 0) && s.dutyMet

/-- The configuration and the resource flags agree when INIT and TEARDOWN are not under way: in service as `serving`
says, out of service with nothing held and no window mapped (44_lifecycle.md R175, R177, R180). -/
def State.settled (s : State) : Bool :=
  if s.cfg.inService then s.serving else !s.res.anyHeld && decide (s.mapped = 0)

/-- Where a running INIT stands: the resources of the finished statements are held (44_lifecycle.md R172). -/
def initInFlight (seq : Nat) (s : State) : Bool :=
  match seq with
  | 0 => s.settled
  | 1 => !s.cfg.inService && decide (s.res = ⟨false, false, false, false⟩) && decide (s.mapped = 0)
  | 2 => !s.cfg.inService && decide (s.res = ⟨true, false, false, false⟩)
  | 3 => !s.cfg.inService && decide (s.res = ⟨true, true, false, false⟩)
  | 4 => !s.cfg.inService && decide (s.res = ⟨true, true, false, false⟩)
  | 5 => !s.cfg.inService && decide (s.res = ⟨true, true, s.res.rst, false⟩)
  | _ => false

/-- Where a running TEARDOWN stands: the resources of the finished statements are released (44_lifecycle.md R177). -/
def teardownInFlight (seq : Nat) (s : State) : Bool :=
  match seq with
  | 0 => s.settled
  | 1 => !s.cfg.inService && decide (s.res = ⟨true, true, s.res.rst, false⟩)
  | 2 => !s.cfg.inService && decide (s.res = ⟨true, true, false, false⟩)
  | 3 => !s.cfg.inService && decide (s.res = ⟨true, false, false, false⟩)
  | _ => false

/-- The context of a running operation fits its operation and the state (10_state.md R21, R38); an INIT past its fourth
statement has a positive rate (44_lifecycle.md R172). -/
def ctxFits (s : State) (c : Ctx) : Bool :=
  match decode c.cmd with
  | .error _ => false
  | .ok (.init _ clk _) => initInFlight c.seq.toNat s && (decide (c.seq.toNat ≤ 3) || decide (0 < clk.toInt))
  | .ok .teardown => teardownInFlight c.seq.toNat s
  | .ok (.resolve _) => s.settled && decide (c.seq = 0)
  | .ok (.getState ch) =>
    s.settled && decide (c.seq.toNat ≤ 3) &&
      (decide (c.seq = 0) || (s.cfg.inService && decide (c.cb = s.channelBase ch)))
  | .ok (.apply ch _ pol period duty) =>
    s.settled && decide (c.seq.toNat ≤ 5) &&
      (decide (c.seq = 0) ||
        (s.cfg.inService && decide (pol = .inversed) && decide (c.cb = s.channelBase ch) &&
          decide (c.tp = tickReg period s.cfg.clkRate) && decide (c.td = tickReg duty s.cfg.clkRate)))

/-- Every listed context is busy and fits its operation (10_state.md R38). -/
def State.portsFit (s : State) : Bool := s.ports.all (fun e => e.2.busy && ctxFits s e.2)

/-- Every listed context belongs to a port that exists (10_state.md R38). -/
def State.portsExist (s : State) : Bool := s.ports.all (fun e => portExists e.1)

/-- INIT and TEARDOWN run alone (70_reset_and_hazards.md R231). -/
def State.lifecycleAlone (s : State) : Bool := !s.lifecycleInFlight || decide (s.ports.length = 1)

/-- The invariant of the machine: the window and the list of contexts are in canonical form, every running operation
fits the state and runs on a port that exists, INIT and TEARDOWN run alone, and a block that runs nothing is settled. -/
def State.good (s : State) : Bool :=
  s.window.wf && canonical Ctx.idle s.ports && s.portsFit && s.portsExist && s.lifecycleAlone &&
    (decide (s.ports ≠ []) || s.settled)

/-- A command can be accepted on port `s.port` (10_state.md R38; 70_reset_and_hazards.md R231). -/
def State.canStart (s : State) : Bool :=
  portExists s.port && decide (s.ctx s.port = Ctx.idle) && !s.lifecycleInFlight && canonical Ctx.idle s.ports

/-- No port runs an operation, as the platform owes INIT and TEARDOWN (70_reset_and_hazards.md R231). -/
def State.quiet (s : State) : Bool := !s.anyBusy

/-- What may fall inside the operation `i` of port `p` under the platform's duty (70_reset_and_hazards.md R231) when no
reset falls: moves of the device and of the platform, steps of every port, and commands on ports that exist which do not
overlap INIT or TEARDOWN. A command on `p` itself is not accepted meanwhile (10_state.md R38). -/
def Input.keepsDuty (p : Nat) (i : Instr) : Input → Bool
  | .command q c =>
    portExists q &&
      (decide (q = p) ||
        (match decode c with
         | .ok j => !i.isLifecycle && !j.isLifecycle
         | .error _ => true))
  | .advance _ => true
  | .device _ _ _ => true
  | .platform _ => true
  | .reset => false

/-- A list of inputs, one after the other, each as one step of one agent (60_exceptions.md R209). -/
def consumeAll : List Input → State → Result
  | [], s => .next s
  | x :: xs, s =>
    match consume x s with
    | .next s' => consumeAll xs s'
    | .fault f => .fault f
    | .refused r => .refused r

/-- A register access (20_memory.md R61). -/
def Event.isAccess : Event → Bool
  | .read _ _ _ => true
  | .write _ _ _ => true
  | .action _ => false
  | .response _ _ => false

/-- A register access by port `p` (20_memory.md R61). -/
def Event.isAccessBy (p : Nat) : Event → Bool
  | .read q _ _ => decide (q = p)
  | .write q _ _ => decide (q = p)
  | .action _ => false
  | .response _ _ => false

/-- A response on port `p` (30_encoding.md R94). -/
def Event.isResponseOn (p : Nat) : Event → Bool
  | .read _ _ _ => false
  | .write _ _ _ => false
  | .action _ => false
  | .response q _ => decide (q = p)

/-- The value of `cfg.in_service` that an operation requires (60_exceptions.md R194). -/
def requiredService : Instr → Bool
  | .init _ _ _ => false
  | .teardown => true
  | .resolve _ => true
  | .getState _ => true
  | .apply _ _ _ _ _ => true

/-- No resource is held. -/
def Res.none : Res := ⟨false, false, false, false⟩

/-- The block is in service and a register access reaches the window (20_memory.md R51, R52, R59). -/
def State.accessible (s : State) : Bool := s.cfg.inService && s.res.map && s.dutyMet

/-- The physical offset of the register block of channel `ch` for a value of `BANK_ALIASED` (20_memory.md R54, R55,
R57). -/
def blockOffset (aliased : Bool) (v : Variant) (ch : Channel) : Nat := (physOffset aliased v (chanOff v ch)).toNat

/-- The channel whose registers an operation reads or writes (10_state.md R35). -/
def touchedChannel : Instr → Option Channel
  | .init _ _ _ => none
  | .teardown => none
  | .resolve _ => none
  | .getState ch => some ch
  | .apply ch _ _ _ _ => some ch

/-- Two operations touch no common physical register block (60_exceptions.md R210). -/
def blocksApart (v : Variant) (i j : Instr) : Bool :=
  match touchedChannel i, touchedChannel j with
  | some ch, some ch' => decide (blockOffset Config.bankAliased v ch ≠ blockOffset Config.bankAliased v ch')
  | _, _ => true

/-- A command record touches no register block of the operation `i`. -/
def commandApart (v : Variant) (i : Instr) (c : Command) : Bool :=
  match decode c with
  | .ok j => blocksApart v i j
  | .error _ => true

/-- An input gives no port but `p` a command on a register block of `i`. -/
def Input.apartFrom (p : Nat) (v : Variant) (i : Instr) : Input → Bool
  | .command q c => decide (q = p) || commandApart v i c
  | .advance _ => true
  | .device _ _ _ => true
  | .platform _ => true
  | .reset => true

/-- The callers serialise the operation `i` of port `s.port`: the operations in flight and the commands still to come on
other ports are on other physical register blocks (70_reset_and_hazards.md R230). -/
def State.serialised (s : State) (i : Instr) : Bool :=
  s.ports.all (fun e => commandApart s.cfg.variant i e.2.cmd) && s.pending.all (Input.apartFrom s.port s.cfg.variant i)

/-- The window the platform would map covers what an INIT needs (70_reset_and_hazards.md R225, R226). -/
def windowMet (i : Instr) (e : Env) : Bool :=
  match i with
  | .init var _ _ => decide (var.windowBytes ≤ e.windowBytes)
  | .teardown => true
  | .resolve _ => true
  | .getState _ => true
  | .apply _ _ _ _ _ => true

/-- If the input changes the platform's answers, the window still covers what `i` needs. -/
def Input.windowMet (i : Instr) : Input → Bool
  | .command _ _ => true
  | .advance _ => true
  | .device _ _ _ => true
  | .platform e => Machine.windowMet i e
  | .reset => true

/-- The input is a command or a step of port `q`. -/
def Input.concerns (q : Nat) : Input → Bool
  | .command p _ => decide (p = q)
  | .advance p => decide (p = q)
  | .device _ _ _ => false
  | .platform _ => false
  | .reset => false

/-- The next step runs the operation `i` on port `p`, whole or its next statement. -/
def State.runsNext (s : State) (p : Nat) (i : Instr) : Prop :=
  match s.pending with
  | [] => s.firstBusy = some p ∧ decode (s.ctx p).cmd = .ok i
  | .command q c :: _ => q = p ∧ decode c = .ok i
  | .advance q :: _ => q = p ∧ (s.ctx p).busy = true ∧ decode (s.ctx p).cmd = .ok i
  | .device _ _ _ :: _ => False
  | .platform _ :: _ => False
  | .reset :: _ => False

/-- A physical offset lies in the register block of channel `ch`. -/
def State.inBlock (s : State) (ch : Channel) (a : Nat) : Prop :=
  blockOffset Config.bankAliased s.cfg.variant ch ≤ a ∧ a < blockOffset Config.bankAliased s.cfg.variant ch + 16

end Sys2Proof.Machine
end

