-- ==== Sys2Proof/Certificates/Slice0/Obligations.lean ====
section
/-! DEFINITION. The statements for the provers, from the numbered rules of spec/. -/

open Sys2Proof Sys2Proof.Machine

/-! ### Encoding -/

/-- Decoding the record of an instruction gives the instruction back, as a record and as one word
(30_encoding.md R80 to R83, R98). -/
def Obligations.DecodeOfEncode : Prop :=
  ∀ i : Instr, decode (encode i) = .ok i ∧ decode (Command.ofWord (encode i).toWord) = .ok i

/-- Bits a format does not use have no effect on the operation or its response (30_encoding.md R92): two records that
agree in `op` and in the fields their format uses decode alike and run alike. -/
def Obligations.IgnoredBitsHaveNoEffect : Prop :=
  ∀ c d : Command, c.op = d.op →
    (c.op = 0 → c.bit6 = d.bit6 ∧ c.opa = d.opa ∧ c.opb = d.opb) →
    (c.op = 2 ∨ c.op = 3 → c.ch = d.ch) →
    (c.op = 4 → c.ch = d.ch ∧ c.bit6 = d.bit6 ∧ c.bit7 = d.bit7 ∧ c.opa = d.opa ∧ c.opb = d.opb) →
    decode c = decode d ∧ ∀ (p : Nat) (s : State), runCommand p c s = runCommand p d s

/-- The headers of the operation map, written out bit by bit (30_encoding.md R82, R98). -/
def Obligations.KnownHeadersDecode : Prop :=
  (∀ a b : Word64, decode ⟨0b00000000, a, b⟩ = .ok (.init .flat a b)) ∧
  (∀ a b : Word64, decode ⟨0b01000000, a, b⟩ = .ok (.init .banked a b)) ∧
  (∀ a b : Word64, decode ⟨0b00000001, a, b⟩ = .ok .teardown) ∧
  (∀ a b : Word64, decode ⟨0b00101010, a, b⟩ = .ok (.resolve 5)) ∧
  (∀ a b : Word64, decode ⟨0b00010011, a, b⟩ = .ok (.getState 2)) ∧
  (∀ a b : Word64, decode ⟨0b11010100, a, b⟩ = .ok (.apply 2 true .inversed a b)) ∧
  (∀ a b : Word64, decode ⟨0b01010100, a, b⟩ = .ok (.apply 2 true .normal a b)) ∧
  (∀ a b : Word64, decode ⟨0b11111101, a, b⟩ = .error (.reservedOp 5))

/-- The parts of the command word (30_encoding.md R80). -/
def Obligations.CommandWordLayout : Prop :=
  ∀ c : Command, c.toWord.extractLsb' 0 8 = c.hdr ∧ c.toWord.extractLsb' 8 64 = c.opa ∧
    c.toWord.extractLsb' 72 64 = c.opb

/-- The parts of the response word, and the status codes (30_encoding.md R94, R95). -/
def Obligations.ResponseWordLayout : Prop :=
  (∀ r : Response, r.toWord.extractLsb' 0 3 = r.status.code ∧ r.toWord.extractLsb' 3 64 = r.ra ∧
    r.toWord.extractLsb' 67 64 = r.rb ∧ r.toWord.getLsbD 131 = r.ren ∧ r.toWord.getLsbD 132 = r.rpol) ∧
  (∀ st : Status, st.code.toNat ≤ 5) ∧
  (Status.ok.code = 0 ∧ Status.invalidClockRate.code = 1 ∧ Status.unsupportedPolarity.code = 2 ∧
    Status.resourceFailure.code = 3 ∧ Status.wrongLifecycleState.code = 4 ∧ Status.illegalCommand.code = 5)

/-! ### What a step runs -/

/-- A command next in line that decodes to `i` is run by `exec` as `i`, on its port. That the next input stands in the
list `pending` (log 11) and that the one step which takes a command runs its whole operation (log 12) are the model's
choice, no rule of the spec. -/
def Obligations.StepRunsDecodedCommand : Prop :=
  ∀ (s : State) (p : Nat) (c : Command) (rest : List Input) (i : Instr),
    s.pending = .command p c :: rest → decode c = .ok i →
    step s = exec i { s with pending := rest, port := p }

/-- The word placed by `withFetchWord` is what the next step runs, on port 0. The block fetches nothing (20_memory.md
R67): that a word is placed as a command in front of the pending inputs, with port 0 made idle, is the model's choice
(log 23). -/
def Obligations.FetchedWordRunsNext : Prop :=
  ∀ (s : State) (nbits w : Nat) (i : Instr), decodeTableWord nbits w = some i →
    step (s.withFetchWord nbits w) = exec i { s.setCtx 0 Ctx.idle with port := 0 }

/-- A busy port that advances runs the next statement of the operation it latched (10_state.md R21, R38). -/
def Obligations.AdvanceRunsLatchedOperation : Prop :=
  ∀ (s : State) (p : Nat) (rest : List Input) (i : Instr),
    s.pending = .advance p :: rest → (s.ctx p).busy = true → decode (s.ctx p).cmd = .ok i →
    step s = runStatement (statementOf i) p { s with pending := rest }

/-- A statement that ends makes `seq` grow by one with the same command latched, or ends the operation and frees the
port; no other port's context changes (10_state.md R21, R38). -/
def Obligations.SeqGrowsByOne : Prop :=
  ∀ (s t : State) (p : Nat), canonical Ctx.idle s.ports = true → (s.ctx p).busy = true → advance p s = .next t →
    ((t.ctx p = Ctx.idle ∧ ∃ r : Response, t.trace.head? = some (.response p r)) ∨
      ((t.ctx p).busy = true ∧ (t.ctx p).cmd = (s.ctx p).cmd ∧ (t.ctx p).seq = (s.ctx p).seq + 1)) ∧
    ∀ q : Nat, q ≠ p → t.ctx q = s.ctx q

/-! ### The Channel Address Resolver -/

/-- The offsets of the two policies, as numbers and in bits (40_resolve.md R111, R112). -/
def Obligations.ChannelOffsets : Prop :=
  ∀ ch : Channel,
    (chanOff .flat ch).toNat = ch.toNat * 0x10 ∧
    chanOff .flat ch = ch.setWidth 64 <<< 4 ∧
    (ch.toNat < 4 → (chanOff .banked ch).toNat = ch.toNat * 0x10) ∧
    (4 ≤ ch.toNat → (chanOff .banked ch).toNat = ch.toNat % 4 * 0x10 + 0x8000) ∧
    chanOff .banked ch = (ch.extractLsb' 2 1).setWidth 64 <<< 15 ||| (ch.extractLsb' 0 2).setWidth 64 <<< 4

/-- The properties of the offsets (40_resolve.md R115): injective, multiples of 0x10 under a bound, the pairing of `k`
and `k + 4`, and register blocks that do not overlap. -/
def Obligations.RegisterBlocksApart : Prop :=
  (∀ v : Variant, ∀ ch ch' : Channel, chanOff v ch = chanOff v ch' → ch = ch') ∧
  (∀ v : Variant, ∀ ch ch' : Channel, ch ≠ ch' →
    (chanOff v ch).toNat + 0x10 ≤ (chanOff v ch').toNat ∨ (chanOff v ch').toNat + 0x10 ≤ (chanOff v ch).toNat) ∧
  (∀ v : Variant, ∀ ch : Channel, (chanOff v ch).toNat % 0x10 = 0) ∧
  (∀ ch : Channel, (chanOff .flat ch).toNat ≤ 0x70 ∧ (chanOff .banked ch).toNat ≤ 0x8030) ∧
  (∀ ch : Channel, ch.toNat < 4 → chanOff .banked (ch + 4) = chanOff .banked ch + 0x8000)

/-- Under a base that meets the platform's duty every register access is aligned and no address wraps
(20_memory.md R56, R59; 70_reset_and_hazards.md R226). -/
def Obligations.AddressesAlignedAndInRange : Prop :=
  ∀ (v : Variant) (base : Word64) (ch : Channel) (r : Reg), baseMeetsDuty v base = true →
    (effAddr (channelBase base v ch) r).toNat = base.toNat + (chanOff v ch).toNat + (regOff r).toNat ∧
    (effAddr (channelBase base v ch) r).toNat % 4 = 0 ∧
    (effAddr (channelBase base v ch) r).toNat + 4 ≤ 2 ^ 64

/-- The physical offset; when the banks are aliased, channels `k` and `k + 4` have the same four physical registers and
those of channels 0 to 3 are distinct; when they are not, all are distinct (20_memory.md R57). -/
def Obligations.BankAliasing : Prop :=
  (∀ (aliased : Bool) (v : Variant) (off : Word64),
    physOffset aliased v off =
      if v = .banked ∧ aliased = true ∧ 0x8000 ≤ off.toNat ∧ off.toNat ≤ 0x803F then off - 0x8000 else off) ∧
  (∀ (ch : Channel) (r : Reg), ch.toNat < 4 →
    physOffset true .banked (chanOff .banked (ch + 4) + regOff r) =
      physOffset true .banked (chanOff .banked ch + regOff r)) ∧
  (∀ (ch ch' : Channel) (r r' : Reg), ch.toNat < 4 → ch'.toNat < 4 → (ch ≠ ch' ∨ r ≠ r') →
    physOffset true .banked (chanOff .banked ch + regOff r) ≠ physOffset true .banked (chanOff .banked ch' + regOff r')) ∧
  (∀ (v : Variant) (ch ch' : Channel) (r r' : Reg), (ch ≠ ch' ∨ r ≠ r') →
    physOffset false v (chanOff v ch + regOff r) ≠ physOffset false v (chanOff v ch' + regOff r'))

/-- RESOLVE answers the channel base in service and `WrongLifecycleState` out of service, and does nothing else
(40_resolve.md R113). -/
def Obligations.ResolveAnswersChannelBase : Prop :=
  ∀ (ch : Channel) (s : State), s.canStart = true → s.pending = [] →
    exec (.resolve ch) s =
      .next (s.log (.response s.port
        (if s.cfg.inService then ⟨.ok, s.cfg.base + chanOff s.cfg.variant ch, 0, false, false⟩
         else ⟨.wrongLifecycleState, 0, 0, false, false⟩)))

/-! ### Conversions -/

/-- `rnd_div` is the formula of the spec and the nearest integer, ties up (41_convert.md R120). -/
def Obligations.RoundedDivisionIsNearest : Prop :=
  (∀ a b : Nat, rndDiv a b = (a + b / 2) / b) ∧
  ∀ q r b : Nat, 1 ≤ b → r < b → rndDiv (q * b + r) b = if b ≤ 2 * r then q + 1 else q

/-- Nanoseconds to ticks: the formula, the bounds, and the same value in 128-bit machine arithmetic
(41_convert.md R121; 00_scope.md R6). -/
def Obligations.NsToTicksIsExact : Prop :=
  ∀ (ns : Word64) (clk : ClkRate),
    nsToTicks ns.toNat clk.toNat = (ns.toNat * clk.toNat + 500000000) / 1000000000 ∧
    ns.toNat * clk.toNat + 500000000 < 2 ^ 127 ∧
    nsToTicks ns.toNat clk.toNat < 2 ^ 98 ∧
    ((ns.setWidth 128 * clk.setWidth 128 + 500000000#128) / 1000000000#128).toNat = nsToTicks ns.toNat clk.toNat

/-- Ticks to nanoseconds: the formula, and that 64 bits suffice (41_convert.md R122). -/
def Obligations.TicksToNsFitsItsField : Prop :=
  ∀ (t : Word32) (clk : ClkRate), 1 ≤ clk.toNat →
    ticksToNs t.toNat clk.toNat = (t.toNat * 1000000000 + clk.toNat / 2) / clk.toNat ∧
    t.toNat * 1000000000 < 2 ^ 62 ∧ clk.toNat / 2 < 2 ^ 62 ∧ t.toNat * 1000000000 + clk.toNat / 2 < 2 ^ 63 ∧
    ticksToNs t.toNat clk.toNat ≤ 4294967295000000000 ∧
    (nsField t clk).toNat = ticksToNs t.toNat clk.toNat

/-- What APPLY writes for a time: the tick count modulo `2^32`, the count itself when it fits (41_convert.md R124), and
when it fits, with the largest times that do at 24 and 50 MHz (R125). -/
def Obligations.TickRegisterAndRange : Prop :=
  (∀ (ns : Word64) (clk : ClkRate),
    (tickReg ns clk).toNat = nsToTicks ns.toNat clk.toNat % 4294967296 ∧
    (fits32 ns.toNat clk.toNat = true → (tickReg ns clk).toNat = nsToTicks ns.toNat clk.toNat) ∧
    (fits32 ns.toNat clk.toNat = true ↔ nsToTicks ns.toNat clk.toNat ≤ 0xFFFFFFFF) ∧
    (fits32 ns.toNat clk.toNat = true ↔ ns.toNat * clk.toNat + 500000000 < 4294967296 * 1000000000)) ∧
  ∀ ns : Nat,
    (fits32 ns 24000000 = true ↔ ns ≤ 178956970645) ∧ (fits32 ns 50000000 = true ↔ ns ≤ 85899345909)

/-- Zeros of the conversions (41_convert.md R126). -/
def Obligations.ConversionZeros : Prop :=
  ∀ x clk : Nat, 1 ≤ clk →
    nsToTicks 0 clk = 0 ∧ ticksToNs 0 clk = 0 ∧
    (nsToTicks x clk = 0 ↔ x * clk < 500000000) ∧ (ticksToNs x clk = 0 ↔ x * 2000000000 < clk)

/-- Both conversions are non-decreasing for a fixed rate; the register value is not once the count does not fit
(41_convert.md R127). -/
def Obligations.ConversionsMonotone : Prop :=
  (∀ x y clk : Nat, 1 ≤ clk → x ≤ y → nsToTicks x clk ≤ nsToTicks y clk ∧ ticksToNs x clk ≤ ticksToNs y clk) ∧
  ∃ (x y : Word64) (clk : ClkRate), fits32 x.toNat clk.toNat = true ∧ fits32 y.toNat clk.toNat = false ∧
    x.toNat ≤ y.toNat ∧ (tickReg y clk).toNat < (tickReg x clk).toNat

/-- No rounding where the quotient is exact (41_convert.md R129). -/
def Obligations.ExactConversions : Prop :=
  ∀ x clk k : Nat, 1 ≤ clk →
    (x * clk = k * 1000000000 → nsToTicks x clk = k) ∧ (x * 1000000000 = k * clk → ticksToNs x clk = k)

/-- A time that fits reads back within one rounding unit, in exact arithmetic and through the register; one that does
not fit need not (41_convert.md R128). -/
def Obligations.RoundTripWithinUnit : Prop :=
  (∀ (ns : Word64) (clk : ClkRate), 1 ≤ clk.toNat → fits32 ns.toNat clk.toNat = true →
    ticksToNs (nsToTicks ns.toNat clk.toNat) clk.toNat ≤ ns.toNat + (1000000000 + clk.toNat - 1) / clk.toNat ∧
    ns.toNat ≤ ticksToNs (nsToTicks ns.toNat clk.toNat) clk.toNat + (1000000000 + clk.toNat - 1) / clk.toNat ∧
    (nsField (tickReg ns clk) clk).toNat = ticksToNs (nsToTicks ns.toNat clk.toNat) clk.toNat) ∧
  nsToTicks 178956970646 24000000 = 4294967296 ∧ tickReg 178956970646 24000000 = 0 ∧ nsField 0 24000000 = 0

/-- The rate INIT stores for a positive operand is the operand (30_encoding.md R88). -/
def Obligations.StoredRateIsOperand : Prop :=
  ∀ clk : Word64, (0 < clk.toInt ↔ 1 ≤ clk.toNat ∧ clk.toNat ≤ 0x7FFFFFFFFFFFFFFF) ∧
    (0 < clk.toInt → (storedRate clk).toNat = clk.toNat)

/-! ### GET_STATE -/

/-- GET_STATE in service reads `LRC`, `HRC`, `CTRL` in this order and answers their conversion; nothing else changes
(42_get_state.md R140 to R144). -/
def Obligations.GetStateReportsRegisters : Prop :=
  ∀ (ch : Channel) (s : State), s.canStart = true → s.pending = [] → s.accessible = true → s.cfg.clkRate ≠ 0 →
    exec (.getState ch) s =
      .next { s with
        trace :=
          [.response s.port
              ⟨.ok, BitVec.ofNat 64 (ticksToNs (s.channelReg ch .lrc).toNat s.cfg.clkRate.toNat),
                BitVec.ofNat 64 (ticksToNs (s.channelReg ch .hrc).toNat s.cfg.clkRate.toNat),
                (s.channelReg ch .ctrl).getLsbD 0, true⟩,
            .read s.port (s.channelBase ch + 0xC) (s.channelReg ch .ctrl),
            .read s.port (s.channelBase ch + 0x4) (s.channelReg ch .hrc),
            .read s.port (s.channelBase ch + 0x8) (s.channelReg ch .lrc)] ++ s.trace }

/-- GET_STATE while others move between its reads: the device, the platform, and other ports whose operations are on
other physical register blocks (70_reset_and_hazards.md R230). Its own accesses are the three reads, in order; the answer
is the conversion of the three values read; each value agrees with the register at the start in every bit the device may
not change, and so does the register at the end (42_get_state.md R141 to R144; 10_state.md R36). What one device move
is, is the model's choice (log 9), and so is the list of inputs that fall inside the operation (log 11, log 12). -/
def Obligations.GetStateUnderDeviceMoves : Prop :=
  ∀ (ch : Channel) (s : State),
    s.canStart = true → s.accessible = true → s.cfg.clkRate ≠ 0 → s.window.wf = true → s.portsFit = true →
    s.pending.all (Input.keepsDuty s.port (.getState ch)) = true → s.serialised (.getState ch) = true →
    ∃ (t : State) (lrc hrc ctrl : Word32) (new : List Event), exec (.getState ch) s = .next t ∧
      t.ctx s.port = Ctx.idle ∧
      t.trace.head? = some (.response s.port
        ⟨.ok, BitVec.ofNat 64 (ticksToNs lrc.toNat s.cfg.clkRate.toNat),
          BitVec.ofNat 64 (ticksToNs hrc.toNat s.cfg.clkRate.toNat), ctrl.getLsbD 0, true⟩) ∧
      t.trace = new ++ s.trace ∧
      new.filter (Event.isAccessBy s.port) =
        [.read s.port (s.channelBase ch + 0xC) ctrl, .read s.port (s.channelBase ch + 0x4) hrc,
          .read s.port (s.channelBase ch + 0x8) lrc] ∧
      (∀ k : Nat, (deviceMask .lrc).getLsbD k = false → lrc.getLsbD k = (s.channelReg ch .lrc).getLsbD k) ∧
      (∀ k : Nat, (deviceMask .hrc).getLsbD k = false → hrc.getLsbD k = (s.channelReg ch .hrc).getLsbD k) ∧
      (∀ k : Nat, (deviceMask .ctrl).getLsbD k = false → ctrl.getLsbD k = (s.channelReg ch .ctrl).getLsbD k) ∧
      (∀ (r : Reg) (k : Nat), (deviceMask r).getLsbD k = false →
        (t.channelReg ch r).getLsbD k = (s.channelReg ch r).getLsbD k) ∧
      t.cfg = s.cfg ∧ t.res = s.res ∧ t.mapped = s.mapped

/-! ### APPLY -/

/-- The value APPLY writes to `CTRL`: bits 0 and 3 as requested, every other bit as read (43_apply.md R157, R158). -/
def Obligations.EnableBitsAlone : Prop :=
  ∀ (tc : Word32) (en : Bool),
    ctrlWithEnable tc en = (if en then tc ||| 0x00000009 else tc &&& 0xFFFFFFF6) ∧
    ∀ k : Nat, (ctrlWithEnable tc en).getLsbD k = if k = 0 ∨ k = 3 then en else tc.getLsbD k

/-- APPLY in service with the supported polarity: the four writes and the one read, in order, with their addresses and
values, and the response; nothing else changes (43_apply.md R150, R153 to R158). -/
def Obligations.ApplyAccessesInOrder : Prop :=
  ∀ (ch : Channel) (en : Bool) (period duty : Word64) (s : State),
    s.canStart = true → s.pending = [] → s.accessible = true → s.window.wf = true →
    exec (.apply ch en .inversed period duty) s =
      .next { s with
        window :=
          (((s.window.write32 (s.windowKey (s.channelBase ch + 0x8)) (tickReg period s.cfg.clkRate)).write32
              (s.windowKey (s.channelBase ch + 0x4)) (tickReg duty s.cfg.clkRate)).write32
              (s.windowKey (s.channelBase ch)) 0).write32
              (s.windowKey (s.channelBase ch + 0xC)) (ctrlWithEnable (s.channelReg ch .ctrl) en)
        trace :=
          [.response s.port ⟨.ok, 0, 0, false, false⟩,
            .write s.port (s.channelBase ch + 0xC) (ctrlWithEnable (s.channelReg ch .ctrl) en),
            .read s.port (s.channelBase ch + 0xC) (s.channelReg ch .ctrl),
            .write s.port (s.channelBase ch) 0,
            .write s.port (s.channelBase ch + 0x4) (tickReg duty s.cfg.clkRate),
            .write s.port (s.channelBase ch + 0x8) (tickReg period s.cfg.clkRate)] ++ s.trace }

/-- The registers after a successful APPLY, and its frame: every byte of the window outside the channel's block, every
other field of the state (43_apply.md R152 to R158). -/
def Obligations.ApplyRegisterResult : Prop :=
  ∀ (ch : Channel) (en : Bool) (period duty : Word64) (s : State),
    s.canStart = true → s.pending = [] → s.accessible = true → s.window.wf = true →
    ∃ t : State, exec (.apply ch en .inversed period duty) s = .next t ∧
      t.channelReg ch .lrc = tickReg period s.cfg.clkRate ∧ t.channelReg ch .hrc = tickReg duty s.cfg.clkRate ∧
      t.channelReg ch .cntr = 0 ∧
      (∀ k : Nat, (t.channelReg ch .ctrl).getLsbD k = if k = 0 ∨ k = 3 then en else (s.channelReg ch .ctrl).getLsbD k) ∧
      (∀ a : Nat, ¬ s.inBlock ch a → t.window.byte a = s.window.byte a) ∧
      t.cfg = s.cfg ∧ t.res = s.res ∧ t.mapped = s.mapped ∧ t.ports = s.ports ∧ t.env = s.env ∧
      t.pending = s.pending ∧ t.draws = s.draws

/-- APPLY with another polarity answers `UnsupportedPolarity` and makes no access (43_apply.md R151). -/
def Obligations.ApplyRejectsPolarity : Prop :=
  ∀ (ch : Channel) (en : Bool) (period duty : Word64) (s : State),
    s.canStart = true → s.pending = [] → s.cfg.inService = true →
    exec (.apply ch en .normal period duty) s =
      .next (s.log (.response s.port ⟨.unsupportedPolarity, 0, 0, false, false⟩))

/-- APPLY leaves the registers of every channel with another physical block alone (60_exceptions.md R210). -/
def Obligations.ApplyLeavesOtherChannels : Prop :=
  ∀ (ch ch' : Channel) (en : Bool) (pol : Polarity) (period duty : Word64) (r : Reg) (s t : State),
    s.canStart = true → s.pending = [] → s.accessible = true → s.window.wf = true →
    blockOffset Config.bankAliased s.cfg.variant ch' ≠ blockOffset Config.bankAliased s.cfg.variant ch →
    exec (.apply ch en pol period duty) s = .next t →
    t.channelReg ch' r = s.channelReg ch' r

/-- APPLY followed by GET_STATE: for times in range the answer is within one rounding unit of the request, and the
enabled bit matches (10_state.md R34; 41_convert.md R128). -/
def Obligations.ApplyThenGetStateRoundTrip : Prop :=
  ∀ (ch : Channel) (en : Bool) (period duty : Word64) (s : State),
    s.canStart = true → s.pending = [] → s.accessible = true → s.window.wf = true → s.cfg.clkRate ≠ 0 →
    fits32 period.toNat s.cfg.clkRate.toNat = true → fits32 duty.toNat s.cfg.clkRate.toNat = true →
    ∃ (t u : State) (ra rb : Word64), exec (.apply ch en .inversed period duty) s = .next t ∧
      exec (.getState ch) t = .next u ∧ u.trace.head? = some (.response s.port ⟨.ok, ra, rb, en, true⟩) ∧
      ra.toNat ≤ period.toNat + (1000000000 + s.cfg.clkRate.toNat - 1) / s.cfg.clkRate.toNat ∧
      period.toNat ≤ ra.toNat + (1000000000 + s.cfg.clkRate.toNat - 1) / s.cfg.clkRate.toNat ∧
      rb.toNat ≤ duty.toNat + (1000000000 + s.cfg.clkRate.toNat - 1) / s.cfg.clkRate.toNat ∧
      duty.toNat ≤ rb.toNat + (1000000000 + s.cfg.clkRate.toNat - 1) / s.cfg.clkRate.toNat

/-- The last statement of APPLY writes the `CTRL` value read a statement before, with the enable bits changed, whatever
`CTRL` holds by then: a change made in between is lost (10_state.md R39; 70_reset_and_hazards.md R229). -/
def Obligations.ControlChangeInBetweenIsLost : Prop :=
  ∀ (p : Nat) (ch : Channel) (en : Bool) (pol : Polarity) (period duty : Word64) (s : State),
    canonical Ctx.idle s.ports = true → s.window.wf = true → s.accessible = true → (s.ctx p).busy = true →
    decode (s.ctx p).cmd = .ok (.apply ch en pol period duty) → (s.ctx p).seq = 5 →
    ∃ t : State, advance p s = .next t ∧
      t.readAt (effAddr (s.ctx p).cb .ctrl) = ctrlWithEnable (s.ctx p).tc en ∧
      t.ctx p = Ctx.idle ∧ t.trace.head? = some (.response p ⟨.ok, 0, 0, false, false⟩)

/-- APPLY while others move between its statements: the device, the platform, and other ports whose operations are on
other physical register blocks (70_reset_and_hazards.md R230). Outside the bits the device may change, the registers end
as the request says and the rest of `CTRL` as it was (10_state.md R34, R36; 43_apply.md R153 to R158): the operation
behaves as if it ran alone apart from the device's own changes. What one device move is, is the model's choice
(log 9), and so is the list of inputs that fall inside the operation (log 11, log 12). -/
def Obligations.ApplyUnderDeviceMoves : Prop :=
  ∀ (ch : Channel) (en : Bool) (period duty : Word64) (s : State),
    s.canStart = true → s.accessible = true → s.cfg.clkRate ≠ 0 → s.window.wf = true → s.portsFit = true →
    s.pending.all (Input.keepsDuty s.port (.apply ch en .inversed period duty)) = true →
    s.serialised (.apply ch en .inversed period duty) = true →
    ∃ t : State, exec (.apply ch en .inversed period duty) s = .next t ∧
      t.ctx s.port = Ctx.idle ∧ t.trace.head? = some (.response s.port ⟨.ok, 0, 0, false, false⟩) ∧
      (∀ k : Nat, (deviceMask .lrc).getLsbD k = false →
        (t.channelReg ch .lrc).getLsbD k = (tickReg period s.cfg.clkRate).getLsbD k) ∧
      (∀ k : Nat, (deviceMask .hrc).getLsbD k = false →
        (t.channelReg ch .hrc).getLsbD k = (tickReg duty s.cfg.clkRate).getLsbD k) ∧
      (∀ k : Nat, (deviceMask .ctrl).getLsbD k = false →
        (t.channelReg ch .ctrl).getLsbD k = if k = 0 ∨ k = 3 then en else (s.channelReg ch .ctrl).getLsbD k) ∧
      t.cfg = s.cfg ∧ t.res = s.res ∧ t.mapped = s.mapped

/-! ### INIT and TEARDOWN -/

/-- INIT with every answer of the platform, a positive rate, and a base and a window that meet the duty brings the
Controller into service, with the platform's actions in order; nothing else changes (44_lifecycle.md R172, R174, R176;
70_reset_and_hazards.md R226). That the registers keep their contents where the reset line is deasserted follows R176
against R221 and is the model's choice (log 7); the field `mapped` is the model's own (log 22). -/
def Obligations.InitBringsIntoService : Prop :=
  ∀ (var : Variant) (clk base : Word64) (s : State),
    s.canStart = true → s.quiet = true → s.pending = [] → s.cfg.inService = false → s.res = Res.none →
    s.env.mapOk = true → s.env.clkOk = true → s.env.rst ≠ .error → s.env.regOk = true →
    0 < clk.toInt → baseMeetsDuty var base = true → var.windowBytes ≤ s.env.windowBytes →
    exec (.init var clk base) s =
      .next { s with
        cfg := ⟨true, clk.extractLsb' 0 63, var, base⟩
        res := ⟨true, true, decide (s.env.rst = .present), true⟩
        mapped := s.env.windowBytes
        trace :=
          [.response s.port ⟨.ok, 0, 0, false, false⟩, .action .register] ++
            (if s.env.rst = .present then [.action .deassertReset] else []) ++
            [.action .clockOn, .action .mapWindow] ++ s.trace }

/-- A failed INIT answers by the priority of its steps and leaves everything but the trace as it was, with no register
access (44_lifecycle.md R173 to R176; 60_exceptions.md R198). That the registers keep their contents where the reset line
is deasserted and asserted again follows R176 against R221 and is the model's choice (log 7); so is that an INIT which
fails is answered also with a base or a window that breaks 70_reset_and_hazards.md R226 (log 15, log 22). -/
def Obligations.InitFailsAndUnwinds : Prop :=
  ∀ (var : Variant) (clk base : Word64) (s : State),
    s.canStart = true → s.quiet = true → s.pending = [] → s.cfg.inService = false → s.res = Res.none → s.mapped = 0 →
    (s.env.mapOk = false ∨ s.env.clkOk = false ∨ clk.toInt ≤ 0 ∨ s.env.rst = .error ∨ s.env.regOk = false) →
    exec (.init var clk base) s =
      .next { s with
        trace :=
          (if s.env.mapOk = false then [.response s.port (Response.only .resourceFailure)]
           else if s.env.clkOk = false then
             [.response s.port (Response.only .resourceFailure), .action .unmapWindow, .action .mapWindow]
           else if clk.toInt ≤ 0 then
             [.response s.port (Response.only .invalidClockRate), .action .unmapWindow, .action .clockOff,
               .action .clockOn, .action .mapWindow]
           else if s.env.rst = .error then
             [.response s.port (Response.only .resourceFailure), .action .unmapWindow, .action .clockOff,
               .action .clockOn, .action .mapWindow]
           else
             [.response s.port (Response.only .resourceFailure), .action .unmapWindow, .action .clockOff] ++
               (if s.env.rst = .present then [.action .assertReset, .action .deassertReset] else []) ++
               [.action .clockOn, .action .mapWindow]) ++ s.trace }

/-- An INIT that would capture a base or a window that breaks the platform's duty is refused by the model: a base that is
misaligned or lets the window wrap, a window that does not cover the registers' offsets (70_reset_and_hazards.md R226).
That the refusal stands at the capture and not before is the model's choice (log 15, log 22). -/
def Obligations.InitRefusesBadBase : Prop :=
  ∀ (var : Variant) (clk base : Word64) (s : State),
    s.canStart = true → s.quiet = true → s.pending = [] → s.cfg.inService = false →
    s.env.mapOk = true → s.env.clkOk = true → s.env.rst ≠ .error → s.env.regOk = true → 0 < clk.toInt →
    (¬ (base.toNat % 4 = 0 ∧ base.toNat + (if var = .flat then 0x80 else 0x8040) ≤ 2 ^ 64) →
      exec (.init var clk base) s = .refused .baseBreaksDuty) ∧
    (base.toNat % 4 = 0 ∧ base.toNat + (if var = .flat then 0x80 else 0x8040) ≤ 2 ^ 64 →
      s.env.windowBytes < (if var = .flat then 0x80 else 0x8040) →
      exec (.init var clk base) s = .refused .windowTooSmall)

/-- TEARDOWN in service releases everything in reverse order and makes no register access; the registers' contents
afterwards are unspecified: each holds a free value (44_lifecycle.md R177, R178; 10_state.md R43). The model's choices in
it: that the free values are drawn here (log 5), that `clk_rate`, `variant` and `base` are kept though they have lost
their meaning (log 20), and the bytes of the window outside the registers (log 4). -/
def Obligations.TeardownReleases : Prop :=
  ∀ s : State,
    s.canStart = true → s.quiet = true → s.pending = [] → s.cfg.inService = true → s.window.wf = true →
    s.res.map = true → s.res.clk = true → s.res.reg = true →
    ∃ t : State, exec .teardown s = .next t ∧
      t.cfg = { s.cfg with inService := false } ∧ t.res = Res.none ∧ t.mapped = 0 ∧
      t.trace =
        [.response s.port ⟨.ok, 0, 0, false, false⟩, .action .unmapWindow, .action .clockOff] ++
          (if s.res.rst then [.action .assertReset] else []) ++ [.action .unregister] ++ s.trace ∧
      t.ports = s.ports ∧ t.env = s.env ∧ t.pending = s.pending ∧ t.window.wf = true ∧
      (∀ a ∈ registerOffsets, t.window.read32 a = Config.freeRegister (t.draws - 1) a) ∧
      ∀ a : Nat, (∀ x ∈ registerOffsets, a < x ∨ x + 4 ≤ a) → t.window.byte a = s.window.byte a

/-- A TEARDOWN followed by an INIT brings the Controller back into service with what the new INIT carries
(44_lifecycle.md R180). -/
def Obligations.InitAfterTeardown : Prop :=
  ∀ (var : Variant) (clk base : Word64) (s : State),
    s.canStart = true → s.quiet = true → s.pending = [] → s.cfg.inService = true →
    s.res.map = true → s.res.clk = true → s.res.reg = true →
    s.env.mapOk = true → s.env.clkOk = true → s.env.rst ≠ .error → s.env.regOk = true →
    0 < clk.toInt → baseMeetsDuty var base = true → var.windowBytes ≤ s.env.windowBytes →
    ∃ t u : State, exec .teardown s = .next t ∧ exec (.init var clk base) t = .next u ∧
      u.cfg = ⟨true, clk.extractLsb' 0 63, var, base⟩ ∧ u.res.map = true ∧ u.res.clk = true ∧ u.res.reg = true ∧
      u.trace.head? = some (.response s.port ⟨.ok, 0, 0, false, false⟩)

/-- INIT makes no access to the register window on any path (44_lifecycle.md R176). That the contents stay also on the
paths that move the reset line follows R176 against R221 and is the model's choice (log 7). -/
def Obligations.InitNeverTouchesRegisters : Prop :=
  ∀ (var : Variant) (clk base : Word64) (s t : State),
    s.canStart = true → s.quiet = true → s.pending = [] → exec (.init var clk base) s = .next t →
    t.window = s.window ∧ ∃ new : List Event, t.trace = new ++ s.trace ∧ new.all (fun e => !e.isAccess) = true

/-! ### Errors, priority, modes -/

/-- An operation in the wrong lifecycle state answers `WrongLifecycleState` and does nothing else
(60_exceptions.md R194, R197). -/
def Obligations.WrongLifecycleStateAnswered : Prop :=
  ∀ (i : Instr) (s : State),
    s.canStart = true → (i.isLifecycle = true → s.quiet = true) → s.pending = [] →
    s.cfg.inService ≠ requiredService i →
    exec i s = .next (s.log (.response s.port ⟨.wrongLifecycleState, 0, 0, false, false⟩))

/-- A reserved operation code is answered `IllegalCommand` on a free port, whatever the lifecycle state, and nothing
else changes (30_encoding.md R91; 60_exceptions.md R195). -/
def Obligations.ReservedCodeAnswered : Prop :=
  ∀ (s : State) (p : Nat) (c : Command) (rest : List Input),
    s.pending = .command p c :: rest → portExists p = true → (s.ctx p).busy = false → 5 ≤ c.op.toNat →
    step s = .next { s with
      pending := rest
      trace := .response p ⟨.illegalCommand, 0, 0, false, false⟩ :: s.trace }

/-- An operation that ends with a status other than `OK` has made no register access and has left `cfg` as it was, and
`res` too (60_exceptions.md R200). That the window is as before also after an INIT that deasserted the reset line and
asserted it again follows 44_lifecycle.md R176 against 70_reset_and_hazards.md R221 and is the model's choice (log 7). -/
def Obligations.ErrorsHaveNoRegisterEffect : Prop :=
  ∀ (i : Instr) (s t : State) (r : Response),
    s.canStart = true → (i.isLifecycle = true → s.quiet = true) → s.pending = [] → s.settled = true →
    exec i s = .next t → t.trace.head? = some (.response s.port r) → r.status ≠ .ok →
    t.window = s.window ∧ t.cfg = s.cfg ∧ t.res = s.res ∧ t.mapped = s.mapped ∧ t.ports = s.ports ∧
      r = Response.only r.status ∧
      ∃ new : List Event, t.trace = new ++ s.trace ∧ new.all (fun e => !e.isAccess) = true

/-- Of the operations, INIT alone sets `cfg.in_service` and TEARDOWN alone clears it (60_exceptions.md R204). The block's
reset, which is no operation, is in ServiceChangesByLifecycleOrReset. -/
def Obligations.ServiceEnteredAndLeft : Prop :=
  ∀ (i : Instr) (s t : State),
    s.canStart = true → (i.isLifecycle = true → s.quiet = true) → s.pending = [] → exec i s = .next t →
    t.cfg.inService ≠ s.cfg.inService →
    (t.cfg.inService = true ∧ ∃ (var : Variant) (clk base : Word64), i = .init var clk base) ∨
      (t.cfg.inService = false ∧ i = .teardown)

/-- The lifecycle modes of the machine: from every good state, whatever the step and the inputs that fall in it, service
is entered only where the step runs an INIT, which then has captured its operands, and left only where it runs a TEARDOWN
or takes the block's reset (60_exceptions.md R204; 70_reset_and_hazards.md R220). -/
def Obligations.ServiceChangesByLifecycleOrReset : Prop :=
  ∀ s t : State, s.good = true → step s = .next t → t.cfg.inService ≠ s.cfg.inService →
    (t.cfg.inService = true ∧ ∃ (p : Nat) (var : Variant) (clk base : Word64), s.runsNext p (.init var clk base) ∧
      t.cfg = ⟨true, clk.extractLsb' 0 63, var, base⟩) ∨
    (t.cfg.inService = false ∧ ((∃ p : Nat, s.runsNext p .teardown) ∨ s.pending.head? = some .reset))

/-- `cfg` is constant while the Controller is in service, whatever the step and the inputs that fall in it
(10_state.md R23). -/
def Obligations.ConfigurationConstantInService : Prop :=
  ∀ s t : State, s.good = true → step s = .next t → s.cfg.inService = true → t.cfg.inService = true → t.cfg = s.cfg

/-- An operation that overlaps INIT or TEARDOWN is refused (70_reset_and_hazards.md R231). -/
def Obligations.LifecycleOverlapRefused : Prop :=
  ∀ (i : Instr) (s : State), portExists s.port = true → (s.ctx s.port).busy = false →
    ((i.isLifecycle = true ∧ s.anyBusy = true) ∨ s.lifecycleInFlight = true) →
    exec i s = .refused .lifecycleOverlap

/-- A busy port accepts no command (10_state.md R38); that the offered command is then gone is the model's choice
(log 18). -/
def Obligations.BusyPortAcceptsNothing : Prop :=
  ∀ (i : Instr) (s : State), portExists s.port = true → (s.ctx s.port).busy = true → exec i s = .next s

/-! ### Reset and the device -/

/-- After reset: out of service, no resource held, every port idle (10_state.md R43; 70_reset_and_hazards.md R220). The
fields `mapped` (log 22) and `trace` (log 14) are the model's own, and that they are 0 and empty at reset is the model's
choice: it renders that no window is held and that reset makes no access. -/
def Obligations.ResetState : Prop :=
  State.reset.cfg.inService = false ∧ State.reset.res = Res.none ∧ State.reset.mapped = 0 ∧ (∀ p : Nat, (State.reset.ctx p).busy = false) ∧
    State.reset.trace = []

/-- A reset during a run puts the block out of service with nothing held and every port idle; running operations are
abandoned with no response and no further access, and each register holds a free value. With an operation in flight and
resources held the run is refused (70_reset_and_hazards.md R220 to R222). -/
def Obligations.ResetDuringRun : Prop :=
  ∀ (s : State) (rest : List Input), s.pending = .reset :: rest → s.window.wf = true →
    (s.anyBusy = true → s.res.anyHeld = true → step s = .refused .resetInMidOperation) ∧
    (s.anyBusy = false ∨ s.res.anyHeld = false →
      ∃ t : State, step s = .next t ∧ t.cfg.inService = false ∧ t.res = Res.none ∧ t.mapped = 0 ∧
        (∀ p : Nat, t.ctx p = Ctx.idle) ∧ t.trace = s.trace ∧ t.pending = rest ∧
        ∀ a ∈ registerOffsets, t.window.read32 a = Config.freeRegister s.draws a)

/-- The device changes the bits of its mask in one register and nothing else; all of `CNTR` is in the mask
(10_state.md R36). -/
def Obligations.DeviceChangesOnlyItsBits : Prop :=
  deviceMask .cntr = 0xFFFFFFFF ∧
  ∀ (s : State) (b : Block) (r : Reg) (v : Word32) (rest : List Input),
    s.pending = .device b r v :: rest → s.window.wf = true →
    ∃ w : Memory, step s = .next { s with pending := rest, window := w } ∧ w.wf = true ∧
      (∀ k : Nat, (w.read32 (b.off + (regOff r).toNat)).getLsbD k =
        if (deviceMask r).getLsbD k then v.getLsbD k else (s.window.read32 (b.off + (regOff r).toNat)).getLsbD k) ∧
      ∀ a : Nat, a < b.off + (regOff r).toNat ∨ b.off + (regOff r).toNat + 4 ≤ a → w.byte a = s.window.byte a

/-! ### Invariants, completion, interleaving -/

/-- The invariant holds after reset. -/
def Obligations.GoodAtReset : Prop := State.reset.good = true

/-- Every step keeps the invariant: the window and the contexts in canonical form, every operation in flight fitting the
state, INIT and TEARDOWN alone, and a Controller in service with its window mapped, its clock on, a rate of at least 1,
and a base and a mapped window that meet the platform's duty (10_state.md R22, R38, R41; 60_exceptions.md R191;
70_reset_and_hazards.md R226, R231). -/
def Obligations.StepKeepsGood : Prop :=
  ∀ s t : State, s.good = true → step s = .next t → t.good = true

/-- No step from a good state ends in a fault: no access to an unmapped window, no division by a zero rate, no position
the operation has not got (20_memory.md R51, R63; 41_convert.md R123; 60_exceptions.md R208). -/
def Obligations.StepNeverFaults : Prop :=
  ∀ (s : State) (f : Fault), s.good = true → step s ≠ .fault f

/-- Every operation is answered, whatever the device, the platform and the other ports do between its statements under
the platform's duty (60_exceptions.md R208; 70_reset_and_hazards.md R226, R231, R236). -/
def Obligations.EveryOperationAnswered : Prop :=
  ∀ (i : Instr) (s : State), s.good = true → s.canStart = true → (i.isLifecycle = true → s.quiet = true) →
    i.wellFormed = true → windowMet i s.env = true → s.pending.all (Input.windowMet i) = true →
    s.pending.all (Input.keepsDuty s.port i) = true →
    ∃ (t : State) (r : Response), exec i s = .next t ∧ t.ctx s.port = Ctx.idle ∧
      t.trace.head? = some (.response s.port r)

/-- An accepted command produces exactly one response, on its own port, and none on a port that does not move meanwhile
(30_encoding.md R94). -/
def Obligations.ExactlyOneResponse : Prop :=
  ∀ (i : Instr) (s t : State), s.good = true → s.canStart = true → (i.isLifecycle = true → s.quiet = true) →
    s.pending.all (Input.keepsDuty s.port i) = true → exec i s = .next t →
    t.trace.countP (Event.isResponseOn s.port) = s.trace.countP (Event.isResponseOn s.port) + 1 ∧
      ∀ q : Nat, q ≠ s.port → s.pending.all (fun x => !x.concerns q) = true →
        t.trace.countP (Event.isResponseOn q) = s.trace.countP (Event.isResponseOn q)

/-- A whole operation on a block where nothing else moves is its acceptance followed by its statements one at a time
(20_memory.md R64, R65; 60_exceptions.md R209): it justifies the model's choice to run a whole operation in one step
(log 12). -/
def Obligations.WholeOperationIsItsStatements : Prop :=
  ∀ (i : Instr) (s : State), s.canStart = true → (i.isLifecycle = true → s.quiet = true) → s.pending = [] →
    exec i s =
      consumeAll [.command s.port (encode i), .advance s.port, .advance s.port, .advance s.port, .advance s.port,
        .advance s.port, .advance s.port] s

/-- Statements of two ports whose operations are on channels with distinct physical blocks can run in either order, and
the two orders agree, but for the order of the trace (60_exceptions.md R210). -/
def Obligations.DistinctChannelsCommute : Prop :=
  ∀ (p q : Nat) (ch ch' : Channel) (i j : Instr) (s : State),
    s.window.wf = true → canonical Ctx.idle s.ports = true → p ≠ q → (s.ctx p).busy = true → (s.ctx q).busy = true →
    ctxFits s (s.ctx p) = true → ctxFits s (s.ctx q) = true →
    decode (s.ctx p).cmd = .ok i → decode (s.ctx q).cmd = .ok j →
    (i = .getState ch ∨ ∃ (en : Bool) (pol : Polarity) (x y : Word64), i = .apply ch en pol x y) →
    (j = .getState ch' ∨ ∃ (en : Bool) (pol : Polarity) (x y : Word64), j = .apply ch' en pol x y) →
    blockOffset Config.bankAliased s.cfg.variant ch ≠ blockOffset Config.bankAliased s.cfg.variant ch' →
    ∃ t u : State, consumeAll [.advance p, .advance q] s = .next t ∧ consumeAll [.advance q, .advance p] s = .next u ∧
      t.window = u.window ∧ t.ports = u.ports ∧ t.cfg = u.cfg ∧ t.res = u.res ∧ t.mapped = u.mapped ∧ t.env = u.env ∧
      t.pending = u.pending ∧ t.draws = u.draws ∧ ∀ e : Event, t.trace.count e = u.trace.count e
end

