-- ==== Sys2Proof/Laws/Lists.lean ====
section
/-! SUPPORT. The laws of lists kept by key: what `lookup` gives after `update`, and the canonical form. -/

namespace Sys2Proof.Machine

variable {α : Type} [DecidableEq α] {d v w : α} {k j : Nat} {l : List (Nat × α)}

omit [DecidableEq α] in
@[simp] theorem lookup_nil : lookup d k ([] : List (Nat × α)) = d := rfl

omit [DecidableEq α] in
theorem lookup_of_keysAbove (h : keysAbove k l = true) (hj : j ≤ k) : lookup d j l = d := by
  induction l with
  | nil => rfl
  | cons e l ih =>
    simp only [keysAbove, List.all_cons, Bool.and_eq_true, decide_eq_true_eq] at h
    have hne : j ≠ e.1 := by omega
    simpa [lookup, hne] using ih h.2

@[simp] theorem lookup_update_same (h : canonical d l = true) : lookup d k (update d k v l) = v := by
  induction l with
  | nil => by_cases hv : v = d <;> simp [update, lookup, hv]
  | cons e l ih =>
    simp only [canonical, Bool.and_eq_true] at h
    unfold update
    split
    · rename_i hlt
      by_cases hv : v = d
      · have hne : k ≠ e.1 := by omega
        simpa [hv, lookup, hne] using lookup_of_keysAbove h.1.2 (by omega)
      · simp [hv, lookup]
    · split
      · rename_i heq
        by_cases hv : v = d
        · simpa [hv] using lookup_of_keysAbove h.1.2 (by omega)
        · simp [hv, lookup]
      · rename_i hne
        simp [lookup, hne, ih h.2]

theorem lookup_update_other (h : canonical d l = true) (hk : j ≠ k) :
    lookup d j (update d k v l) = lookup d j l := by
  induction l with
  | nil => by_cases hv : v = d <;> simp [update, lookup, hv, hk]
  | cons e l ih =>
    simp only [canonical, Bool.and_eq_true] at h
    unfold update
    split
    · by_cases hv : v = d <;> simp [hv, lookup, hk]
    · split
      · rename_i heq
        subst heq
        by_cases hv : v = d <;> simp [hv, lookup, hk]
      · by_cases hj : j = e.1
        · simp [lookup, hj]
        · simp [lookup, hj, ih h.2]

omit [DecidableEq α] in
theorem keysAbove_mono (h : keysAbove k l = true) (hj : j ≤ k) : keysAbove j l = true := by
  simp only [keysAbove, List.all_eq_true, decide_eq_true_eq] at *
  intro e he
  have := h e he
  omega

theorem keysAbove_update (h : keysAbove j l = true) (hj : j < k) : keysAbove j (update d k v l) = true := by
  induction l with
  | nil => by_cases hv : v = d <;> simp [update, keysAbove, hv, hj]
  | cons e l ih =>
    simp only [keysAbove, List.all_cons, Bool.and_eq_true, decide_eq_true_eq] at h
    unfold update
    split
    · by_cases hv : v = d <;> simp [keysAbove, hv, h.1, hj] <;> simpa [keysAbove] using h.2
    · split
      · by_cases hv : v = d <;> simp [keysAbove, hv, hj] <;> simpa [keysAbove] using h.2
      · simp only [keysAbove, List.all_cons, Bool.and_eq_true, decide_eq_true_eq]
        exact ⟨h.1, by simpa [keysAbove] using ih (by simpa [keysAbove] using h.2)⟩

/-- An update keeps the canonical form. -/
theorem canonical_update (h : canonical d l = true) : canonical d (update d k v l) = true := by
  induction l with
  | nil => by_cases hv : v = d <;> simp [update, canonical, hv, keysAbove]
  | cons e l ih =>
    have h0 := h
    simp only [canonical, Bool.and_eq_true, decide_eq_true_eq] at h
    unfold update
    split
    · rename_i hlt
      by_cases hv : v = d
      · simpa [hv] using h0
      · simp only [hv, if_false, canonical, Bool.and_eq_true, decide_eq_true_eq]
        refine ⟨⟨hv, ?_⟩, h⟩
        simp only [keysAbove, List.all_cons, Bool.and_eq_true, decide_eq_true_eq]
        exact ⟨hlt, by simpa [keysAbove] using keysAbove_mono h.1.2 (by omega)⟩
    · split
      · rename_i heq
        by_cases hv : v = d
        · simpa [hv] using h.2
        · simp only [hv, if_false, canonical, Bool.and_eq_true, decide_eq_true_eq]
          exact ⟨⟨hv, heq ▸ h.1.2⟩, h.2⟩
      · simp only [canonical, Bool.and_eq_true, decide_eq_true_eq]
        exact ⟨⟨h.1.1, keysAbove_update h.1.2 (by omega)⟩, ih h.2⟩

/-- Two canonical lists that give every key the same value are equal. -/
theorem canonical_ext {l' : List (Nat × α)} (h : canonical d l = true) (h' : canonical d l' = true)
    (he : ∀ j, lookup d j l = lookup d j l') : l = l' := by
  induction l generalizing l' with
  | nil =>
    cases l' with
    | nil => rfl
    | cons e' t' =>
      simp only [canonical, Bool.and_eq_true, decide_eq_true_eq] at h'
      have := he e'.1
      simp [lookup] at this
      exact absurd this.symm h'.1.1
  | cons e t ih =>
    cases l' with
    | nil =>
      simp only [canonical, Bool.and_eq_true, decide_eq_true_eq] at h
      have := he e.1
      simp [lookup] at this
      exact absurd this h.1.1
    | cons e' t' =>
      simp only [canonical, Bool.and_eq_true, decide_eq_true_eq] at h h'
      have hk : e.1 = e'.1 := by
        rcases Nat.lt_trichotomy e.1 e'.1 with hlt | heq | hgt
        · have h1 := he e.1
          have h2 : lookup d e.1 t' = d := lookup_of_keysAbove h'.1.2 (by omega)
          simp [lookup, Nat.ne_of_lt hlt, h2] at h1
          exact absurd h1 h.1.1
        · exact heq
        · have h1 := he e'.1
          have h2 : lookup d e'.1 t = d := lookup_of_keysAbove h.1.2 (by omega)
          simp [lookup, Nat.ne_of_lt hgt, h2] at h1
          exact absurd h1.symm h'.1.1
      have hv : e.2 = e'.2 := by
        have := he e.1
        simpa [lookup, hk] using this
      have ht : t = t' := by
        refine ih h.2 h'.2 (fun j => ?_)
        by_cases hj : j ≤ e.1
        · rw [lookup_of_keysAbove h.1.2 hj, lookup_of_keysAbove h'.1.2 (hk ▸ hj)]
        · have := he j
          have hne : j ≠ e.1 := by omega
          simpa [lookup, hne, hk ▸ hne] using this
      rw [ht, Prod.ext hk hv]

/-- The second of two updates of one key stands. -/
@[simp] theorem update_update (h : canonical d l = true) : update d k w (update d k v l) = update d k w l := by
  have h1 := canonical_update (k := k) (v := v) h
  refine canonical_ext (canonical_update h1) (canonical_update h) (fun j => ?_)
  by_cases hj : j = k
  · subst hj; simp [lookup_update_same h1, lookup_update_same h]
  · rw [lookup_update_other h1 hj, lookup_update_other h hj, lookup_update_other h hj]

/-- Updating a key with the value it has changes nothing. -/
theorem update_lookup_self (h : canonical d l = true) (hv : lookup d k l = v) : update d k v l = l := by
  refine canonical_ext (canonical_update h) h (fun j => ?_)
  by_cases hj : j = k
  · subst hj; rw [lookup_update_same h, hv]
  · exact lookup_update_other h hj

/-- Every entry of an updated list is an old entry under another key or the new one. -/
theorem mem_update (h : canonical d l = true) {e : Nat × α} (he : e ∈ update d k v l) :
    (e ∈ l ∧ e.1 ≠ k) ∨ (e = (k, v) ∧ v ≠ d) := by
  induction l with
  | nil =>
    by_cases hv : v = d
    · simp [update, hv] at he
    · simp [update, hv] at he; exact .inr ⟨he, hv⟩
  | cons a l ih =>
    simp only [canonical, Bool.and_eq_true, decide_eq_true_eq] at h
    have hab : ∀ x ∈ l, a.1 < x.1 := by simpa [keysAbove] using h.1.2
    unfold update at he
    split at he
    · rename_i hlt
      have key : e ∈ a :: l → e ∈ a :: l ∧ e.1 ≠ k := by
        intro hm
        refine ⟨hm, ?_⟩
        rcases List.mem_cons.1 hm with rfl | hm
        · omega
        · have := hab e hm; omega
      by_cases hv : v = d
      · simp only [hv, if_true] at he; exact .inl (key he)
      · simp only [hv, if_false] at he
        rcases List.mem_cons.1 he with rfl | hm
        · exact .inr ⟨rfl, hv⟩
        · exact .inl (key hm)
    · split at he
      · rename_i heq
        have key : e ∈ l → e ∈ a :: l ∧ e.1 ≠ k := by
          intro hm
          have := hab e hm
          exact ⟨List.mem_cons_of_mem _ hm, by omega⟩
        by_cases hv : v = d
        · simp only [hv, if_true] at he; exact .inl (key he)
        · simp only [hv, if_false] at he
          rcases List.mem_cons.1 he with rfl | hm
          · exact .inr ⟨rfl, hv⟩
          · exact .inl (key hm)
      · rename_i hne
        rcases List.mem_cons.1 he with rfl | hm
        · exact .inl ⟨List.mem_cons_self, fun hh => hne hh.symm⟩
        · rcases ih h.2 hm with ⟨hm, hk⟩ | hr
          · exact .inl ⟨List.mem_cons_of_mem _ hm, hk⟩
          · exact .inr hr

/-- An entry under another key stays. -/
theorem mem_update_of_mem {e : Nat × α} (he : e ∈ l) (hk : e.1 ≠ k) : e ∈ update d k v l := by
  induction l with
  | nil => simp at he
  | cons a l ih =>
    unfold update
    split
    · by_cases hv : v = d <;> simp only [hv, if_true, if_false] <;> simp [List.mem_cons.1 he]
    · split
      · rename_i heq
        rcases List.mem_cons.1 he with rfl | hm
        · exact absurd heq.symm hk
        · by_cases hv : v = d <;> simp [hv, hm]
      · rcases List.mem_cons.1 he with rfl | hm
        · simp
        · exact List.mem_cons_of_mem _ (ih hm)

omit [DecidableEq α] in
/-- What `lookup` gives is an entry or the value of an unlisted key. -/
theorem lookup_mem_or (k : Nat) (l : List (Nat × α)) : (k, lookup d k l) ∈ l ∨ lookup d k l = d := by
  induction l with
  | nil => exact .inr rfl
  | cons e l ih =>
    by_cases hk : k = e.1
    · subst hk; simp [lookup]
    · rcases ih with h | h
      · exact .inl (by simp [lookup, hk, h])
      · exact .inr (by simp [lookup, hk, h])

/-- In a canonical list an entry is what `lookup` gives for its key. -/
theorem lookup_of_mem (h : canonical d l = true) {e : Nat × α} (he : e ∈ l) : lookup d e.1 l = e.2 := by
  induction l with
  | nil => simp at he
  | cons a l ih =>
    simp only [canonical, Bool.and_eq_true, decide_eq_true_eq] at h
    have hab : ∀ x ∈ l, a.1 < x.1 := by simpa [keysAbove] using h.1.2
    rcases List.mem_cons.1 he with rfl | hm
    · simp [lookup]
    · have hne : e.1 ≠ a.1 := by have := hab e hm; omega
      simp [lookup, hne, ih h.2 hm]

end Sys2Proof.Machine
end

