-- ==== Sys2Proof/Laws/Memory.lean ====
section
/-! SUPPORT. The laws of the register window: bytes and registers after a write, and the canonical form that every
operation over the window keeps. -/

namespace Sys2Proof.Machine

variable {m : Memory} {off a b : Nat} {v : Word32}

theorem setByte_wf (h : m.wf = true) (x : Byte) : (m.setByte off x).wf = true := canonical_update h

/-- Every byte after one byte was replaced. -/
theorem byte_setByte (h : m.wf = true) (x : Byte) :
    (m.setByte off x).byte a = if a = off then x else m.byte a := by
  by_cases ha : a = off
  · subst ha; simpa [Memory.byte, Memory.setByte] using lookup_update_same h
  · simpa [Memory.byte, Memory.setByte, ha] using lookup_update_other h ha

/-- A register write keeps the canonical form. -/
theorem write32_wf (h : m.wf = true) : (m.write32 off v).wf = true :=
  setByte_wf (setByte_wf (setByte_wf (setByte_wf h _) _) _) _

/-- Every byte after a register write: little-endian inside the four bytes, as before outside. -/
theorem byte_write32 (h : m.wf = true) :
    (m.write32 off v).byte a = if off ≤ a ∧ a < off + 4 then wordByte v (a - off) else m.byte a := by
  have h1 := setByte_wf (off := off) h (wordByte v 0)
  have h2 := setByte_wf (off := off + 1) h1 (wordByte v 1)
  have h3 := setByte_wf (off := off + 2) h2 (wordByte v 2)
  rw [Memory.write32, byte_setByte h3, byte_setByte h2, byte_setByte h1, byte_setByte h]
  by_cases ha : off ≤ a ∧ a < off + 4
  · obtain ⟨k, hk⟩ : ∃ k, a = off + k := ⟨a - off, by omega⟩
    subst hk
    have : k = 0 ∨ k = 1 ∨ k = 2 ∨ k = 3 := by omega
    rcases this with rfl | rfl | rfl | rfl <;> simp
  · have h0 : a ≠ off := by omega
    have h1 : a ≠ off + 1 := by omega
    have h2 : a ≠ off + 2 := by omega
    have h3 : a ≠ off + 3 := by omega
    simp [h0, h1, h2, h3, ha]

/-- A register write leaves every byte outside its four bytes alone. -/
theorem byte_write32_outside (h : m.wf = true) (ha : a < off ∨ off + 4 ≤ a) :
    (m.write32 off v).byte a = m.byte a := by
  rw [byte_write32 h, if_neg (by omega)]

theorem wordByte_append : wordByte v 3 ++ wordByte v 2 ++ wordByte v 1 ++ wordByte v 0 = v := by
  apply BitVec.eq_of_getLsbD_eq
  intro i hi
  simp only [wordByte, BitVec.getLsbD_append, BitVec.getLsbD_extractLsb']
  by_cases h0 : i < 8
  · simp [h0]
  · by_cases h1 : i - 8 < 8
    · have e : 8 + (i - 8) = i := by omega
      simp [h0, h1, e]
    · by_cases h2 : i - 8 - 8 < 8
      · have e : 16 + (i - 8 - 8) = i := by omega
        simp [h0, h1, h2, e]
      · have e : 24 + (i - 8 - 8 - 8) = i := by omega
        have h3 : i - 8 - 8 - 8 < 8 := by omega
        simp [h0, h1, h2, h3, e]

/-- A register read after a write to the same register gives the value written. -/
@[simp] theorem read32_write32_same (h : m.wf = true) : (m.write32 off v).read32 off = v := by
  simp only [Memory.read32, byte_write32 h]
  have e : ∀ k, off + k - off = k := fun k => by omega
  simp [e, wordByte_append]

/-- A register read after a write to a register whose bytes are others gives what it gave before. -/
theorem read32_write32_other (h : m.wf = true) (hab : a + 4 ≤ b ∨ b + 4 ≤ a) :
    (m.write32 b v).read32 a = m.read32 a := by
  simp only [Memory.read32]
  rw [byte_write32_outside h (by omega), byte_write32_outside h (by omega), byte_write32_outside h (by omega),
    byte_write32_outside h (by omega)]

/-- Two canonical windows with the same bytes are equal. -/
theorem memory_ext {m' : Memory} (h : m.wf = true) (h' : m'.wf = true) (he : ∀ a, m.byte a = m'.byte a) : m = m' :=
  canonical_ext h h' he

/-- Writes of two registers that do not overlap commute. -/
theorem write32_comm {w : Word32} (h : m.wf = true) (hab : a + 4 ≤ b ∨ b + 4 ≤ a) :
    (m.write32 a v).write32 b w = (m.write32 b w).write32 a v := by
  refine memory_ext (write32_wf (write32_wf h)) (write32_wf (write32_wf h)) fun x => ?_
  rw [byte_write32 (write32_wf h), byte_write32 h, byte_write32 (write32_wf h), byte_write32 h]
  split
  · split
    · omega
    · rfl
  · rfl

/-- Unspecified contents are a window in canonical form. -/
theorem scramble_wf (h : m.wf = true) (d : Nat) : (m.scramble d).wf = true := by
  unfold Memory.scramble
  generalize registerOffsets = l
  induction l generalizing m with
  | nil => exact h
  | cons x l ih => exact ih (write32_wf h)

/-- A register read after a list of registers took their free values: the free value if the register is one of them,
as before if it is none, for registers four bytes apart or the same. -/
theorem read32_foldl_write32 (h : m.wf = true) (l : List Nat) (f : Nat → Word32)
    (hd : ∀ x ∈ l, x = a ∨ a + 4 ≤ x ∨ x + 4 ≤ a) :
    (l.foldl (fun m off => m.write32 off (f off)) m).read32 a = if a ∈ l then f a else m.read32 a := by
  induction l generalizing m with
  | nil => simp
  | cons x l ih =>
    have hl := ih (m := m.write32 x (f x)) (write32_wf h) (fun y hy => hd y (List.mem_cons_of_mem _ hy))
    rw [List.foldl_cons, hl]
    by_cases ha : a ∈ l
    · simp [ha]
    · rcases hd x List.mem_cons_self with hx | hx
      · subst hx; simp [ha, read32_write32_same h]
      · have hne : a ≠ x := by omega
        simp [ha, hne, read32_write32_other h hx]

theorem registerOffsets_apart {x : Nat} (hx : x ∈ registerOffsets) (ha : a ∈ registerOffsets) :
    x = a ∨ a + 4 ≤ x ∨ x + 4 ≤ a := by
  have key : ∀ y ∈ registerOffsets, y % 4 = 0 := by decide
  have := key x hx
  have := key a ha
  omega

/-- Each register holds its free value after its contents became unspecified. -/
theorem read32_scramble (h : m.wf = true) (d : Nat) (ha : a ∈ registerOffsets) :
    (m.scramble d).read32 a = Config.freeRegister d a := by
  have := read32_foldl_write32 h registerOffsets (Config.freeRegister d) (fun x hx => registerOffsets_apart hx ha)
  unfold Memory.scramble
  exact this.trans (if_pos ha)

/-- The device's change of a register keeps the bits outside its mask and takes those inside from the offered value. -/
theorem deviceChange_getLsbD (mask old : Word32) (i : Nat) :
    (deviceChange mask old v).getLsbD i = if mask.getLsbD i then v.getLsbD i else old.getLsbD i := by
  by_cases hi : i < 32
  · cases hm : mask[i] <;> simp [deviceChange, hm, hi]
  · simp [deviceChange, BitVec.getLsbD_of_ge, Nat.le_of_not_lt hi]

/-- Bytes outside every register keep their value when the registers' contents become unspecified. -/
theorem byte_scramble_outside (h : m.wf = true) (d : Nat) (ha : ∀ x ∈ registerOffsets, a < x ∨ x + 4 ≤ a) :
    (m.scramble d).byte a = m.byte a := by
  unfold Memory.scramble
  revert ha
  generalize registerOffsets = l
  intro ha
  induction l generalizing m with
  | nil => rfl
  | cons x l ih =>
    rw [List.foldl_cons, ih (write32_wf h) (fun y hy => ha y (List.mem_cons_of_mem _ hy)),
      byte_write32_outside h (ha x List.mem_cons_self)]

end Sys2Proof.Machine
end

