-- ==== Sys2Proof/Laws/State.lean ====
section
/-! SUPPORT. One lemma per field and update of State, so that no later proof unfolds a record update. -/

namespace Sys2Proof.Machine

section logFields
variable (s : State) (e : Event)

@[simp] theorem log_cfg : (s.log e).cfg = s.cfg := rfl
@[simp] theorem log_res : (s.log e).res = s.res := rfl
@[simp] theorem log_mapped : (s.log e).mapped = s.mapped := rfl
@[simp] theorem log_window : (s.log e).window = s.window := rfl
@[simp] theorem log_ports : (s.log e).ports = s.ports := rfl
@[simp] theorem log_env : (s.log e).env = s.env := rfl
@[simp] theorem log_pending : (s.log e).pending = s.pending := rfl
@[simp] theorem log_port : (s.log e).port = s.port := rfl
@[simp] theorem log_draws : (s.log e).draws = s.draws := rfl
@[simp] theorem log_trace : (s.log e).trace = e :: s.trace := rfl
end logFields

section setCtxFields
variable (s : State) (p : Nat) (c : Ctx)

@[simp] theorem setCtx_cfg : (s.setCtx p c).cfg = s.cfg := rfl
@[simp] theorem setCtx_res : (s.setCtx p c).res = s.res := rfl
@[simp] theorem setCtx_mapped : (s.setCtx p c).mapped = s.mapped := rfl
@[simp] theorem setCtx_window : (s.setCtx p c).window = s.window := rfl
@[simp] theorem setCtx_ports : (s.setCtx p c).ports = update Ctx.idle p c s.ports := rfl
@[simp] theorem setCtx_env : (s.setCtx p c).env = s.env := rfl
@[simp] theorem setCtx_pending : (s.setCtx p c).pending = s.pending := rfl
@[simp] theorem setCtx_port : (s.setCtx p c).port = s.port := rfl
@[simp] theorem setCtx_draws : (s.setCtx p c).draws = s.draws := rfl
@[simp] theorem setCtx_trace : (s.setCtx p c).trace = s.trace := rfl
end setCtxFields

section respondFields
variable (s : State) (p : Nat) (r : Response)

@[simp] theorem respond_cfg : (s.respond p r).cfg = s.cfg := rfl
@[simp] theorem respond_res : (s.respond p r).res = s.res := rfl
@[simp] theorem respond_mapped : (s.respond p r).mapped = s.mapped := rfl
@[simp] theorem respond_window : (s.respond p r).window = s.window := rfl
@[simp] theorem respond_ports : (s.respond p r).ports = update Ctx.idle p Ctx.idle s.ports := rfl
@[simp] theorem respond_env : (s.respond p r).env = s.env := rfl
@[simp] theorem respond_pending : (s.respond p r).pending = s.pending := rfl
@[simp] theorem respond_port : (s.respond p r).port = s.port := rfl
@[simp] theorem respond_draws : (s.respond p r).draws = s.draws := rfl
@[simp] theorem respond_trace : (s.respond p r).trace = .response p r :: s.trace := rfl
end respondFields

section scrambleRegistersFields
variable (s : State)

@[simp] theorem scrambleRegisters_cfg : (s.scrambleRegisters).cfg = s.cfg := rfl
@[simp] theorem scrambleRegisters_res : (s.scrambleRegisters).res = s.res := rfl
@[simp] theorem scrambleRegisters_mapped : (s.scrambleRegisters).mapped = s.mapped := rfl
@[simp] theorem scrambleRegisters_window : (s.scrambleRegisters).window = s.window.scramble s.draws := rfl
@[simp] theorem scrambleRegisters_ports : (s.scrambleRegisters).ports = s.ports := rfl
@[simp] theorem scrambleRegisters_env : (s.scrambleRegisters).env = s.env := rfl
@[simp] theorem scrambleRegisters_pending : (s.scrambleRegisters).pending = s.pending := rfl
@[simp] theorem scrambleRegisters_port : (s.scrambleRegisters).port = s.port := rfl
@[simp] theorem scrambleRegisters_draws : (s.scrambleRegisters).draws = s.draws + 1 := rfl
@[simp] theorem scrambleRegisters_trace : (s.scrambleRegisters).trace = s.trace := rfl
end scrambleRegistersFields

section mapWindowFields
variable (s : State)

@[simp] theorem mapWindow_cfg : (s.mapWindow).cfg = s.cfg := rfl
@[simp] theorem mapWindow_res : (s.mapWindow).res = { s.res with map := true } := rfl
@[simp] theorem mapWindow_mapped : (s.mapWindow).mapped = s.env.windowBytes := rfl
@[simp] theorem mapWindow_window : (s.mapWindow).window = s.window := rfl
@[simp] theorem mapWindow_ports : (s.mapWindow).ports = s.ports := rfl
@[simp] theorem mapWindow_env : (s.mapWindow).env = s.env := rfl
@[simp] theorem mapWindow_pending : (s.mapWindow).pending = s.pending := rfl
@[simp] theorem mapWindow_port : (s.mapWindow).port = s.port := rfl
@[simp] theorem mapWindow_draws : (s.mapWindow).draws = s.draws := rfl
@[simp] theorem mapWindow_trace : (s.mapWindow).trace = .action .mapWindow :: s.trace := rfl
end mapWindowFields

section unmapWindowFields
variable (s : State)

@[simp] theorem unmapWindow_cfg : (s.unmapWindow).cfg = s.cfg := rfl
@[simp] theorem unmapWindow_res : (s.unmapWindow).res = { s.res with map := false } := rfl
@[simp] theorem unmapWindow_mapped : (s.unmapWindow).mapped = 0 := rfl
@[simp] theorem unmapWindow_window : (s.unmapWindow).window = s.window := rfl
@[simp] theorem unmapWindow_ports : (s.unmapWindow).ports = s.ports := rfl
@[simp] theorem unmapWindow_env : (s.unmapWindow).env = s.env := rfl
@[simp] theorem unmapWindow_pending : (s.unmapWindow).pending = s.pending := rfl
@[simp] theorem unmapWindow_port : (s.unmapWindow).port = s.port := rfl
@[simp] theorem unmapWindow_draws : (s.unmapWindow).draws = s.draws := rfl
@[simp] theorem unmapWindow_trace : (s.unmapWindow).trace = .action .unmapWindow :: s.trace := rfl
end unmapWindowFields

section clockOnFields
variable (s : State)

@[simp] theorem clockOn_cfg : (s.clockOn).cfg = s.cfg := rfl
@[simp] theorem clockOn_res : (s.clockOn).res = { s.res with clk := true } := rfl
@[simp] theorem clockOn_mapped : (s.clockOn).mapped = s.mapped := rfl
@[simp] theorem clockOn_window : (s.clockOn).window = s.window := rfl
@[simp] theorem clockOn_ports : (s.clockOn).ports = s.ports := rfl
@[simp] theorem clockOn_env : (s.clockOn).env = s.env := rfl
@[simp] theorem clockOn_pending : (s.clockOn).pending = s.pending := rfl
@[simp] theorem clockOn_port : (s.clockOn).port = s.port := rfl
@[simp] theorem clockOn_draws : (s.clockOn).draws = s.draws := rfl
@[simp] theorem clockOn_trace : (s.clockOn).trace = .action .clockOn :: s.trace := rfl
end clockOnFields

section clockOffFields
variable (s : State)

@[simp] theorem clockOff_cfg : (s.clockOff).cfg = s.cfg := rfl
@[simp] theorem clockOff_res : (s.clockOff).res = { s.res with clk := false } := rfl
@[simp] theorem clockOff_mapped : (s.clockOff).mapped = s.mapped := rfl
@[simp] theorem clockOff_window : (s.clockOff).window = s.window := rfl
@[simp] theorem clockOff_ports : (s.clockOff).ports = s.ports := rfl
@[simp] theorem clockOff_env : (s.clockOff).env = s.env := rfl
@[simp] theorem clockOff_pending : (s.clockOff).pending = s.pending := rfl
@[simp] theorem clockOff_port : (s.clockOff).port = s.port := rfl
@[simp] theorem clockOff_draws : (s.clockOff).draws = s.draws := rfl
@[simp] theorem clockOff_trace : (s.clockOff).trace = .action .clockOff :: s.trace := rfl
end clockOffFields

section deassertResetFields
variable (s : State)

@[simp] theorem deassertReset_cfg : (s.deassertReset).cfg = s.cfg := rfl
@[simp] theorem deassertReset_res : (s.deassertReset).res = { s.res with rst := true } := rfl
@[simp] theorem deassertReset_mapped : (s.deassertReset).mapped = s.mapped := rfl
@[simp] theorem deassertReset_window : (s.deassertReset).window = s.window := rfl
@[simp] theorem deassertReset_ports : (s.deassertReset).ports = s.ports := rfl
@[simp] theorem deassertReset_env : (s.deassertReset).env = s.env := rfl
@[simp] theorem deassertReset_pending : (s.deassertReset).pending = s.pending := rfl
@[simp] theorem deassertReset_port : (s.deassertReset).port = s.port := rfl
@[simp] theorem deassertReset_draws : (s.deassertReset).draws = s.draws := rfl
@[simp] theorem deassertReset_trace : (s.deassertReset).trace = .action .deassertReset :: s.trace := rfl
end deassertResetFields

section registerFields
variable (s : State)

@[simp] theorem register_cfg : (s.register).cfg = s.cfg := rfl
@[simp] theorem register_res : (s.register).res = { s.res with reg := true } := rfl
@[simp] theorem register_mapped : (s.register).mapped = s.mapped := rfl
@[simp] theorem register_window : (s.register).window = s.window := rfl
@[simp] theorem register_ports : (s.register).ports = s.ports := rfl
@[simp] theorem register_env : (s.register).env = s.env := rfl
@[simp] theorem register_pending : (s.register).pending = s.pending := rfl
@[simp] theorem register_port : (s.register).port = s.port := rfl
@[simp] theorem register_draws : (s.register).draws = s.draws := rfl
@[simp] theorem register_trace : (s.register).trace = .action .register :: s.trace := rfl
end registerFields

section unregisterFields
variable (s : State)

@[simp] theorem unregister_cfg : (s.unregister).cfg = s.cfg := rfl
@[simp] theorem unregister_res : (s.unregister).res = { s.res with reg := false } := rfl
@[simp] theorem unregister_mapped : (s.unregister).mapped = s.mapped := rfl
@[simp] theorem unregister_window : (s.unregister).window = s.window := rfl
@[simp] theorem unregister_ports : (s.unregister).ports = s.ports := rfl
@[simp] theorem unregister_env : (s.unregister).env = s.env := rfl
@[simp] theorem unregister_pending : (s.unregister).pending = s.pending := rfl
@[simp] theorem unregister_port : (s.unregister).port = s.port := rfl
@[simp] theorem unregister_draws : (s.unregister).draws = s.draws := rfl
@[simp] theorem unregister_trace : (s.unregister).trace = .action .unregister :: s.trace := rfl
end unregisterFields

section leaveServiceFields
variable (s : State)

@[simp] theorem leaveService_cfg : (s.leaveService).cfg = { s.cfg with inService := false } := rfl
@[simp] theorem leaveService_res : (s.leaveService).res = s.res := rfl
@[simp] theorem leaveService_mapped : (s.leaveService).mapped = s.mapped := rfl
@[simp] theorem leaveService_window : (s.leaveService).window = s.window := rfl
@[simp] theorem leaveService_ports : (s.leaveService).ports = s.ports := rfl
@[simp] theorem leaveService_env : (s.leaveService).env = s.env := rfl
@[simp] theorem leaveService_pending : (s.leaveService).pending = s.pending := rfl
@[simp] theorem leaveService_port : (s.leaveService).port = s.port := rfl
@[simp] theorem leaveService_draws : (s.leaveService).draws = s.draws := rfl
@[simp] theorem leaveService_trace : (s.leaveService).trace = s.trace := rfl
end leaveServiceFields

section captureFields
variable (s : State) (v : Variant) (r b : Word64)

@[simp] theorem capture_cfg : (s.capture v r b).cfg = ⟨true, storedRate r, v, b⟩ := rfl
@[simp] theorem capture_res : (s.capture v r b).res = s.res := rfl
@[simp] theorem capture_mapped : (s.capture v r b).mapped = s.mapped := rfl
@[simp] theorem capture_window : (s.capture v r b).window = s.window := rfl
@[simp] theorem capture_ports : (s.capture v r b).ports = s.ports := rfl
@[simp] theorem capture_env : (s.capture v r b).env = s.env := rfl
@[simp] theorem capture_pending : (s.capture v r b).pending = s.pending := rfl
@[simp] theorem capture_port : (s.capture v r b).port = s.port := rfl
@[simp] theorem capture_draws : (s.capture v r b).draws = s.draws := rfl
@[simp] theorem capture_trace : (s.capture v r b).trace = s.trace := rfl
end captureFields

section afterReadFields
variable (s : State) (p : Nat) (ea : Word64)

@[simp] theorem afterRead_cfg : (s.afterRead p ea).cfg = s.cfg := rfl
@[simp] theorem afterRead_res : (s.afterRead p ea).res = s.res := rfl
@[simp] theorem afterRead_mapped : (s.afterRead p ea).mapped = s.mapped := rfl
@[simp] theorem afterRead_window : (s.afterRead p ea).window = s.window := rfl
@[simp] theorem afterRead_ports : (s.afterRead p ea).ports = s.ports := rfl
@[simp] theorem afterRead_env : (s.afterRead p ea).env = s.env := rfl
@[simp] theorem afterRead_pending : (s.afterRead p ea).pending = s.pending := rfl
@[simp] theorem afterRead_port : (s.afterRead p ea).port = s.port := rfl
@[simp] theorem afterRead_draws : (s.afterRead p ea).draws = s.draws := rfl
@[simp] theorem afterRead_trace : (s.afterRead p ea).trace = .read p ea (s.readAt ea) :: s.trace := rfl
end afterReadFields

section afterWriteFields
variable (s : State) (p : Nat) (ea : Word64) (v : Word32)

@[simp] theorem afterWrite_cfg : (s.afterWrite p ea v).cfg = s.cfg := rfl
@[simp] theorem afterWrite_res : (s.afterWrite p ea v).res = s.res := rfl
@[simp] theorem afterWrite_mapped : (s.afterWrite p ea v).mapped = s.mapped := rfl
@[simp] theorem afterWrite_window : (s.afterWrite p ea v).window = s.window.write32 (s.windowKey ea) v := rfl
@[simp] theorem afterWrite_ports : (s.afterWrite p ea v).ports = s.ports := rfl
@[simp] theorem afterWrite_env : (s.afterWrite p ea v).env = s.env := rfl
@[simp] theorem afterWrite_pending : (s.afterWrite p ea v).pending = s.pending := rfl
@[simp] theorem afterWrite_port : (s.afterWrite p ea v).port = s.port := rfl
@[simp] theorem afterWrite_draws : (s.afterWrite p ea v).draws = s.draws := rfl
@[simp] theorem afterWrite_trace : (s.afterWrite p ea v).trace = .write p ea v :: s.trace := rfl
end afterWriteFields

section assertResetFields
variable (s : State)

@[simp] theorem assertReset_cfg : s.assertReset.cfg = s.cfg := by
  unfold State.assertReset
  split <;> rfl
@[simp] theorem assertReset_res : s.assertReset.res = { s.res with rst := false } := by
  obtain ⟨cfg, ⟨m, c, r, g⟩, w, ps, e, q, p, d, t⟩ := s
  cases r <;> rfl
@[simp] theorem assertReset_mapped : s.assertReset.mapped = s.mapped := by
  unfold State.assertReset
  split <;> rfl
@[simp] theorem assertReset_window : s.assertReset.window = s.window := by
  unfold State.assertReset
  split <;> rfl
@[simp] theorem assertReset_ports : s.assertReset.ports = s.ports := by
  unfold State.assertReset
  split <;> rfl
@[simp] theorem assertReset_env : s.assertReset.env = s.env := by
  unfold State.assertReset
  split <;> rfl
@[simp] theorem assertReset_pending : s.assertReset.pending = s.pending := by
  unfold State.assertReset
  split <;> rfl
@[simp] theorem assertReset_port : s.assertReset.port = s.port := by
  unfold State.assertReset
  split <;> rfl
@[simp] theorem assertReset_draws : s.assertReset.draws = s.draws := by
  unfold State.assertReset
  split <;> rfl
@[simp] theorem assertReset_trace :
    s.assertReset.trace = if s.res.rst then .action .assertReset :: s.trace else s.trace := by
  unfold State.assertReset
  split <;> rfl
end assertResetFields

section deviceMoveFields
variable (b : Block) (r : Reg) (v : Word32) (s : State)

@[simp] theorem deviceMove_cfg : (deviceMove b r v s).cfg = s.cfg := rfl
@[simp] theorem deviceMove_res : (deviceMove b r v s).res = s.res := rfl
@[simp] theorem deviceMove_mapped : (deviceMove b r v s).mapped = s.mapped := rfl
@[simp] theorem deviceMove_ports : (deviceMove b r v s).ports = s.ports := rfl
@[simp] theorem deviceMove_env : (deviceMove b r v s).env = s.env := rfl
@[simp] theorem deviceMove_pending : (deviceMove b r v s).pending = s.pending := rfl
@[simp] theorem deviceMove_port : (deviceMove b r v s).port = s.port := rfl
@[simp] theorem deviceMove_draws : (deviceMove b r v s).draws = s.draws := rfl
@[simp] theorem deviceMove_trace : (deviceMove b r v s).trace = s.trace := rfl
@[simp] theorem deviceMove_window :
    (deviceMove b r v s).window =
      s.window.write32 (b.off + (regOff r).toNat)
        (deviceChange (deviceMask r) (s.window.read32 (b.off + (regOff r).toNat)) v) := rfl
end deviceMoveFields

section resetBlockFields
variable (s : State)

@[simp] theorem resetBlock_cfg :
    s.resetBlock.cfg = ⟨false, Config.freeClkRate s.draws, Config.freeVariant s.draws, Config.freeBase s.draws⟩ := rfl
@[simp] theorem resetBlock_res : s.resetBlock.res = ⟨false, false, false, false⟩ := rfl
@[simp] theorem resetBlock_window : s.resetBlock.window = s.window.scramble s.draws := rfl
@[simp] theorem resetBlock_ports : s.resetBlock.ports = [] := rfl
@[simp] theorem resetBlock_env : s.resetBlock.env = s.env := rfl
@[simp] theorem resetBlock_pending : s.resetBlock.pending = s.pending := rfl
@[simp] theorem resetBlock_port : s.resetBlock.port = s.port := rfl
@[simp] theorem resetBlock_draws : s.resetBlock.draws = s.draws + 1 := rfl
@[simp] theorem resetBlock_trace : s.resetBlock.trace = s.trace := rfl
end resetBlockFields

section withFetchWordFields
variable (s : State) (n w : Nat)

@[simp] theorem withFetchWord_cfg : (s.withFetchWord n w).cfg = s.cfg := rfl
@[simp] theorem withFetchWord_res : (s.withFetchWord n w).res = s.res := rfl
@[simp] theorem withFetchWord_mapped : (s.withFetchWord n w).mapped = s.mapped := rfl
@[simp] theorem withFetchWord_window : (s.withFetchWord n w).window = s.window := rfl
@[simp] theorem withFetchWord_ports : (s.withFetchWord n w).ports = update Ctx.idle 0 Ctx.idle s.ports := rfl
@[simp] theorem withFetchWord_env : (s.withFetchWord n w).env = s.env := rfl
@[simp] theorem withFetchWord_pending : (s.withFetchWord n w).pending = .command 0 (Command.ofTableWord n w) :: s.pending := rfl
@[simp] theorem withFetchWord_port : (s.withFetchWord n w).port = s.port := rfl
@[simp] theorem withFetchWord_draws : (s.withFetchWord n w).draws = s.draws := rfl
@[simp] theorem withFetchWord_trace : (s.withFetchWord n w).trace = s.trace := rfl
end withFetchWordFields

end Sys2Proof.Machine
end

