-- ==== Sys2Proof/Laws/Run.lean ====
section
/-! SUPPORT. What running an operation can do, said once: the contexts of the ports after an update, the statements as
functions that never look at the ports, acceptance, and the whole operation on a block where nothing else moves. -/

namespace Sys2Proof.Machine

/-! ### Contexts -/

theorem ctx_setCtx_same {s : State} {p : Nat} {c : Ctx} (h : canonical Ctx.idle s.ports = true) :
    (s.setCtx p c).ctx p = c := lookup_update_same h

theorem ctx_setCtx_other {s : State} {p q : Nat} {c : Ctx} (h : canonical Ctx.idle s.ports = true) (hq : q ≠ p) :
    (s.setCtx p c).ctx q = s.ctx q := lookup_update_other h hq

theorem canonical_setCtx {s : State} (h : canonical Ctx.idle s.ports = true) (p : Nat) (c : Ctx) :
    canonical Ctx.idle (s.setCtx p c).ports = true := canonical_update h

theorem setCtx_setCtx {s : State} (h : canonical Ctx.idle s.ports = true) (p : Nat) (c c' : Ctx) :
    (s.setCtx p c).setCtx p c' = s.setCtx p c' := by
  simp only [State.setCtx, update_update h]

theorem setCtx_ctx_self {s : State} {p : Nat} {c : Ctx} (h : canonical Ctx.idle s.ports = true) (hc : s.ctx p = c) :
    s.setCtx p c = s := by
  simp only [State.setCtx, update_lookup_self h hc]

/-! ### Statements do not look at the ports -/

/-- The outcome of a statement with its state changed by `f`. -/
def Progress.mapState (f : State → State) : Progress → Progress
  | .goes c s => .goes c (f s)
  | .answers r s => .answers r (f s)
  | .faults e => .faults e
  | .refuses r => .refuses r

@[simp] theorem mapState_goes (f : State → State) (c : Ctx) (s : State) :
    (Progress.goes c s).mapState f = .goes c (f s) := rfl
@[simp] theorem mapState_answers (f : State → State) (r : Response) (s : State) :
    (Progress.answers r s).mapState f = .answers r (f s) := rfl
@[simp] theorem mapState_faults (f : State → State) (e : Fault) : (Progress.faults e).mapState f = .faults e := rfl
@[simp] theorem mapState_refuses (f : State → State) (e : Refusal) : (Progress.refuses e).mapState f = .refuses e := rfl

theorem mapState_ite (f : State → State) (b : Prop) [Decidable b] (x y : Progress) :
    (if b then x else y).mapState f = if b then x.mapState f else y.mapState f := by split <;> rfl

theorem mapState_underDuty (f : State → State) (var : Variant) (base : Word64) (s : State) (k : Progress) :
    (underDuty var base s k).mapState f = underDuty var base s (k.mapState f) := by
  rw [underDuty, underDuty, mapState_ite, mapState_ite]; rfl

theorem assertReset_setCtx (s : State) (q : Nat) (d : Ctx) :
    (s.setCtx q d).assertReset = s.assertReset.setCtx q d := by
  show (if s.res.rst then _ else _) = _
  unfold State.assertReset
  split <;> rfl

theorem initStatement_setCtx (var : Variant) (clk base : Word64) (p q : Nat) (c d : Ctx) (s : State) :
    initStatement var clk base p c (s.setCtx q d) = (initStatement var clk base p c s).mapState (·.setCtx q d) := by
  unfold initStatement
  split
  · show (if s.cfg.inService = false then _ else _) = _
    rw [gate, mapState_ite]; rfl
  · show (if s.env.mapOk then _ else _) = _
    rw [mapState_ite]; rfl
  · show (if s.env.clkOk then _ else _) = _
    rw [mapState_ite]; rfl
  · rw [mapState_ite]; rfl
  · rw [setCtx_env]
    cases s.env.rst <;> rfl
  · show (if s.env.regOk then _ else _) = _
    rw [assertReset_setCtx, mapState_ite, mapState_underDuty]; rfl
  · rfl

theorem teardownStatement_setCtx (p q : Nat) (c d : Ctx) (s : State) :
    teardownStatement p c (s.setCtx q d) = (teardownStatement p c s).mapState (·.setCtx q d) := by
  unfold teardownStatement
  split
  · show (if s.cfg.inService = true then _ else _) = _
    rw [gate, mapState_ite]; rfl
  · show (if s.res.rst then _ else _) = _
    rw [assertReset_setCtx, mapState_ite]; rfl
  · rfl
  · rfl
  · rfl

theorem resolveStatement_setCtx (ch : Channel) (p q : Nat) (c d : Ctx) (s : State) :
    resolveStatement ch p c (s.setCtx q d) = (resolveStatement ch p c s).mapState (·.setCtx q d) := by
  unfold resolveStatement
  split
  · show (if s.cfg.inService = true then _ else _) = _
    rw [gate, mapState_ite]; rfl
  · rfl

theorem access_setCtx (s : State) (q : Nat) (d : Ctx) (k k' : Progress) (h : k' = k.mapState (·.setCtx q d)) :
    access (s.setCtx q d) k' = (access s k).mapState (·.setCtx q d) := by
  subst h
  show (if s.res.map then underDuty s.cfg.variant s.cfg.base s _ else _) = _
  rw [access, mapState_ite, mapState_underDuty]; rfl

theorem getStateStatement_setCtx (ch : Channel) (p q : Nat) (c d : Ctx) (s : State) :
    getStateStatement ch p c (s.setCtx q d) = (getStateStatement ch p c s).mapState (·.setCtx q d) := by
  unfold getStateStatement
  split
  · show (if s.cfg.inService = true then _ else _) = _
    rw [gate, mapState_ite]; rfl
  · exact access_setCtx _ _ _ _ _ rfl
  · exact access_setCtx _ _ _ _ _ rfl
  · refine access_setCtx _ _ _ _ _ ?_
    show (if s.cfg.clkRate = 0 then _ else _) = _
    rw [mapState_ite]; rfl
  · rfl

theorem applyStatement_setCtx (ch : Channel) (en : Bool) (pol : Polarity) (period duty : Word64) (p q : Nat)
    (c d : Ctx) (s : State) :
    applyStatement ch en pol period duty p c (s.setCtx q d) =
      (applyStatement ch en pol period duty p c s).mapState (·.setCtx q d) := by
  unfold applyStatement
  split
  · show (if s.cfg.inService = true then _ else _) = _
    rw [gate, mapState_ite]; cases pol <;> rfl
  · exact access_setCtx _ _ _ _ _ rfl
  · exact access_setCtx _ _ _ _ _ rfl
  · exact access_setCtx _ _ _ _ _ rfl
  · exact access_setCtx _ _ _ _ _ rfl
  · exact access_setCtx _ _ _ _ _ rfl
  · rfl

/-- The statements of an operation read and write nothing of the ports' contexts but their own argument. -/
theorem statementOf_setCtx (i : Instr) (p q : Nat) (c d : Ctx) (s : State) :
    statementOf i p c (s.setCtx q d) = (statementOf i p c s).mapState (·.setCtx q d) := by
  cases i with
  | init var clk base => exact initStatement_setCtx var clk base p q c d s
  | teardown => exact teardownStatement_setCtx p q c d s
  | resolve ch => exact resolveStatement_setCtx ch p q c d s
  | getState ch => exact getStateStatement_setCtx ch p q c d s
  | apply ch en pol period duty => exact applyStatement_setCtx ch en pol period duty p q c d s

/-! ### What a statement leaves alone -/

/-- The outcome keeps a relation between the states before and after, and a statement that goes on keeps the port busy
with the same command and moves `seq` on by one. -/
def Progress.Keeps (R : State → Prop) (c : Ctx) : Progress → Prop
  | .goes c' s' => R s' ∧ c'.busy = c.busy ∧ c'.cmd = c.cmd ∧ c'.seq = c.seq + 1
  | .answers _ s' => R s'
  | .faults _ => True
  | .refuses _ => True

theorem keeps_ite {R : State → Prop} {c : Ctx} {b : Prop} [Decidable b] {x y : Progress} (hx : x.Keeps R c)
    (hy : y.Keeps R c) : (if b then x else y).Keeps R c := by split <;> assumption

theorem keeps_underDuty {R : State → Prop} {c : Ctx} {var : Variant} {base : Word64} {s : State} {k : Progress}
    (hk : k.Keeps R c) : (underDuty var base s k).Keeps R c := keeps_ite (keeps_ite hk trivial) trivial

theorem keeps_access {R : State → Prop} {c : Ctx} {s : State} {k : Progress} (hk : k.Keeps R c) :
    (access s k).Keeps R c := keeps_ite (keeps_underDuty hk) trivial

/-- Every statement leaves the contexts of the ports, the platform's answers, the pending inputs and the port to the
sequencer, and keeps the window in canonical form. -/
theorem statementOf_keeps (i : Instr) (p : Nat) (c : Ctx) (s : State) :
    (statementOf i p c s).Keeps
      (fun t => t.ports = s.ports ∧ t.env = s.env ∧ t.pending = s.pending ∧ t.port = s.port ∧
        (s.window.wf = true → t.window.wf = true)) c := by
  cases i with
  | init var clk base =>
    show (initStatement var clk base p c s).Keeps _ c
    unfold initStatement
    split
    · exact keeps_ite ⟨⟨rfl, rfl, rfl, rfl, id⟩, rfl, rfl, rfl⟩ ⟨rfl, rfl, rfl, rfl, id⟩
    · exact keeps_ite ⟨⟨rfl, rfl, rfl, rfl, id⟩, rfl, rfl, rfl⟩ ⟨rfl, rfl, rfl, rfl, id⟩
    · exact keeps_ite ⟨⟨rfl, rfl, rfl, rfl, id⟩, rfl, rfl, rfl⟩ ⟨rfl, rfl, rfl, rfl, id⟩
    · exact keeps_ite ⟨rfl, rfl, rfl, rfl, id⟩ ⟨⟨rfl, rfl, rfl, rfl, id⟩, rfl, rfl, rfl⟩
    · cases s.env.rst with
      | absent => exact ⟨⟨rfl, rfl, rfl, rfl, id⟩, rfl, rfl, rfl⟩
      | present => exact ⟨⟨rfl, rfl, rfl, rfl, id⟩, rfl, rfl, rfl⟩
      | error => exact ⟨rfl, rfl, rfl, rfl, id⟩
    · refine keeps_ite (keeps_underDuty ⟨rfl, rfl, rfl, rfl, id⟩) ?_
      simp [raise, Progress.Keeps]
    · trivial
  | teardown =>
    show (teardownStatement p c s).Keeps _ c
    unfold teardownStatement
    split
    · exact keeps_ite ⟨⟨rfl, rfl, rfl, rfl, id⟩, rfl, rfl, rfl⟩ ⟨rfl, rfl, rfl, rfl, id⟩
    · refine keeps_ite ?_ ⟨⟨rfl, rfl, rfl, rfl, id⟩, rfl, rfl, rfl⟩
      simp only [Progress.Keeps, scrambleRegisters_ports, assertReset_ports, scrambleRegisters_env, assertReset_env,
        scrambleRegisters_pending, assertReset_pending, scrambleRegisters_port, assertReset_port,
        scrambleRegisters_window, assertReset_window, Ctx.next, true_and, and_true]
      exact fun h => scramble_wf h _
    · exact ⟨⟨rfl, rfl, rfl, rfl, fun h => scramble_wf h _⟩, rfl, rfl, rfl⟩
    · exact ⟨rfl, rfl, rfl, rfl, id⟩
    · trivial
  | resolve ch =>
    show (resolveStatement ch p c s).Keeps _ c
    unfold resolveStatement
    split
    · exact keeps_ite ⟨rfl, rfl, rfl, rfl, id⟩ ⟨rfl, rfl, rfl, rfl, id⟩
    · trivial
  | getState ch =>
    show (getStateStatement ch p c s).Keeps _ c
    unfold getStateStatement
    split
    · exact keeps_ite ⟨⟨rfl, rfl, rfl, rfl, id⟩, rfl, rfl, rfl⟩ ⟨rfl, rfl, rfl, rfl, id⟩
    · exact keeps_access ⟨⟨rfl, rfl, rfl, rfl, id⟩, rfl, rfl, rfl⟩
    · exact keeps_access ⟨⟨rfl, rfl, rfl, rfl, id⟩, rfl, rfl, rfl⟩
    · exact keeps_access (keeps_ite trivial ⟨rfl, rfl, rfl, rfl, id⟩)
    · trivial
  | apply ch en pol period duty =>
    show (applyStatement ch en pol period duty p c s).Keeps _ c
    unfold applyStatement
    split
    · refine keeps_ite ?_ ⟨rfl, rfl, rfl, rfl, id⟩
      cases pol with
      | normal => exact ⟨rfl, rfl, rfl, rfl, id⟩
      | inversed => exact ⟨⟨rfl, rfl, rfl, rfl, id⟩, rfl, rfl, rfl⟩
    · exact keeps_access ⟨⟨rfl, rfl, rfl, rfl, fun h => write32_wf h⟩, rfl, rfl, rfl⟩
    · exact keeps_access ⟨⟨rfl, rfl, rfl, rfl, fun h => write32_wf h⟩, rfl, rfl, rfl⟩
    · exact keeps_access ⟨⟨rfl, rfl, rfl, rfl, fun h => write32_wf h⟩, rfl, rfl, rfl⟩
    · exact keeps_access ⟨⟨rfl, rfl, rfl, rfl, id⟩, rfl, rfl, rfl⟩
    · exact keeps_access ⟨rfl, rfl, rfl, rfl, fun h => write32_wf h⟩
    · trivial

/-! ### The operation on a block where nothing else moves -/

/-- The statements of an operation run one after the other with the context kept beside the state. -/
def drive (stmt : Statement) (p : Nat) : Nat → Ctx → State → Result
  | 0, _, _ => .fault .sequencerOverrun
  | n + 1, c, s =>
    match stmt p c s with
    | .goes c' s' => drive stmt p n c' s'
    | .answers r s' => .next (s'.log (.response p r))
    | .faults f => .fault f
    | .refuses r => .refused r

theorem drive_goes {stmt : Statement} {p n : Nat} {c c' : Ctx} {s s' : State} (h : stmt p c s = .goes c' s') :
    drive stmt p (n + 1) c s = drive stmt p n c' s' := by simp [drive, h]

theorem drive_answers {stmt : Statement} {p n : Nat} {c : Ctx} {s s' : State} {r : Response}
    (h : stmt p c s = .answers r s') : drive stmt p (n + 1) c s = .next (s'.log (.response p r)) := by simp [drive, h]

theorem drive_refuses {stmt : Statement} {p n : Nat} {c : Ctx} {s : State} {r : Refusal}
    (h : stmt p c s = .refuses r) : drive stmt p (n + 1) c s = .refused r := by simp [drive, h]

theorem runAlone_idle {stmt : Statement} {p n : Nat} {s : State} (h : (s.ctx p).busy = false) :
    runAlone stmt p n s = .next s := by cases n <;> simp [runAlone, h]

/-- Running alone from a latched context is `drive` from that context. -/
theorem runAlone_eq_drive (i : Instr) (p n : Nat) {c : Ctx} {s : State} (hw : canonical Ctx.idle s.ports = true)
    (hi : s.ctx p = Ctx.idle) (hc : c.busy = true) :
    runAlone (statementOf i) p n (s.setCtx p c) = drive (statementOf i) p n c s := by
  induction n generalizing c s with
  | zero => simp [runAlone, drive, ctx_setCtx_same hw, hc]
  | succ n ih =>
    have hk := statementOf_keeps i p c s
    have hs := statementOf_setCtx i p p c c s
    rw [runAlone, ctx_setCtx_same hw, if_pos hc, drive, runStatement, ctx_setCtx_same hw, hs]
    cases hst : statementOf i p c s with
    | goes c' s' =>
      rw [hst] at hk
      obtain ⟨⟨hp, -⟩, hb, -⟩ := hk
      have hw' : canonical Ctx.idle s'.ports = true := hp ▸ hw
      simp only [mapState_goes, setCtx_setCtx hw']
      exact ih hw' (by simpa [State.ctx, hp] using hi) (hb.trans hc)
    | answers r s' =>
      rw [hst] at hk
      obtain ⟨hp, -⟩ := hk
      have hw' : canonical Ctx.idle s'.ports = true := hp ▸ hw
      have hi' : s'.ctx p = Ctx.idle := by simpa [State.ctx, hp] using hi
      have hr : (s'.setCtx p c).respond p r = s'.log (.response p r) := by
        rw [State.respond, setCtx_setCtx hw', setCtx_ctx_self hw' hi']
      simp only [mapState_answers, hr]
      exact runAlone_idle (by show (s'.ctx p).busy = false; rw [hi']; rfl)
    | faults f => rfl
    | refuses r => rfl

theorem exec_eq_runOperation (i : Instr) (s : State) : exec i s = runOperation i (statementOf i) s := by
  cases i <;> rfl

/-- Acceptance on a port that can start latches the command (10_state.md R38). -/
theorem accept_of_canStart {i : Instr} {c : Command} {s : State} (h : s.canStart = true)
    (hl : i.isLifecycle = true → s.quiet = true) :
    accept s.port i c s = .next (s.setCtx s.port (Ctx.accepted c)) := by
  simp only [State.canStart, Bool.and_eq_true, Bool.not_eq_true', decide_eq_true_eq] at h
  obtain ⟨⟨⟨he, hi⟩, hf⟩, -⟩ := h
  have hq : (i.isLifecycle && s.anyBusy) = false := by
    cases hi' : i.isLifecycle with
    | false => rfl
    | true => simpa [State.quiet] using hl hi'
  simp [accept, he, hi, hf, hq, Ctx.idle]

/-- What acceptance can answer: the state as it was from a busy port, or the command latched on an idle port that
exists. -/
theorem accept_next {p : Nat} {i : Instr} {c : Command} {s t : State} (h : accept p i c s = .next t) :
    portExists p = true ∧
      ((s.ctx p).busy = true ∧ t = s ∨
        (s.ctx p).busy = false ∧ (i.isLifecycle && s.anyBusy) = false ∧ s.lifecycleInFlight = false ∧
          t = s.setCtx p (Ctx.accepted c)) := by
  unfold accept at h
  split at h
  · rename_i he
    refine ⟨he, ?_⟩
    split at h
    · rename_i hb
      cases h; exact .inl ⟨hb, rfl⟩
    · rename_i hb
      split at h
      · cases h
      · rename_i hl
        cases h
        simp only [Bool.or_eq_true, not_or, Bool.not_eq_true] at hl
        exact .inr ⟨by simpa using hb, hl.1, hl.2, rfl⟩
  · cases h

/-- A whole operation on a block where nothing else moves. -/
theorem exec_undisturbed {i : Instr} {s : State} (h : s.canStart = true) (hl : i.isLifecycle = true → s.quiet = true)
    (hp : s.pending = []) :
    exec i s = drive (statementOf i) s.port maxStatements (Ctx.accepted (encode i)) s := by
  have hacc := accept_of_canStart (c := encode i) h hl
  simp only [State.canStart, Bool.and_eq_true, Bool.not_eq_true', decide_eq_true_eq] at h
  obtain ⟨⟨⟨he, hi⟩, hf⟩, hw⟩ := h
  rw [exec_eq_runOperation, runOperation, hacc]
  have hb : ((s.ctx s.port).busy && portExists s.port) = false := by rw [hi]; rfl
  have hs : ({ s.setCtx s.port (Ctx.accepted (encode i)) with pending := [] } : State) =
      s.setCtx s.port (Ctx.accepted (encode i)) := by
    obtain ⟨a1, a2, a3, a4, a5, a6, a7, a8, a9, a10⟩ := s
    simp only at hp
    subst hp
    rfl
  simp only [hb, hp, hs, runInputs]
  exact runAlone_eq_drive i s.port maxStatements hw hi rfl

end Sys2Proof.Machine
end

