-- ==== Sys2Proof/Laws/Statements.lean ====
section
/-! SUPPORT. What each statement of the State Converter's operations does when its access can be made, and where the
registers of a channel lie in the window. -/

namespace Sys2Proof.Machine

theorem underDuty_of_met {var : Variant} {base : Word64} {s : State} (hb : baseMeetsDuty var base = true)
    (hw : var.windowBytes ≤ s.mapped) (k : Progress) : underDuty var base s k = k := by
  simp [underDuty, hb, hw]

theorem underDuty_of_dutyMet {s : State} (h : s.dutyMet = true) (k : Progress) :
    underDuty s.cfg.variant s.cfg.base s k = k := by
  simp only [State.dutyMet, Bool.and_eq_true, decide_eq_true_eq] at h
  exact underDuty_of_met h.1 h.2 k

theorem access_of_accessible {s : State} (h : s.accessible = true) (k : Progress) : access s k = k := by
  simp only [State.accessible, Bool.and_eq_true] at h
  rw [access, if_pos h.1.2, underDuty_of_dutyMet h.2]

theorem inService_of_accessible {s : State} (h : s.accessible = true) : s.cfg.inService = true := by
  simp only [State.accessible, Bool.and_eq_true] at h
  exact h.1.1

section GetState

variable {ch : Channel} {p : Nat} {c : Ctx} {s : State}

theorem getState_resolves (hq : c.seq = 0) (h : s.cfg.inService = true) :
    getStateStatement ch p c s = .goes { c.next with cb := s.channelBase ch } s := by
  simp [getStateStatement, hq, gate, h]

theorem getState_reads_lrc (hq : c.seq = 1) (h : s.accessible = true) :
    getStateStatement ch p c s =
      .goes { c.next with tp := s.readAt (effAddr c.cb .lrc) } (s.afterRead p (effAddr c.cb .lrc)) := by
  simp [getStateStatement, hq, access_of_accessible h]

theorem getState_reads_hrc (hq : c.seq = 2) (h : s.accessible = true) :
    getStateStatement ch p c s =
      .goes { c.next with td := s.readAt (effAddr c.cb .hrc) } (s.afterRead p (effAddr c.cb .hrc)) := by
  simp [getStateStatement, hq, access_of_accessible h]

theorem getState_answers (hq : c.seq = 3) (h : s.accessible = true) (hc : s.cfg.clkRate ≠ 0) :
    getStateStatement ch p c s =
      .answers (stateResponse s.cfg.clkRate c.tp c.td (s.readAt (effAddr c.cb .ctrl)))
        (s.afterRead p (effAddr c.cb .ctrl)) := by
  simp only [getStateStatement, hq, access_of_accessible h, if_neg hc]
  rfl

end GetState

section Apply

variable {ch : Channel} {p : Nat} {c : Ctx} {s : State} {en : Bool} {pol : Polarity} {period duty : Word64}

theorem apply_converts (hq : c.seq = 0) (h : s.cfg.inService = true) :
    applyStatement ch en .inversed period duty p c s =
      .goes { c.next with
        cb := s.channelBase ch, tp := tickReg period s.cfg.clkRate, td := tickReg duty s.cfg.clkRate } s := by
  simp [applyStatement, hq, gate, h]

theorem apply_rejects (hq : c.seq = 0) (h : s.cfg.inService = true) :
    applyStatement ch en .normal period duty p c s = raise .unsupportedPolarity s := by
  simp [applyStatement, hq, gate, h]

theorem apply_writes_lrc (hq : c.seq = 1) (h : s.accessible = true) :
    applyStatement ch en pol period duty p c s = .goes c.next (s.afterWrite p (effAddr c.cb .lrc) c.tp) := by
  simp [applyStatement, hq, access_of_accessible h]

theorem apply_writes_hrc (hq : c.seq = 2) (h : s.accessible = true) :
    applyStatement ch en pol period duty p c s = .goes c.next (s.afterWrite p (effAddr c.cb .hrc) c.td) := by
  simp [applyStatement, hq, access_of_accessible h]

theorem apply_clears_cntr (hq : c.seq = 3) (h : s.accessible = true) :
    applyStatement ch en pol period duty p c s = .goes c.next (s.afterWrite p (effAddr c.cb .cntr) 0) := by
  simp [applyStatement, hq, access_of_accessible h]

theorem apply_reads_ctrl (hq : c.seq = 4) (h : s.accessible = true) :
    applyStatement ch en pol period duty p c s =
      .goes { c.next with tc := s.readAt (effAddr c.cb .ctrl) } (s.afterRead p (effAddr c.cb .ctrl)) := by
  simp [applyStatement, hq, access_of_accessible h]

theorem apply_writes_ctrl (hq : c.seq = 5) (h : s.accessible = true) :
    applyStatement ch en pol period duty p c s =
      respondOk (s.afterWrite p (effAddr c.cb .ctrl) (ctrlWithEnable c.tc en)) := by
  simp [applyStatement, hq, access_of_accessible h]

end Apply

/-! ### Where the registers lie -/

theorem physOffset_register (aliased : Bool) (v : Variant) (ch : Channel) (r : Reg) :
    (physOffset aliased v (chanOff v ch + regOff r)).toNat = blockOffset aliased v ch + (regOff r).toNat := by
  revert ch
  cases v <;> cases aliased <;> cases r <;> decide

/-- A register block starts at a multiple of 16. -/
theorem blockOffset_mod (aliased : Bool) (v : Variant) (ch : Channel) : blockOffset aliased v ch % 16 = 0 := by
  revert ch
  cases v <;> cases aliased <;> decide

/-- So does a block named by its place. -/
theorem block_off_mod (b : Block) : b.off % 16 = 0 := by cases b <;> simp [Block.off]

theorem regOff_mod (r : Reg) : (regOff r).toNat % 4 = 0 ∧ (regOff r).toNat ≤ 12 := by cases r <;> decide

theorem regOff_inj {r r' : Reg} (h : (regOff r).toNat = (regOff r').toNat) : r = r' := by
  revert h; cases r <;> cases r' <;> decide

/-- The key of a register of a channel: its block's physical offset and its own offset. -/
theorem windowKey_register (s : State) (ch : Channel) (r : Reg) :
    s.windowKey (effAddr (s.channelBase ch) r) =
      blockOffset Config.bankAliased s.cfg.variant ch + (regOff r).toNat := by
  have e : effAddr (s.channelBase ch) r - s.cfg.base = chanOff s.cfg.variant ch + regOff r := by
    simp only [effAddr, State.channelBase, channelBase]
    rw [BitVec.add_assoc, BitVec.add_comm, BitVec.add_sub_cancel]
  rw [State.windowKey, e, physOffset_register]

theorem channelReg_eq (s : State) (ch : Channel) (r : Reg) :
    s.channelReg ch r =
      s.window.read32 (blockOffset Config.bankAliased s.cfg.variant ch + (regOff r).toNat) := by
  rw [State.channelReg, State.readAt, windowKey_register]

@[simp] theorem regOff_cntr : (regOff .cntr).toNat = 0 := rfl
@[simp] theorem regOff_hrc : (regOff .hrc).toNat = 4 := rfl
@[simp] theorem regOff_lrc : (regOff .lrc).toNat = 8 := rfl
@[simp] theorem regOff_ctrl : (regOff .ctrl).toNat = 12 := rfl

end Sys2Proof.Machine
end

