-- ==== Sys2Proof/Laws/Fits.lean ====
section
/-! SUPPORT. What every statement can do from a context that fits its operation and the state: it never faults, and what
it leaves fits again. -/

namespace Sys2Proof.Machine

/-! ### What the invariant's parts depend on -/

theorem settled_congr {s s' : State} (h : s'.cfg = s.cfg) (h' : s'.res = s.res) (h'' : s'.mapped = s.mapped) :
    s'.settled = s.settled := by
  simp only [State.settled, State.serving, State.dutyMet, h, h', h'']

theorem channelBase_congr {s s' : State} (h : s'.cfg = s.cfg) (ch) : s'.channelBase ch = s.channelBase ch := by
  simp [State.channelBase, h]

theorem ctxFits_congr {s s' : State} (h : s'.cfg = s.cfg) (h' : s'.res = s.res) (h'' : s'.mapped = s.mapped) (c) :
    ctxFits s' c = ctxFits s c := by
  simp only [ctxFits, initInFlight, teardownInFlight, settled_congr h h' h'', channelBase_congr h, h, h', h'']

theorem canStart_congr {s t : State} (hp : t.ports = s.ports) (hq : t.port = s.port) : t.canStart = s.canStart := by
  obtain ⟨a1, a2, a3, a4, a5, a6, a7, a8, a9, a10⟩ := t
  simp only at hp hq
  subst hp hq
  rfl

theorem quiet_congr {s t : State} (hp : t.ports = s.ports) : t.quiet = s.quiet := by
  simp only [State.quiet, State.anyBusy, hp]

theorem accessible_congr {s t : State} (hc : t.cfg = s.cfg) (hr : t.res = s.res) (hm : t.mapped = s.mapped) :
    t.accessible = s.accessible := by
  simp only [State.accessible, State.dutyMet, hc, hr, hm]

theorem seq_cases (x : BitVec 3) : x = 0 ∨ x = 1 ∨ x = 2 ∨ x = 3 ∨ x = 4 ∨ x = 5 ∨ x = 6 ∨ x = 7 := by
  revert x; decide

/-- A positive `i64` pattern is stored as a rate that is not zero (30_encoding.md R88). -/
theorem storedRate_ne_zero (clk : Word64) (h : 0 < clk.toInt) : storedRate clk ≠ 0 := by
  intro h0
  have h1 : clk.toNat < 2^63 ∧ 0 < clk.toNat := by
    simp only [BitVec.toInt_eq_toNat_cond] at h
    split at h <;> omega
  have := congrArg BitVec.toNat h0
  simp [storedRate, BitVec.extractLsb'_toNat] at this
  omega

/-- In service every register access can be made. -/
theorem access_of_serving {s : State} (h : s.serving = true) (k : Progress) : access s k = k := by
  simp only [State.serving, Bool.and_eq_true, decide_eq_true_eq] at h
  rw [access, if_pos h.1.1.1.1, underDuty_of_dutyMet h.2]

/-- A busy port is listed with its context. -/
theorem mem_ports_of_busy {s : State} {p : Nat} (h : (s.ctx p).busy = true) : (p, s.ctx p) ∈ s.ports := by
  rcases lookup_mem_or (d := Ctx.idle) p s.ports with h' | h'
  · exact h'
  · rw [show s.ctx p = Ctx.idle from h'] at h; cases h

/-- INIT or TEARDOWN is in flight exactly when some port's context says so. -/
theorem lifecycleInFlight_iff {s : State} (hc : canonical Ctx.idle s.ports = true) :
    s.lifecycleInFlight = true ↔ ∃ p, (s.ctx p).busy = true ∧ (s.ctx p).cmd.isLifecycle = true := by
  simp only [State.lifecycleInFlight, List.any_eq_true, Bool.and_eq_true]
  constructor
  · rintro ⟨e, he, h⟩
    exact ⟨e.1, by rw [show s.ctx e.1 = e.2 from lookup_of_mem hc he]; exact h⟩
  · rintro ⟨p, h, h'⟩
    exact ⟨_, mem_ports_of_busy h, h, h'⟩

/-- A context that fits holds the record of an operation. -/
theorem decodes_of_ctxFits {s : State} {c : Ctx} (h : ctxFits s c = true) : ∃ i, decode c.cmd = .ok i := by
  unfold ctxFits at h
  cases hd : decode c.cmd with
  | error e => rw [hd] at h; cases h
  | ok i => exact ⟨i, rfl⟩

/-! ### Every statement from a fitting context -/

/-- A statement from a fitting context goes on in a fitting context or leaves a settled state, and only INIT and
TEARDOWN touch the configuration and the resource flags. -/
def StmtOk (i : Instr) (s : State) : Progress → Prop
  | .goes c' s' => ctxFits s' c' = true ∧ (i.isLifecycle = true ∨ (s'.cfg = s.cfg ∧ s'.res = s.res ∧ s'.mapped = s.mapped))
  | .answers _ s' => s'.settled = true ∧ (i.isLifecycle = true ∨ (s'.cfg = s.cfg ∧ s'.res = s.res ∧ s'.mapped = s.mapped))
  | .faults _ => False
  | .refuses _ => True

theorem initStatement_ok (var clk base) (p) (c : Ctx) (s : State) (hc : decode c.cmd = .ok (.init var clk base))
    (hf : ctxFits s c = true) :
    StmtOk (.init var clk base) s (initStatement var clk base p c s) := by
  have fit : ∀ (s' : State) (c' : Ctx), c'.cmd = c.cmd → ctxFits s' c' = (initInFlight c'.seq.toNat s' && (decide (c'.seq.toNat ≤ 3) || decide (0 < clk.toInt))) := by
    intro s' c' h; simp only [ctxFits, h, hc]
  rw [fit s c rfl] at hf
  unfold initStatement
  rcases seq_cases c.seq with h|h|h|h|h|h|h|h <;> simp [h, initInFlight] at hf ⊢
  · rw [gate]
    split
    · rename_i hi
      refine ⟨?_, .inl rfl⟩
      refine (fit _ _ (by exact rfl)).trans ?_
      simp [State.settled, hi, Res.anyHeld] at hf
      simp [Ctx.next, h, initInFlight, hi]
      cases hr : s.res; simp_all
    · exact ⟨hf, .inl rfl⟩
  · split
    · refine ⟨?_, .inl rfl⟩
      refine (fit _ _ (by exact rfl)).trans ?_
      simp [Ctx.next, h, initInFlight, hf]
    · refine ⟨?_, .inl rfl⟩
      simp [State.settled, hf, Res.anyHeld]
  · split
    · refine ⟨?_, .inl rfl⟩
      refine (fit _ _ (by exact rfl)).trans ?_
      simp [Ctx.next, h, initInFlight, hf]
    · refine ⟨?_, .inl rfl⟩
      simp [State.settled, hf, Res.anyHeld]
  · split
    · refine ⟨?_, .inl rfl⟩
      simp [State.settled, hf, Res.anyHeld]
    · refine ⟨?_, .inl rfl⟩
      refine (fit _ _ (by exact rfl)).trans ?_
      simp [Ctx.next, h, initInFlight, hf]
      omega
  · cases s.env.rst
    · refine ⟨?_, .inl rfl⟩
      refine (fit _ _ (by exact rfl)).trans ?_
      simp [Ctx.next, h, initInFlight, hf]
    · refine ⟨?_, .inl rfl⟩
      refine (fit _ _ (by exact rfl)).trans ?_
      simp [Ctx.next, h, initInFlight, hf]
    · refine ⟨?_, .inl rfl⟩
      simp [State.settled, hf, Res.anyHeld]
  · have hr : s.res = ⟨true, true, s.res.rst, false⟩ := hf.1.2
    split
    · unfold underDuty
      split
      · rename_i hb
        split
        · rename_i hm
          refine ⟨?_, .inl rfl⟩
          have hd : (s.register.capture var clk base).dutyMet = true := by
            show (baseMeetsDuty var base && decide (var.windowBytes ≤ s.mapped)) = true
            rw [hb, decide_eq_true hm]; rfl
          have e1 : (s.register.capture var clk base).settled =
              (s.res.map && s.res.clk && true && decide (storedRate clk ≠ 0) &&
                (s.register.capture var clk base).dutyMet) := rfl
          rw [e1, hr, hd, decide_eq_true (storedRate_ne_zero clk hf.2)]; rfl
        · trivial
      · trivial
    · refine ⟨?_, .inl rfl⟩
      unfold State.assertReset
      split
      · simp [State.settled, hf.1.1, Res.anyHeld, State.clockOff, State.unmapWindow]
        rw [hr]
      · rename_i hx
        simp [State.settled, hf.1.1, Res.anyHeld, State.clockOff, State.unmapWindow]
        rw [hr]; simpa using hx

theorem teardownStatement_ok (p) (c : Ctx) (s : State) (hc : decode c.cmd = .ok .teardown)
    (hf : ctxFits s c = true) :
    StmtOk .teardown s (teardownStatement p c s) := by
  have fit : ∀ (s' : State) (c' : Ctx), c'.cmd = c.cmd → ctxFits s' c' = (teardownInFlight c'.seq.toNat s') := by
    intro s' c' h; simp only [ctxFits, h, hc]
  rw [fit s c rfl] at hf
  unfold teardownStatement
  rcases seq_cases c.seq with h|h|h|h|h|h|h|h <;> simp [h, teardownInFlight] at hf ⊢
  · rw [gate]
    split
    · rename_i hi
      refine ⟨?_, .inl rfl⟩
      refine (fit _ _ (by exact rfl)).trans ?_
      simp [State.settled, hi, State.serving] at hf
      simp [Ctx.next, h, teardownInFlight, State.leaveService, State.unregister]
      rw [hf.1.1.1.1, hf.1.1.1.2]; exact ⟨rfl, rfl⟩
    · exact ⟨hf, .inl rfl⟩
  · split
    · refine ⟨?_, .inl rfl⟩
      refine (fit _ _ (by exact rfl)).trans ?_
      rename_i hrs
      have hr := hf.2
      have e1 : (s.assertReset.scrambleRegisters).res = ⟨s.res.map, s.res.clk, false, s.res.reg⟩ := by
        rw [scrambleRegisters_res]; unfold State.assertReset; rw [if_pos hrs]; rfl
      have e2 : (s.assertReset.scrambleRegisters).cfg = s.cfg := by simp
      simp only [Ctx.next, h]
      show (!(s.assertReset.scrambleRegisters).cfg.inService && decide ((s.assertReset.scrambleRegisters).res = _)) = true
      rw [e1, e2, hf.1, hr]; rfl
    · refine ⟨?_, .inl rfl⟩
      refine (fit _ _ (by exact rfl)).trans ?_
      have hr := hf.2
      rename_i hx
      simp only [Ctx.next, h]
      show (!s.cfg.inService && decide (s.res = ⟨true, true, false, false⟩)) = true
      rw [hf.1, hr]; simp; simpa using hx
  · refine ⟨?_, .inl rfl⟩
    refine (fit _ _ (by exact rfl)).trans ?_
    simp [Ctx.next, h, teardownInFlight, hf]
  · refine ⟨?_, .inl rfl⟩
    simp [State.settled, hf, Res.anyHeld, State.unmapWindow]

theorem resolveStatement_ok (ch p) (c : Ctx) (s : State) (hc : decode c.cmd = .ok (.resolve ch))
    (hf : ctxFits s c = true) :
    StmtOk (.resolve ch) s (resolveStatement ch p c s) := by
  simp only [ctxFits, hc, Bool.and_eq_true, decide_eq_true_eq] at hf
  unfold resolveStatement
  rw [hf.2, gate]
  simp
  split
  · exact ⟨hf.1, .inr ⟨rfl, rfl, rfl⟩⟩
  · exact ⟨hf.1, .inr ⟨rfl, rfl, rfl⟩⟩

theorem getStateStatement_ok (ch p) (c : Ctx) (s : State) (hc : decode c.cmd = .ok (.getState ch))
    (hf : ctxFits s c = true) :
    StmtOk (.getState ch) s (getStateStatement ch p c s) := by
  have fit : ∀ (s' : State) (c' : Ctx), c'.cmd = c.cmd → ctxFits s' c' = (s'.settled && decide (c'.seq.toNat ≤ 3) &&
      (decide (c'.seq = 0) || (s'.cfg.inService && decide (c'.cb = s'.channelBase ch)))) := by
    intro s' c' h; simp only [ctxFits, h, hc]
  have gf : ∀ (s' : State) (c' : Ctx), s'.cfg = s.cfg → s'.res = s.res → s'.mapped = s.mapped → c'.cmd = c.cmd → c'.seq.toNat ≤ 3 → c'.cb = c.cb →
      s.settled = true → s.cfg.inService = true ∧ c.cb = s.channelBase ch → ctxFits s' c' = true := by
    intro s' c' h1 h2 hm h3 h4 h5 h6 h7
    rw [fit _ _ h3, settled_congr h1 h2 hm, channelBase_congr h1, h1, h5, h6, h7.1, h7.2, decide_eq_true h4]; simp
  rw [fit s c rfl] at hf
  unfold getStateStatement
  have acc : s.cfg.inService = true → s.settled = true → s.serving = true := by intro h h'; simpa [State.settled, h] using h'
  rcases seq_cases c.seq with h|h|h|h|h|h|h|h <;> simp [h] at hf ⊢
  · rw [gate]
    split
    · rename_i hi
      refine ⟨?_, .inr ⟨rfl, rfl, rfl⟩⟩
      refine (fit _ _ (by exact rfl)).trans ?_
      simp [h, Ctx.next, hi, hf]
    · exact ⟨hf, .inr ⟨rfl, rfl, rfl⟩⟩
  · rw [access_of_serving (acc hf.2.1 hf.1)]
    exact ⟨gf _ _ rfl rfl rfl rfl (by simp [Ctx.next, h]) rfl hf.1 hf.2, .inr ⟨rfl, rfl, rfl⟩⟩
  · rw [access_of_serving (acc hf.2.1 hf.1)]
    exact ⟨gf _ _ rfl rfl rfl rfl (by simp [Ctx.next, h]) rfl hf.1 hf.2, .inr ⟨rfl, rfl, rfl⟩⟩
  · have := acc hf.2.1 hf.1
    rw [access_of_serving this]
    simp only [State.serving, Bool.and_eq_true, decide_eq_true_eq] at this
    split
    · exact absurd ‹_› this.1.2
    · exact ⟨hf.1, .inr ⟨rfl, rfl, rfl⟩⟩

theorem applyStatement_ok (ch en pol x y p) (c : Ctx) (s : State) (hc : decode c.cmd = .ok (.apply ch en pol x y))
    (hf : ctxFits s c = true) :
    StmtOk (.apply ch en pol x y) s (applyStatement ch en pol x y p c s) := by
  have fit : ∀ (s' : State) (c' : Ctx), c'.cmd = c.cmd → ctxFits s' c' = (s'.settled && decide (c'.seq.toNat ≤ 5) &&
      (decide (c'.seq = 0) ||
        (s'.cfg.inService && decide (pol = .inversed) && decide (c'.cb = s'.channelBase ch) &&
          decide (c'.tp = tickReg x s'.cfg.clkRate) && decide (c'.td = tickReg y s'.cfg.clkRate)))) := by
    intro s' c' h; simp only [ctxFits, h, hc]
  have gf : ∀ (s' : State) (c' : Ctx), s'.cfg = s.cfg → s'.res = s.res → s'.mapped = s.mapped → c'.cmd = c.cmd → c'.seq.toNat ≤ 5 → c'.cb = c.cb →
      c'.tp = c.tp → c'.td = c.td →
      s.settled = true → (((s.cfg.inService = true ∧ pol = Polarity.inversed) ∧ c.cb = s.channelBase ch) ∧ c.tp = tickReg x s.cfg.clkRate) ∧
      c.td = tickReg y s.cfg.clkRate → ctxFits s' c' = true := by
    intro s' c' h1 h2 hm h3 h4 h5 h8 h9 h6 h7
    rw [fit _ _ h3, settled_congr h1 h2 hm, channelBase_congr h1, h1, h5, h6, h8, h9, decide_eq_true h4]
    simp [h7]
  rw [fit s c rfl] at hf
  unfold applyStatement
  have acc : s.cfg.inService = true → s.settled = true → s.serving = true := by intro h h'; simpa [State.settled, h] using h'
  rcases seq_cases c.seq with h|h|h|h|h|h|h|h <;> simp [h] at hf ⊢
  · rw [gate]
    split
    · rename_i hi
      cases pol with
      | normal => exact ⟨hf, .inr ⟨rfl, rfl, rfl⟩⟩
      | inversed =>
        refine ⟨?_, .inr ⟨rfl, rfl, rfl⟩⟩
        refine (fit _ _ (by exact rfl)).trans ?_
        simp [h, Ctx.next, hi, hf]
    · exact ⟨hf, .inr ⟨rfl, rfl, rfl⟩⟩
  all_goals
    have hs : s.serving = true := acc (by simp [hf]) hf.1
    rw [access_of_serving hs]
  iterate 4
    · exact ⟨gf _ _ rfl rfl rfl rfl (by simp [Ctx.next, h]) rfl rfl rfl hf.1 hf.2, .inr ⟨rfl, rfl, rfl⟩⟩
  · exact ⟨hf.1, .inr ⟨rfl, rfl, rfl⟩⟩

/-- What every statement of every operation can do from a context that fits. -/
theorem statementOf_ok (i : Instr) (p) (c : Ctx) (s : State) (hc : decode c.cmd = .ok i)
    (hf : ctxFits s c = true) :
    StmtOk i s (statementOf i p c s) := by
  cases i with
  | init => exact initStatement_ok _ _ _ p c s hc hf
  | teardown => exact teardownStatement_ok p c s hc hf
  | resolve => exact resolveStatement_ok _ p c s hc hf
  | getState => exact getStateStatement_ok _ p c s hc hf
  | apply => exact applyStatement_ok _ _ _ _ _ p c s hc hf

/-- What one statement does to the contexts: the other ports keep theirs, and the port goes idle or goes on with the
same command, one place further. -/
theorem runStatement_ctx {s t : State} {p : Nat} {i : Instr} (hw : canonical Ctx.idle s.ports = true)
    (h : runStatement (statementOf i) p s = .next t) :
    (∀ q, q ≠ p → t.ctx q = s.ctx q) ∧
      (t.ctx p = Ctx.idle ∨
        (t.ctx p).busy = (s.ctx p).busy ∧ (t.ctx p).cmd = (s.ctx p).cmd ∧ (t.ctx p).seq = (s.ctx p).seq + 1) := by
  have hk := statementOf_keeps i p (s.ctx p) s
  unfold runStatement at h
  cases hst : statementOf i p (s.ctx p) s with
  | goes c' s' =>
    rw [hst] at h hk
    cases h
    obtain ⟨⟨hp, -⟩, hb, hc, hq⟩ := hk
    have hw' : canonical Ctx.idle s'.ports = true := hp ▸ hw
    refine ⟨fun q hne => ?_, .inr ?_⟩
    · rw [ctx_setCtx_other hw' hne]
      simp only [State.ctx, hp]
    · rw [ctx_setCtx_same hw']
      exact ⟨hb, hc, hq⟩
  | answers r s' =>
    rw [hst] at h hk
    cases h
    obtain ⟨hp, -⟩ := hk
    have hw' : canonical Ctx.idle s'.ports = true := hp ▸ hw
    refine ⟨fun q hne => ?_, .inl ?_⟩
    · exact (ctx_setCtx_other (c := Ctx.idle) hw' hne).trans (by simp only [State.ctx, hp])
    · exact ctx_setCtx_same (c := Ctx.idle) hw'
  | faults f => rw [hst] at h; cases h
  | refuses r => rw [hst] at h; cases h

end Sys2Proof.Machine
end

