-- ==== Sys2Proof/Laws/PerInstr.lean ====
section
/-! SUPPORT. The law made per instruction: the header an instruction is encoded with is the one its row of the operation
map gives (30_encoding.md R82). -/

namespace Sys2Proof.Laws.HeaderMatchesRow

/-- The row's match value over the mask `0x07` (30_encoding.md R82). -/
def rowMatch : Instr → BitVec 8
  | .init _ _ _ => 0x00
  | .teardown => 0x01
  | .resolve _ => 0x02
  | .getState _ => 0x03
  | .apply _ _ _ _ _ => 0x04

/-- The header of the instruction matches its row. -/
def Statement (i : Instr) : Prop := (encode i).hdr &&& 0x07 = rowMatch i

theorem header_masked (pol bit6 : Bool) (ch : Channel) (op : BitVec 3) :
    header pol bit6 ch op &&& 0x07 = op.setWidth 8 := by
  revert pol bit6 ch op; decide

theorem init (var : Variant) (clkRateIn base : Word64) : Statement (.init var clkRateIn base) :=
  header_masked false var.bit 0 0b000

theorem teardown : Statement .teardown := header_masked false false 0 0b001

theorem resolve (ch : Channel) : Statement (.resolve ch) := header_masked false false ch 0b010

theorem getState (ch : Channel) : Statement (.getState ch) := header_masked false false ch 0b011

theorem apply (ch : Channel) (en : Bool) (pol : Polarity) (period duty : Word64) :
    Statement (.apply ch en pol period duty) := header_masked pol.bit en ch 0b100

end Sys2Proof.Laws.HeaderMatchesRow
end

