-- ==== Sys2Proof/Machine/Text.lean ====
section
/-! DEFINITION. The textual syntax of commands and responses (30_encoding.md R97). -/

namespace Sys2Proof.Machine

/-- A number in hexadecimal with its prefix (30_encoding.md R97). -/
def hexText (n : Nat) : String := "0x" ++ String.ofList (Nat.toDigits 16 n)

/-- A number in decimal. -/
def decText (n : Nat) : String := String.ofList (Nat.toDigits 10 n)

/-- A signed number in decimal; `clk` alone may carry a minus sign (30_encoding.md R97). -/
def signedText (n : Int) : String := if n < 0 then "-" ++ decText n.natAbs else decText n.natAbs

/-- `var=<flat|banked>`. -/
def variantText : Variant → String
  | .flat => "flat"
  | .banked => "banked"

/-- `pol=<normal|inversed>`. -/
def polarityText : Polarity → String
  | .normal => "normal"
  | .inversed => "inversed"

/-- A command as one line of text (30_encoding.md R97). -/
def instrText : Instr → String
  | .init var clk base =>
    "init clk=" ++ signedText clk.toInt ++ ", var=" ++ variantText var ++ ", base=" ++ hexText base.toNat
  | .teardown => "teardown"
  | .resolve ch => "resolve ch=" ++ decText ch.toNat
  | .getState ch => "get ch=" ++ decText ch.toNat
  | .apply ch en pol period duty =>
    "apply ch=" ++ decText ch.toNat ++ ", period=" ++ decText period.toNat ++ ", duty=" ++ decText duty.toNat ++ ", en=" ++
      decText en.toNat ++ ", pol=" ++ polarityText pol

/-- The name of a status (30_encoding.md R95). -/
def statusText : Status → String
  | .ok => "OK"
  | .invalidClockRate => "InvalidClockRate"
  | .unsupportedPolarity => "UnsupportedPolarity"
  | .resourceFailure => "ResourceFailure"
  | .wrongLifecycleState => "WrongLifecycleState"
  | .illegalCommand => "IllegalCommand"

/-- One field of a response, left out when it is zero. -/
def fieldText (name : String) (v : Nat) : String := if v = 0 then "" else ", " ++ name ++ "=" ++ decText v

/-- A response as text: its status and its non-zero fields (30_encoding.md R97). -/
def responseText (r : Response) : String :=
  "-> " ++ statusText r.status ++ fieldText "RA" r.ra.toNat ++ fieldText "RB" r.rb.toNat ++ fieldText "ren" r.ren.toNat ++
    fieldText "rpol" r.rpol.toNat

end Sys2Proof.Machine
end

