-- ==== Sys2Proof/Tests/Slice0.lean ====
section
/-! SUPPORT. Tests of the model against the worked examples, vectors and programs of 95_test_vectors.md. -/

namespace Sys2Proof.Tests

open Sys2Proof.Machine

/-! ### Helpers -/

/-- What a function of the state gives after a step, if there is a next state. -/
def after {α : Type} (f : State → α) : Result → Option α
  | .next s => some (f s)
  | .fault _ => none
  | .refused _ => none

/-- The reason a step was refused. -/
def refusal : Result → Option Refusal
  | .next _ => none
  | .fault _ => none
  | .refused r => some r

/-- The reason a step stopped with a fault. -/
def faultOf : Result → Option Fault
  | .next _ => none
  | .fault f => some f
  | .refused _ => none

/-- The window with the four registers of the block at `off`. -/
def blockAt (off : Nat) (cntr hrc lrc ctrl : Word32) (m : Memory) : Memory :=
  (((m.write32 off cntr).write32 (off + 4) hrc).write32 (off + 8) lrc).write32 (off + 12) ctrl

/-- The four registers of the block at `off`. -/
def blockOf (off : Nat) (m : Memory) : Word32 × Word32 × Word32 × Word32 :=
  (m.read32 off, m.read32 (off + 4), m.read32 (off + 8), m.read32 (off + 12))

/-- A Controller in service at `0x10000000`. -/
def served (v : Variant) (clk : ClkRate) (w : Memory) : State :=
  { State.reset with
    cfg := ⟨true, clk, v, 0x10000000⟩, res := ⟨true, true, false, true⟩, mapped := 0x8040, window := w }

/-- Out of service, with the platform's answers `e`. -/
def unserved (e : Env) : State := { State.reset with env := e }

/-- Every answer of the platform as INIT needs it, no reset line. -/
def allOk : Env := ⟨true, true, .absent, true, 0x8040⟩

/-! ### Well-formedness: each check refuses an ill-formed term -/

theorem test_wellFormed_init : (Instr.init .flat 24000000 0x10000000).wellFormed = true := by decide
theorem test_illFormed_misaligned : (Instr.init .flat 24000000 0x10000002).wellFormed = false := by decide
theorem test_illFormed_wraps_flat : (Instr.init .flat 24000000 0xFFFFFFFFFFFFFF84).wellFormed = false := by decide
theorem test_illFormed_wraps_banked : (Instr.init .banked 24000000 0xFFFFFFFFFFFFFF80).wellFormed = false := by decide
theorem test_wellFormed_highest_flat : (Instr.init .flat 24000000 0xFFFFFFFFFFFFFF80).wellFormed = true := by decide

/-! ### Decoding (95_test_vectors.md V-DECODE; 30_encoding.md R98), each header written out from R82 -/

theorem test_decode_init_flat : decode ⟨0b00000000, 0x16E3600, 0x10000000⟩ = .ok (.init .flat 24000000 0x10000000) := by
  decide
theorem test_decode_init_banked : decode ⟨0b01000000, 1, 4⟩ = .ok (.init .banked 1 4) := by decide
theorem test_decode_init_ignored : decode ⟨0b10111000, 1, 4⟩ = .ok (.init .flat 1 4) := by decide
theorem test_decode_teardown : decode ⟨0b00000001, 0, 0⟩ = .ok .teardown := by decide
theorem test_decode_teardown_ignored : decode ⟨0b11111001, 7, 9⟩ = .ok .teardown := by decide
theorem test_decode_resolve : decode ⟨0b00101010, 0, 0⟩ = .ok (.resolve 5) := by decide
theorem test_decode_getState : decode ⟨0b00010011, 0, 0⟩ = .ok (.getState 2) := by decide
theorem test_decode_apply :
    decode ⟨0b11010100, 0xF4240, 0x3D090⟩ = .ok (.apply 2 true .inversed 1000000 250000) := by decide
theorem test_decode_apply_normal : decode ⟨0b00000100, 0, 0⟩ = .ok (.apply 0 false .normal 0 0) := by decide
theorem test_decode_reserved : decode ⟨0b11111111, 0, 0⟩ = .error (.reservedOp 7) := by decide
theorem test_encode_apply : encode (.apply 2 true .inversed 1000000 250000) = ⟨0xD4, 0xF4240, 0x3D090⟩ := by decide
theorem test_tableWord : decodeTableWord 8 0x5D = none ∧ decodeTableWord 8 0x5B = some (.getState 3) := by decide
theorem test_word_bits : (Command.mk 0x11 0x22 0x33).toWord = 0x33#64 ++ 0x22#64 ++ 0x11#8 := by decide

/-! ### Conversions (95_test_vectors.md V-CONVERT) -/

theorem test_ticks_source_example : nsToTicks 1000000 24000000 = 24000 := by decide
theorem test_ns_source_example : ticksToNs 24000 24000000 = 1000000 := by decide
theorem test_ticks_tie : nsToTicks 30 50000000 = 2 := by decide
theorem test_ticks_below_half : nsToTicks 20 24000000 = 0 := by decide
theorem test_ticks_largest : nsToTicks 178956970645 24000000 = 4294967295 := by decide
theorem test_tickReg_truncates : tickReg 178956970646 24000000 = 0 := by decide
theorem test_tickReg_exact_product : tickReg 0xFFFFFFFFFFFFFFFF 24000000 = 0x1A9FBE77 := by decide
theorem test_ns_tie : ticksToNs 3 2000000000 = 2 := by decide
theorem test_ns_odd_divisor : ticksToNs 2 3 = 666666667 := by decide
theorem test_ns_largest : nsField 0xFFFFFFFF 1 = 0x3B9AC9FFC4653600 := by decide

/-! ### Addresses (95_test_vectors.md S3, S4, V-RESOLVE; 20_memory.md R57) -/

theorem test_chanOff_flat : chanOff .flat 7 = 0x70 := by decide
theorem test_chanOff_banked_low : chanOff .banked 3 = 0x30 := by decide
theorem test_chanOff_banked_high : chanOff .banked 5 = 0x8010 := by decide
theorem test_phys_aliased : physOffset true .banked 0x8014 = 0x14 ∧ physOffset false .banked 0x8014 = 0x8014 := by decide
theorem test_phys_flat : physOffset true .flat 0x70 = 0x70 := by decide

/-! ### CTRL (43_apply.md R161) -/

theorem test_ctrl_enable : ctrlWithEnable 0x00000020 true = 0x00000029 := by decide
theorem test_ctrl_disable : ctrlWithEnable 0xFFFFFFFF false = 0xFFFFFFF6 := by decide
theorem test_ctrl_preserves : ctrlWithEnable 0x000001C6 true = 0x000001CF := by decide
theorem test_enabled_is_bit0 : enabledOf 0xFFFFFFF6 = false ∧ enabledOf 0x00000001 = true := by decide

/-! ### RESOLVE (95_test_vectors.md V-RESOLVE) -/

theorem test_resolve_banked :
    after State.trace (exec (.resolve 5) (served .banked 1 [])) =
      some [.response 0 ⟨.ok, 0x10008010, 0, false, false⟩] := by decide
theorem test_resolve_out_of_service :
    after State.trace (exec (.resolve 0) State.reset) = some [.response 0 ⟨.wrongLifecycleState, 0, 0, false, false⟩] := by
  decide

/-! ### GET_STATE (95_test_vectors.md V-GET, with its access trace) -/

theorem test_get_state :
    after State.trace (exec (.getState 2) (served .flat 24000000 (blockAt 0x20 5 0x1770 0x5DC0 0x29 []))) =
      some [.response 0 ⟨.ok, 1000000, 250000, true, true⟩, .read 0 0x1000002C 0x29, .read 0 0x10000024 0x1770,
        .read 0 0x10000028 0x5DC0] := by decide
theorem test_get_state_oe_alone :
    after State.trace (exec (.getState 2) (served .flat 24000000 (blockAt 0x20 5 7 6 8 []))) =
      some [.response 0 ⟨.ok, 250, 292, false, true⟩, .read 0 0x1000002C 8, .read 0 0x10000024 7, .read 0 0x10000028 6] := by
  decide

/-! ### APPLY (95_test_vectors.md V-APPLY, P1) -/

theorem test_apply_registers :
    after (fun s => blockOf 0x20 s.window)
        (exec (.apply 2 true .inversed 1000000 250000)
          (served .flat 24000000 (blockAt 0x20 0x12345678 0xAAAAAAAA 0xBBBBBBBB 0x20 []))) =
      some (0, 0x1770, 0x5DC0, 0x29) := by decide
theorem test_apply_trace :
    after State.trace
        (exec (.apply 2 true .inversed 1000000 250000) (served .flat 24000000 (blockAt 0x20 1 2 3 0x20 []))) =
      some [.response 0 (Response.only .ok), .write 0 0x1000002C 0x29, .read 0 0x1000002C 0x20, .write 0 0x10000020 0,
        .write 0 0x10000024 0x1770, .write 0 0x10000028 0x5DC0] := by decide
theorem test_apply_normal_polarity :
    after (fun s => (s.window, s.trace))
        (exec (.apply 2 true .normal 1000000 250000) (served .flat 24000000 [(0x28, 7)])) =
      some ([(0x28, 7)], [.response 0 (Response.only .unsupportedPolarity)]) := by decide
theorem test_apply_priority :
    after State.trace (exec (.apply 2 true .normal 1 1) State.reset) =
      some [.response 0 (Response.only .wrongLifecycleState)] := by decide

/-! ### INIT and TEARDOWN (95_test_vectors.md V-LIFECYCLE) -/

theorem test_init :
    after (fun s => (s.cfg, s.res, s.mapped, s.trace)) (exec (.init .flat 24000000 0x10000000) (unserved allOk)) =
      some (⟨true, 24000000, .flat, 0x10000000⟩, ⟨true, true, false, true⟩, 0x8040,
        [.response 0 (Response.only .ok), .action .register, .action .clockOn, .action .mapWindow]) := by decide
theorem test_init_zero_rate :
    after (fun s => (s.cfg.inService, s.res, s.trace)) (exec (.init .flat 0 0x10000000) (unserved ⟨true, true, .present, true, 0x8040⟩)) =
      some (false, ⟨false, false, false, false⟩,
        [.response 0 (Response.only .invalidClockRate), .action .unmapWindow, .action .clockOff, .action .clockOn,
          .action .mapWindow]) := by decide
theorem test_init_registration_fails :
    after (fun s => (s.cfg.inService, s.res, s.trace))
        (exec (.init .flat 24000000 0x10000000) (unserved ⟨true, true, .present, false, 0x8040⟩)) =
      some (false, ⟨false, false, false, false⟩,
        [.response 0 (Response.only .resourceFailure), .action .unmapWindow, .action .clockOff, .action .assertReset,
          .action .deassertReset, .action .clockOn, .action .mapWindow]) := by decide
theorem test_init_map_fails_first :
    after State.trace (exec (.init .flat 0 0x10000000) (unserved ⟨false, true, .absent, true, 0x8040⟩)) =
      some [.response 0 (Response.only .resourceFailure)] := by decide
theorem test_init_negative_rate :
    after State.trace (exec (.init .flat 0xFFFFFFFFFFFFFFFF 0) (unserved allOk)) =
      some [.response 0 (Response.only .invalidClockRate), .action .unmapWindow, .action .clockOff, .action .clockOn,
        .action .mapWindow] := by decide
theorem test_init_bad_base : refusal (exec (.init .flat 1 2) (unserved allOk)) = some .baseBreaksDuty := by decide
theorem test_init_small_window :
    refusal (exec (.init .flat 1 0) (unserved { allOk with windowBytes := 0x7F })) = some .windowTooSmall ∧
      refusal (exec (.init .flat 1 0) (unserved { allOk with windowBytes := 0x80 })) = none := by decide
theorem test_teardown :
    after (fun s => (s.cfg.inService, s.res, s.mapped, s.trace))
        (exec .teardown { served .flat 1 [] with res := ⟨true, true, true, true⟩ }) =
      some (false, ⟨false, false, false, false⟩, 0,
        [.response 0 (Response.only .ok), .action .unmapWindow, .action .clockOff, .action .assertReset,
          .action .unregister]) := by decide

/-! ### Reserved commands, priority (95_test_vectors.md V-DECODE) -/

theorem test_reserved_out_of_service :
    after State.trace (step { State.reset with pending := [.command 0 ⟨0x06, 0, 0⟩] }) =
      some [.response 0 (Response.only .illegalCommand)] := by decide

/-! ### Interleaving (95_test_vectors.md P5, third row) and the inputs of the outside world -/

/-- Two APPLYs on channel 2 in flight, on ports 0 and 1, at statement 0. -/
def race (inputs : List Input) : State :=
  { served .flat 24000000 (blockAt 0x20 0 0 0 0x20 []) with
    ports := [(0, Ctx.accepted (encode (.apply 2 true .inversed 1000000 250000))),
      (1, Ctx.accepted (encode (.apply 2 false .inversed 2000000 500000)))]
    pending := inputs }

theorem test_race :
    after (fun s => blockOf 0x20 s.window)
        (Host.Core.run core 12
          (race [.advance 0, .advance 0, .advance 1, .advance 1, .advance 1, .advance 1, .advance 1, .advance 1, .advance 0,
            .advance 0, .advance 0, .advance 0])) =
      some (0, 0x1770, 0xBB80, 0x29) := by decide

theorem test_device_between_statements :
    after (fun s => blockOf 0x20 s.window)
        (exec (.apply 2 true .inversed 1000000 250000)
          { served .flat 24000000 (blockAt 0x20 1 2 3 0x20 []) with
            pending := [.advance 0, .advance 0, .advance 0, .advance 0, .device (.primary 2) .cntr 99] }) =
      some (99, 0x1770, 0x5DC0, 0x29) := by decide

theorem test_reset_abandons :
    after (fun s => (s.cfg.inService, s.ports, s.trace))
        (resetInput { State.reset with ports := [(0, Ctx.accepted ⟨0, 0, 0⟩)] }) = some (false, [], []) := by decide
theorem test_reset_mid_operation :
    refusal (resetInput (race [])) = some .resetInMidOperation := by decide
theorem test_overlap : refusal (exec .teardown { race [] with port := 0, ports := [(1, Ctx.accepted ⟨2, 0, 0⟩)] }) =
    some .lifecycleOverlap := by decide
theorem test_wait : after State.trace (step State.reset) = some [] := by decide

/-! ### Text (30_encoding.md R97, R98) -/

theorem test_text_apply :
    instrText (.apply 2 true .inversed 1000000 250000) = "apply ch=2, period=1000000, duty=250000, en=1, pol=inversed" := by
  decide
theorem test_text_get : instrText (.getState 2) = "get ch=2" := by decide

/-! ### Witnesses: for each statement with hypotheses, a state and operands that meet them all -/

/-- A Controller in service at 24 MHz with registers of channel 2 written. -/
def ready : State := served .flat 24000000 (blockAt 0x20 5 0x1770 0x5DC0 0x29 [])

/-- The same with the contexts `ports` and the inputs `inputs`. -/
def readyWith (ports : List (Nat × Ctx)) (inputs : List Input) : State := { ready with ports := ports, pending := inputs }

/-- The context of the operation `i` at place `seq`, on channel 2 of `ready`. -/
def ctxAt (i : Instr) (seq : BitVec 3) : Ctx := ⟨true, seq, encode i, 0x10000020, 0x5DC0, 0x1770, 0x20⟩

/-- An APPLY on channel 2. -/
def applyTwo : Instr := .apply 2 true .inversed 1000000 250000

/-- Inputs that keep the platform's and the callers' duty: the device, the platform, port 0 itself with a command it does
not take, and port 1 with a step of its operation on channel 3. -/
def duty : List Input :=
  [.device (.primary 2) .ctrl 0x40, .advance 0, .command 0 ⟨0x07, 0, 0⟩, .advance 1, .platform allOk, .command 0 ⟨0x01, 0, 0⟩,
    .advance 0]

/-- Port 1 runs an operation on channel 3, at its place `seq`. -/
def otherPort (seq : BitVec 3) : List (Nat × Ctx) :=
  [(1, { ctxAt (.apply 3 false .inversed 1000000 250000) seq with cb := 0x10000030 })]

theorem witness_IgnoredBitsHaveNoEffect :
    (∀ x ∈ [((⟨0b10111000, 1, 4⟩ : Command), (⟨0b00000000, 1, 4⟩ : Command)), (⟨0b11111001, 7, 9⟩, ⟨0b00000001, 0, 0⟩),
        (⟨0b11101010, 7, 9⟩, ⟨0b00101010, 0, 0⟩), (⟨0b11010011, 7, 9⟩, ⟨0b00010011, 0, 0⟩),
        (⟨0b11010100, 7, 9⟩, ⟨0b11010100, 7, 9⟩), (⟨0b11111101, 7, 9⟩, ⟨0b00000101, 0, 0⟩)],
      x.1.op = x.2.op ∧ (x.1.op = 0 → x.1.bit6 = x.2.bit6 ∧ x.1.opa = x.2.opa ∧ x.1.opb = x.2.opb) ∧
        (x.1.op = 2 ∨ x.1.op = 3 → x.1.ch = x.2.ch) ∧
        (x.1.op = 4 → x.1.ch = x.2.ch ∧ x.1.bit6 = x.2.bit6 ∧ x.1.bit7 = x.2.bit7 ∧ x.1.opa = x.2.opa ∧
          x.1.opb = x.2.opb)) := by decide
theorem witness_StepRunsDecodedCommand :
    (readyWith [] [.command 0 ⟨0x13, 0, 0⟩]).pending = [.command 0 ⟨0x13, 0, 0⟩] ∧ decode ⟨0x13, 0, 0⟩ = .ok (.getState 2) := by
  decide
theorem witness_FetchedWordRunsNext :
    decodeTableWord 8 0x13 = some (.getState 2) ∧
      after State.trace (step (ready.withFetchWord 8 0x13)) = after State.trace (exec (.getState 2) ready) := by decide
theorem witness_AdvanceRunsLatchedOperation :
    let s := readyWith [(0, ctxAt applyTwo 3)] [.advance 0]
    s.pending = [.advance 0] ∧ (s.ctx 0).busy = true ∧ decode (s.ctx 0).cmd = .ok applyTwo := by decide
theorem witness_SeqGrowsByOne :
    ∀ seq ∈ [(0 : BitVec 3), 5],
      let s := readyWith [(0, ctxAt applyTwo seq)] []
      canonical Ctx.idle s.ports = true ∧ (s.ctx 0).busy = true ∧
        after (fun t => (t.ctx 0).busy) (advance 0 s) = some (decide (seq = 0)) := by decide
theorem witness_ChannelOffsets : (3 : Channel).toNat < 4 ∧ 4 ≤ (4 : Channel).toNat := by decide
theorem witness_RegisterBlocksApart : (0 : Channel) ≠ 7 ∧ (0 : Channel).toNat < 4 ∧ (3 : Channel).toNat < 4 := by decide
theorem witness_AddressesAlignedAndInRange :
    baseMeetsDuty .flat 0xFFFFFFFFFFFFFF80 = true ∧ baseMeetsDuty .banked 0xFFFFFFFFFFFF7FC0 = true ∧
      baseMeetsDuty .flat 0 = true := by decide
theorem witness_BankAliasing :
    (0 : Channel).toNat < 4 ∧ (3 : Channel).toNat < 4 ∧ (0 : Channel) ≠ 3 ∧ (3 : Channel) ≠ 7 ∧ Reg.cntr ≠ .ctrl := by decide
theorem witness_ResolveAnswersChannelBase :
    ready.canStart = true ∧ ready.pending = [] ∧ ready.cfg.inService = true ∧ State.reset.canStart = true ∧
      State.reset.pending = [] ∧ State.reset.cfg.inService = false := by decide
theorem witness_RoundedDivisionIsNearest : 1 ≤ 2 ∧ 1 < 2 ∧ 2 ≤ 2 * 1 ∧ ¬ 2 ≤ 2 * 0 := by decide
theorem witness_TicksToNsFitsItsField : 1 ≤ (1 : ClkRate).toNat := by decide
theorem witness_TickRegisterAndRange :
    fits32 (178956970645 : Word64).toNat (24000000 : ClkRate).toNat = true ∧
      fits32 (178956970646 : Word64).toNat (24000000 : ClkRate).toNat = false := by decide
theorem witness_ConversionZeros : 1 ≤ 24000000 ∧ 20 * 24000000 < 500000000 ∧ ¬ 21 * 24000000 < 500000000 := by decide
theorem witness_ConversionsMonotone : 1 ≤ 24000000 ∧ 20 ≤ 21 := by decide
theorem witness_ExactConversions :
    1 ≤ 24000000 ∧ 1000000 * 24000000 = 24000 * 1000000000 ∧ 24000 * 1000000000 = 1000000 * 24000000 := by decide
theorem witness_RoundTripWithinUnit :
    1 ≤ (24000000 : ClkRate).toNat ∧ fits32 (1000000 : Word64).toNat (24000000 : ClkRate).toNat = true := by decide
theorem witness_StoredRateIsOperand : 0 < (0x7FFFFFFFFFFFFFFF : Word64).toInt ∧ ¬ 0 < (0x8000000000000000 : Word64).toInt := by
  decide
theorem witness_GetStateReportsRegisters :
    ready.canStart = true ∧ ready.pending = [] ∧ ready.accessible = true ∧ ready.cfg.clkRate ≠ 0 := by decide
theorem witness_ApplyAccessesInOrder :
    ready.canStart = true ∧ ready.pending = [] ∧ ready.accessible = true ∧ ready.window.wf = true := by decide
theorem witness_ApplyRegisterResult :
    ready.canStart = true ∧ ready.pending = [] ∧ ready.accessible = true ∧ ready.window.wf = true ∧
      ready.channelReg 2 .ctrl = 0x29 := by decide
theorem witness_ApplyRejectsPolarity : ready.canStart = true ∧ ready.pending = [] ∧ ready.cfg.inService = true := by decide
theorem witness_ApplyLeavesOtherChannels :
    ready.canStart = true ∧ ready.pending = [] ∧ ready.accessible = true ∧ ready.window.wf = true ∧
      blockOffset Config.bankAliased ready.cfg.variant 2 ≠ blockOffset Config.bankAliased ready.cfg.variant 3 := by decide
theorem witness_ApplyThenGetStateRoundTrip :
    ready.canStart = true ∧ ready.pending = [] ∧ ready.accessible = true ∧ ready.window.wf = true ∧
      ready.cfg.clkRate ≠ 0 ∧ fits32 (1000000 : Word64).toNat ready.cfg.clkRate.toNat = true ∧
      fits32 (250000 : Word64).toNat ready.cfg.clkRate.toNat = true := by decide
theorem witness_ControlChangeInBetweenIsLost :
    let s := readyWith [(0, ctxAt applyTwo 5)] []
    canonical Ctx.idle s.ports = true ∧ s.window.wf = true ∧ s.accessible = true ∧ (s.ctx 0).busy = true ∧
      decode (s.ctx 0).cmd = .ok (.apply 2 true .inversed 1000000 250000) ∧ (s.ctx 0).seq = 5 := by decide
theorem witness_ApplyUnderDeviceMoves :
    ∀ seq ∈ [(0 : BitVec 3), 5],
      let s := readyWith (otherPort seq) duty
      s.canStart = true ∧ s.accessible = true ∧ s.cfg.clkRate ≠ 0 ∧ s.window.wf = true ∧ s.portsFit = true ∧
        s.pending.all (Input.keepsDuty s.port applyTwo) = true ∧ s.serialised applyTwo = true := by decide
theorem witness_GetStateUnderDeviceMoves :
    ∀ seq ∈ [(0 : BitVec 3), 5],
      let s := readyWith (otherPort seq) duty
      s.canStart = true ∧ s.accessible = true ∧ s.cfg.clkRate ≠ 0 ∧ s.window.wf = true ∧ s.portsFit = true ∧
        s.pending.all (Input.keepsDuty s.port (.getState 2)) = true ∧ s.serialised (.getState 2) = true := by decide
theorem witness_InitBringsIntoService :
    ∀ rst ∈ [ResetLine.absent, .present],
      let s := unserved ⟨true, true, rst, true, 0x8040⟩
      s.canStart = true ∧ s.quiet = true ∧ s.pending = [] ∧ s.cfg.inService = false ∧ s.res = Res.none ∧
        s.env.mapOk = true ∧ s.env.clkOk = true ∧ s.env.rst ≠ .error ∧ s.env.regOk = true ∧
        0 < (24000000 : Word64).toInt ∧ baseMeetsDuty .flat 0x10000000 = true ∧
        Variant.flat.windowBytes ≤ s.env.windowBytes ∧ Variant.banked.windowBytes ≤ s.env.windowBytes := by decide
theorem witness_InitFailsAndUnwinds :
    (∀ e ∈ [(⟨false, true, .absent, true, 0x8040⟩ : Env), ⟨true, false, .absent, true, 0x8040⟩, ⟨true, true, .error, true, 0x8040⟩,
        ⟨true, true, .absent, false, 0x8040⟩, ⟨true, true, .present, false, 0x8040⟩],
      let s := unserved e
      s.canStart = true ∧ s.quiet = true ∧ s.pending = [] ∧ s.cfg.inService = false ∧ s.res = Res.none ∧
        s.mapped = 0 ∧ (s.env.mapOk = false ∨ s.env.clkOk = false ∨ s.env.rst = .error ∨ s.env.regOk = false)) ∧
      (0x8000000000000000 : Word64).toInt ≤ 0 ∧ (0 : Word64).toInt ≤ 0 := by decide
theorem witness_InitRefusesBadBase :
    (∀ x ∈ [(Variant.flat, (0xFFFFFFFFFFFFFF84 : Word64)), (.banked, 0xFFFFFFFFFFFF7FC4), (.flat, 2)],
      ¬ (x.2.toNat % 4 = 0 ∧ x.2.toNat + (if x.1 = .flat then 0x80 else 0x8040) ≤ 2 ^ 64)) ∧
      ∀ x ∈ [(Variant.flat, (0xFFFFFFFFFFFFFF80 : Word64), 0x7F), (.banked, 0xFFFFFFFFFFFF7FC0, 0x803F)],
        let s := unserved { allOk with windowBytes := x.2.2 }
        s.canStart = true ∧ s.quiet = true ∧ s.pending = [] ∧ s.cfg.inService = false ∧ s.env.mapOk = true ∧
          s.env.clkOk = true ∧ s.env.rst ≠ .error ∧ s.env.regOk = true ∧ 0 < (1 : Word64).toInt ∧
          x.2.1.toNat % 4 = 0 ∧ x.2.1.toNat + (if x.1 = .flat then 0x80 else 0x8040) ≤ 2 ^ 64 ∧
          s.env.windowBytes < (if x.1 = .flat then 0x80 else 0x8040) := by decide
theorem witness_TeardownReleases :
    ∀ rst ∈ [false, true],
      let s := { ready with res := ⟨true, true, rst, true⟩ }
      s.canStart = true ∧ s.quiet = true ∧ s.pending = [] ∧ s.cfg.inService = true ∧ s.window.wf = true ∧
        s.res.map = true ∧ s.res.clk = true ∧ s.res.reg = true := by decide
theorem witness_InitAfterTeardown :
    ready.canStart = true ∧ ready.quiet = true ∧ ready.pending = [] ∧ ready.cfg.inService = true ∧ ready.res.map = true ∧
      ready.res.clk = true ∧ ready.res.reg = true ∧ ready.env.mapOk = true ∧ ready.env.clkOk = true ∧
      ready.env.rst ≠ .error ∧ ready.env.regOk = true ∧ 0 < (1 : Word64).toInt ∧ baseMeetsDuty .banked 4 = true ∧
      Variant.banked.windowBytes ≤ ready.env.windowBytes := by decide
theorem witness_InitNeverTouchesRegisters :
    let s := unserved allOk
    s.canStart = true ∧ s.quiet = true ∧ s.pending = [] ∧
      (after State.port (exec (.init .flat 24000000 0x10000000) s)).isSome = true := by decide
theorem witness_WrongLifecycleStateAnswered :
    (ready.canStart = true ∧ ready.quiet = true ∧ ready.pending = [] ∧
        ready.cfg.inService ≠ requiredService (.init .flat 1 0)) ∧
      State.reset.canStart = true ∧ State.reset.quiet = true ∧ State.reset.pending = [] ∧
      ∀ i ∈ [Instr.teardown, .resolve 7, .getState 0, applyTwo], State.reset.cfg.inService ≠ requiredService i := by decide
theorem witness_ReservedCodeAnswered :
    ∀ hdr ∈ [(0x05 : BitVec 8), 0x0E, 0xFF],
      let s := readyWith [] [.command 0 ⟨hdr, 1, 2⟩]
      s.pending = [.command 0 ⟨hdr, 1, 2⟩] ∧ portExists 0 = true ∧ (s.ctx 0).busy = false ∧
        5 ≤ (Command.mk hdr 1 2).op.toNat := by decide
theorem witness_ErrorsHaveNoRegisterEffect :
    (ready.canStart = true ∧ ready.pending = [] ∧ ready.settled = true ∧
      after (fun t => t.trace.head?) (exec (.apply 2 true .normal 1 1) ready) =
        some (some (.response ready.port ⟨.unsupportedPolarity, 0, 0, false, false⟩))) ∧
      let s := unserved ⟨true, true, .present, false, 0x8040⟩
      s.canStart = true ∧ s.quiet = true ∧ s.pending = [] ∧ s.settled = true ∧
        after (fun t => t.trace.head?) (exec (.init .flat 1 0) s) =
          some (some (.response s.port ⟨.resourceFailure, 0, 0, false, false⟩)) := by decide
theorem witness_ServiceEnteredAndLeft :
    (unserved allOk).canStart = true ∧ (unserved allOk).quiet = true ∧ (unserved allOk).pending = [] ∧
      after (fun t => t.cfg.inService) (exec (.init .flat 1 0) (unserved allOk)) = some true ∧ ready.canStart = true ∧
      ready.quiet = true ∧ ready.pending = [] ∧ after (fun t => t.cfg.inService) (exec .teardown ready) = some false := by
  decide
theorem witness_ServiceChangesByLifecycleOrReset :
    (let s := { unserved allOk with pending := [.command 0 (encode (.init .flat 1 0))] }
     s.good = true ∧ s.cfg.inService = false ∧ after (fun t => t.cfg.inService) (step s) = some true) ∧
      (let s := { unserved allOk with
          res := ⟨true, true, false, false⟩, mapped := 0x8040
          ports := [(0, { Ctx.accepted (encode (.init .flat 1 0)) with seq := 5 })] }
       s.good = true ∧ s.cfg.inService = false ∧ after (fun t => t.cfg.inService) (step s) = some true) ∧
      (let s := readyWith [(0, Ctx.accepted (encode .teardown))] [.advance 0]
       s.good = true ∧ s.cfg.inService = true ∧ after (fun t => t.cfg.inService) (step s) = some false) ∧
      let s := readyWith [] [.reset]
      s.good = true ∧ s.cfg.inService = true ∧ after (fun t => t.cfg.inService) (resetInput s) = some false := by decide
theorem witness_ConfigurationConstantInService :
    let s := readyWith [] [.command 0 (encode applyTwo)]
    s.good = true ∧ s.cfg.inService = true ∧ after (fun t => t.cfg.inService) (step s) = some true := by decide
theorem witness_LifecycleOverlapRefused :
    (let s := readyWith [(1, ctxAt applyTwo 2)] []
     portExists s.port = true ∧ (s.ctx s.port).busy = false ∧ Instr.teardown.isLifecycle = true ∧ s.anyBusy = true) ∧
      let s := readyWith [(1, Ctx.accepted (encode .teardown))] []
      portExists s.port = true ∧ (s.ctx s.port).busy = false ∧ s.lifecycleInFlight = true := by decide
theorem witness_BusyPortAcceptsNothing :
    let s := readyWith [(0, ctxAt applyTwo 2)] []
    portExists s.port = true ∧ (s.ctx s.port).busy = true := by decide
theorem witness_ResetDuringRun :
    (let s := readyWith [(0, ctxAt applyTwo 2)] [.reset]
     s.pending = [.reset] ∧ s.window.wf = true ∧ s.anyBusy = true ∧ s.res.anyHeld = true) ∧
      (let s := readyWith [] [.reset]
       s.pending = [.reset] ∧ s.window.wf = true ∧ s.anyBusy = false) ∧
      let s := { State.reset with ports := [(0, Ctx.accepted (encode (.resolve 0)))], pending := [.reset] }
      s.pending = [.reset] ∧ s.window.wf = true ∧ s.res.anyHeld = false := by decide
theorem witness_DeviceChangesOnlyItsBits :
    let s := readyWith [] [.device (.secondary 3) .cntr 0x63]
    s.pending = [.device (.secondary 3) .cntr 0x63] ∧ s.window.wf = true := by decide
theorem witness_StepKeepsGood :
    let s := readyWith [(0, ctxAt applyTwo 3)] []
    s.good = true ∧ (after State.port (step s)).isSome = true := by decide
theorem witness_StepNeverFaults :
    (readyWith [(0, ctxAt applyTwo 5)] [.advance 0]).good = true ∧ State.reset.good = true := by decide
theorem witness_EveryOperationAnswered :
    ∀ i ∈ [Instr.init .flat 1 0, .teardown, .resolve 1, .getState 2, applyTwo],
      let s := readyWith [] duty
      s.good = true ∧ s.canStart = true ∧ s.quiet = true ∧ i.wellFormed = true ∧ windowMet i s.env = true ∧
        s.pending.all (Input.windowMet i) = true ∧ s.pending.all (Input.keepsDuty s.port i) = true := by decide
theorem witness_ExactlyOneResponse :
    let s := readyWith [] [.advance 0, .platform allOk, .command 0 ⟨0x05, 0, 0⟩]
    s.good = true ∧ s.canStart = true ∧ s.quiet = true ∧ s.pending.all (Input.keepsDuty s.port (.getState 2)) = true ∧
      (after State.port (exec (.getState 2) s)).isSome = true ∧ 1 ≠ s.port ∧
      s.pending.all (fun x => !x.concerns 1) = true := by decide
theorem witness_WholeOperationIsItsStatements :
    ready.canStart = true ∧ ready.quiet = true ∧ ready.pending = [] := by decide
theorem witness_DistinctChannelsCommute :
    let s := readyWith [(0, ctxAt applyTwo 1), (1, { ctxAt (.getState 3) 1 with cb := 0x10000030 })] []
    s.window.wf = true ∧ canonical Ctx.idle s.ports = true ∧ (s.ctx 0).busy = true ∧ (s.ctx 1).busy = true ∧
      ctxFits s (s.ctx 0) = true ∧ ctxFits s (s.ctx 1) = true ∧ decode (s.ctx 0).cmd = .ok applyTwo ∧
      decode (s.ctx 1).cmd = .ok (.getState 3) ∧
      blockOffset Config.bankAliased s.cfg.variant 2 ≠ blockOffset Config.bankAliased s.cfg.variant 3 ∧
      (after State.port (consumeAll [.advance 0, .advance 1] s)).isSome = true ∧
      (after State.port (consumeAll [.advance 1, .advance 0] s)).isSome = true := by decide

end Sys2Proof.Tests
end

/-! SUPPORT. What one statement, one input and one step can answer, each said once. -/

namespace Sys2Proof.Machine

/-! ### The record of an instruction -/

theorem header_op (pol bit6 : Bool) (ch : Channel) (op : BitVec 3) (a b : Word64) :
    (Command.mk (header pol bit6 ch op) a b).op = op := by
  simp only [Command.op]
  revert pol bit6 ch op; decide

theorem header_ch (pol bit6 : Bool) (ch : Channel) (op : BitVec 3) (a b : Word64) :
    (Command.mk (header pol bit6 ch op) a b).ch = ch := by
  simp only [Command.ch]
  revert pol bit6 ch op; decide

theorem header_bit6 (pol bit6 : Bool) (ch : Channel) (op : BitVec 3) (a b : Word64) :
    (Command.mk (header pol bit6 ch op) a b).bit6 = bit6 := by
  simp only [Command.bit6]
  revert pol bit6 ch op; decide

theorem header_bit7 (pol bit6 : Bool) (ch : Channel) (op : BitVec 3) (a b : Word64) :
    (Command.mk (header pol bit6 ch op) a b).bit7 = pol := by
  simp only [Command.bit7]
  revert pol bit6 ch op; decide

/-- The decoder reads back the instruction a record was written from (30_encoding.md R98). -/
theorem decode_encode (i : Instr) : decode (encode i) = .ok i := by
  cases i with
  | init var clk base => cases var <;> simp [encode, decode, header_op, header_bit6, Variant.bit, Variant.ofBit]
  | teardown => simp [encode, decode, header_op]
  | resolve ch => simp [encode, decode, header_op, header_ch]
  | getState ch => simp [encode, decode, header_op, header_ch]
  | apply ch en pol period duty =>
    cases pol <;>
      simp [encode, decode, header_op, header_ch, header_bit6, header_bit7, Polarity.bit, Polarity.ofBit]

theorem isLifecycle_of_decode {c : Command} {i : Instr} (h : decode c = .ok i) : c.isLifecycle = i.isLifecycle := by
  simp [Command.isLifecycle, h]

/-! ### Contexts and the flags that look at all of them -/

theorem ctx_congr {s t : State} (h : t.ports = s.ports) (q : Nat) : t.ctx q = s.ctx q := by
  simp only [State.ctx, h]

theorem anyBusy_of_busy {s : State} {q : Nat} (h : (s.ctx q).busy = true) : s.anyBusy = true :=
  List.any_eq_true.2 ⟨_, mem_ports_of_busy h, h⟩

theorem ctx_respond_same {s : State} {p : Nat} {r : Response} (h : canonical Ctx.idle s.ports = true) :
    (s.respond p r).ctx p = Ctx.idle := ctx_setCtx_same (c := Ctx.idle) h

theorem ctx_respond_other {s : State} {p q : Nat} {r : Response} (h : canonical Ctx.idle s.ports = true) (hq : q ≠ p) :
    (s.respond p r).ctx q = s.ctx q := ctx_setCtx_other (c := Ctx.idle) h hq

/-- The first busy port is busy. -/
theorem busy_of_firstBusy {s : State} {p : Nat} (hw : canonical Ctx.idle s.ports = true) (h : s.firstBusy = some p) :
    (s.ctx p).busy = true := by
  simp only [State.firstBusy, Option.map_eq_some_iff] at h
  obtain ⟨e, he, rfl⟩ := h
  rw [show s.ctx e.1 = e.2 from lookup_of_mem hw (List.mem_of_find?_eq_some he)]
  simpa using List.find?_some he

/-! ### One statement and one advance -/

/-- What running one statement can answer. -/
theorem runStatement_next {stmt : Statement} {p : Nat} {s t : State} (h : runStatement stmt p s = .next t) :
    (∃ c s', stmt p (s.ctx p) s = .goes c s' ∧ t = s'.setCtx p c) ∨
      ∃ r s', stmt p (s.ctx p) s = .answers r s' ∧ t = s'.respond p r := by
  unfold runStatement at h
  split at h <;> cases h
  · exact .inl ⟨_, _, ‹_›, rfl⟩
  · exact .inr ⟨_, _, ‹_›, rfl⟩

theorem runStatement_goes {stmt : Statement} {p : Nat} {s s' : State} {c c' : Ctx} (hc : s.ctx p = c)
    (h : stmt p c s = .goes c' s') : runStatement stmt p s = .next (s'.setCtx p c') := by
  simp only [runStatement, hc, h]

theorem runStatement_answers {stmt : Statement} {p : Nat} {s s' : State} {c : Ctx} {r : Response} (hc : s.ctx p = c)
    (h : stmt p c s = .answers r s') : runStatement stmt p s = .next (s'.respond p r) := by
  simp only [runStatement, hc, h]

theorem advance_idle {p : Nat} {s : State} (h : (s.ctx p).busy = false) : advance p s = .next s := by
  simp [advance, h]

theorem advance_busy {p : Nat} {s : State} {i : Instr} (hb : (s.ctx p).busy = true)
    (hd : decode (s.ctx p).cmd = .ok i) : advance p s = runStatement (statementOf i) p s := by
  simp [advance, hb, hd]

theorem advance_reserved {p : Nat} {s : State} {e : DecodeError} (hb : (s.ctx p).busy = true)
    (hd : decode (s.ctx p).cmd = .error e) : advance p s = .next (s.respond p (Response.only .illegalCommand)) := by
  simp [advance, hb, hd]

/-! ### One input -/

theorem offer_operation {p : Nat} {c : Command} {i : Instr} (h : decode c = .ok i) (s : State) :
    offer p c s = accept p i c s := by simp [offer, h]

theorem offer_reserved {p : Nat} {c : Command} {e : DecodeError} (h : decode c = .error e) (s : State) :
    offer p c s = rejectReserved p s := by simp [offer, h]

/-- What the rejection of a reserved command can answer. -/
theorem rejectReserved_next {p : Nat} {s t : State} (h : rejectReserved p s = .next t) :
    t = s ∨ t = s.log (.response p (Response.only .illegalCommand)) := by
  unfold rejectReserved at h
  split at h
  · split at h <;> cases h
    · exact .inl rfl
    · exact .inr rfl
  · cases h

/-- What the block's reset can answer (70_reset_and_hazards.md R220, R222). -/
theorem resetInput_next {s t : State} (h : resetInput s = .next t) :
    (s.anyBusy = true → s.res.anyHeld = false) ∧ t = s.resetBlock := by
  unfold resetInput at h
  split at h <;> cases h
  rename_i hn
  exact ⟨fun hb => by simpa [hb] using hn, rfl⟩

/-! ### A whole operation -/

/-- What a whole operation can answer: the state as it was from a busy port, or the run from the latched command. -/
theorem exec_next {i : Instr} {s t : State} (h : exec i s = .next t) :
    (s.ctx s.port).busy = true ∧ t = s ∨
      accept s.port i (encode i) s = .next (s.setCtx s.port (Ctx.accepted (encode i))) ∧
        (s.ctx s.port).busy = false ∧ runInputs (statementOf i) s.port s.pending
          { s.setCtx s.port (Ctx.accepted (encode i)) with pending := [] } = .next t := by
  rw [exec_eq_runOperation, runOperation] at h
  split at h
  · cases h
    exact .inl ⟨by simp_all, rfl⟩
  · rename_i hn
    split at h
    · rename_i s' ha
      obtain ⟨he, ⟨hb, -⟩ | ⟨hb, -, -, rfl⟩⟩ := accept_next ha
      · simp [hb, he] at hn
      · exact .inr ⟨ha, hb, h⟩
    · cases h
    · cases h

/-- While port `p` has the operation `i` latched, running it with inputs in between is taking inputs one by one, so what
every input keeps the run keeps (60_exceptions.md R209). -/
theorem runInputs_keeps {i : Instr} {p : Nat} {P : State → Prop}
    (hlatched : ∀ s, P s → (s.ctx p).busy = true → decode (s.ctx p).cmd = .ok i)
    (hinput : ∀ x s t, P s → (s.ctx p).busy = true → consume x s = .next t → P t)
    (hpending : ∀ s l, P s → P { s with pending := l }) {xs : List Input} {s t : State} (hs : P s)
    (h : runInputs (statementOf i) p xs s = .next t) : P t := by
  have hstmt : ∀ {s t}, P s → (s.ctx p).busy = true → runStatement (statementOf i) p s = .next t → P t :=
    fun hs hb h => hinput (.advance p) _ _ hs hb ((advance_busy hb (hlatched _ hs hb)).trans h)
  have halone : ∀ n {s}, P s → runAlone (statementOf i) p n s = .next t → P t := by
    intro n
    induction n with
    | zero =>
      intro s hs h
      unfold runAlone at h
      split at h <;> cases h
      exact hs
    | succ n ih =>
      intro s hs h
      unfold runAlone at h
      split at h
      · split at h
        · exact ih (hstmt hs ‹_› ‹_›) h
        · cases h
        · cases h
      · cases h
        exact hs
  induction xs generalizing s with
  | nil => exact halone maxStatements hs h
  | cons x xs ih =>
    unfold runInputs at h
    split at h
    · rename_i hb
      split at h
      · rename_i s' hx
        refine ih ?_ h
        split at hx
        · split at hx
          · exact hstmt hs hb hx
          · exact hinput (.advance _) _ _ hs hb hx
        · exact hinput _ _ _ hs hb hx
      · cases h
      · cases h
    · cases h
      exact hpending _ _ hs

/-! ### One step -/

/-- What a step can be: a wait, the next statement of the lowest busy port, a whole operation, or one input. -/
inductive StepRuns (s t : State) : Prop
  | waits (h : s.pending = []) (ht : t = s)
  | resumes (p : Nat) (h : s.pending = []) (hp : s.firstBusy = some p) (ht : advance p s = .next t)
  | operation (p : Nat) (c : Command) (rest : List Input) (i : Instr) (h : s.pending = .command p c :: rest)
      (hc : decode c = .ok i) (ht : exec i { s with pending := rest, port := p } = .next t)
  | input (x : Input) (rest : List Input) (h : s.pending = x :: rest)
      (ht : consume x { s with pending := rest } = .next t)

theorem step_next {s t : State} (h : step s = .next t) : StepRuns s t := by
  unfold step at h
  split at h
  · rename_i hp
    unfold idleStep at h
    split at h
    · exact .resumes _ hp ‹_› h
    · cases h
      exact .waits hp rfl
  · rename_i p c rest hp
    unfold runCommand at h
    split at h
    · exact .operation p c rest _ hp ‹_› h
    · exact .input _ _ hp ((offer_reserved ‹_› _).trans h)
  · exact .input _ _ ‹_› h

/-- A step whose next input is no command takes that input. -/
theorem step_advance {s : State} {p : Nat} {rest : List Input} (h : s.pending = .advance p :: rest) :
    step s = advance p { s with pending := rest } := by
  simp [step, h, consume]

theorem step_device {s : State} {b : Block} {r : Reg} {v : Word32} {rest : List Input}
    (h : s.pending = .device b r v :: rest) : step s = .next (deviceMove b r v { s with pending := rest }) := by
  simp [step, h, consume]

end Sys2Proof.Machine

/-! SUPPORT. The invariant read port by port, and that every input keeps it (10_state.md R38, R41;
70_reset_and_hazards.md R231). -/

namespace Sys2Proof.Machine

/-- The invariant of the machine, said of each port's context instead of the list of contexts. -/
structure State.Sound (s : State) : Prop where
  wf : s.window.wf = true
  canonical : canonical Ctx.idle s.ports = true
  idle : ∀ q, (s.ctx q).busy = false → s.ctx q = Ctx.idle
  fits : ∀ q, (s.ctx q).busy = true → ctxFits s (s.ctx q) = true
  exist : ∀ q, (s.ctx q).busy = true → portExists q = true
  alone : ∀ q, (s.ctx q).busy = true → (s.ctx q).cmd.isLifecycle = true → ∀ q', (s.ctx q').busy = true → q' = q
  settled : (∀ q, (s.ctx q).busy = false) → s.settled = true

theorem ctx_of_mem {s : State} (hw : canonical Ctx.idle s.ports = true) {e : Nat × Ctx} (he : e ∈ s.ports) :
    s.ctx e.1 = e.2 := lookup_of_mem hw he

theorem ne_of_mem_canonical {α : Type} [DecidableEq α] {d : α} {l : List (Nat × α)} (h : canonical d l = true)
    {e : Nat × α} (he : e ∈ l) : e.2 ≠ d := by
  induction l with
  | nil => cases he
  | cons a l ih =>
    simp only [canonical, Bool.and_eq_true, decide_eq_true_eq] at h
    rcases List.mem_cons.1 he with rfl | hm
    · exact h.1.1
    · exact ih h.2 hm

/-- In a canonical list whose entries are all busy, the lifecycle operation is alone exactly when no other port is
busy. -/
theorem lifecycleAlone_iff {s : State} (hw : canonical Ctx.idle s.ports = true) (hb : ∀ e ∈ s.ports, e.2.busy = true) :
    s.lifecycleAlone = true ↔
      ∀ q, (s.ctx q).busy = true → (s.ctx q).cmd.isLifecycle = true → ∀ q', (s.ctx q').busy = true → q' = q := by
  simp only [State.lifecycleAlone, Bool.or_eq_true, Bool.not_eq_true', decide_eq_true_eq]
  constructor
  · rintro (hn | hl) q hq hlc q' hq'
    · exact absurd ((lifecycleInFlight_iff hw).2 ⟨q, hq, hlc⟩) (by simp [hn])
    · obtain ⟨e, he⟩ := List.length_eq_one_iff.1 hl
      have h := mem_ports_of_busy hq
      have h' := mem_ports_of_busy hq'
      simp only [he, List.mem_singleton] at h h'
      exact congrArg Prod.fst (h'.trans h.symm)
  · intro h
    cases hn : s.lifecycleInFlight with
    | false => exact .inl rfl
    | true =>
      obtain ⟨q, hq, hlc⟩ := (lifecycleInFlight_iff hw).1 hn
      have hall : ∀ e ∈ s.ports, e.1 = q := fun e he =>
        h q hq hlc e.1 (by rw [ctx_of_mem hw he]; exact hb e he)
      refine .inr ?_
      match hp : s.ports with
      | [] => have := mem_ports_of_busy hq; simp [hp] at this
      | [e] => rfl
      | a :: b :: l =>
        rw [hp] at hall hw
        simp only [Machine.canonical, keysAbove, List.all_cons, Bool.and_eq_true, decide_eq_true_eq] at hw
        have ha := hall a (by simp)
        have hb := hall b (by simp)
        omega

theorem good_iff_sound (s : State) : s.good = true ↔ s.Sound := by
  simp only [State.good, State.portsFit, State.portsExist, Bool.and_eq_true, Bool.or_eq_true, decide_eq_true_eq,
    List.all_eq_true]
  constructor
  · rintro ⟨⟨⟨⟨⟨hwf, hw⟩, hfit⟩, hex⟩, halone⟩, hset⟩
    refine ⟨hwf, hw, fun q hq => ?_, fun q hq => (hfit _ (mem_ports_of_busy hq)).2,
      fun q hq => hex _ (mem_ports_of_busy hq), (lifecycleAlone_iff hw fun e he => (hfit e he).1).1 halone,
      fun hq => ?_⟩
    · rcases lookup_mem_or (d := Ctx.idle) q s.ports with h | h
      · exact absurd (hfit _ h).1 (by simpa [State.ctx] using hq)
      · exact h
    · refine hset.resolve_left fun hne => ?_
      obtain ⟨e, he⟩ := List.exists_mem_of_ne_nil _ hne
      have := hq e.1
      rw [ctx_of_mem hw he, (hfit e he).1] at this
      cases this
  · rintro ⟨hwf, hw, hidle, hfits, hexist, halone, hset⟩
    have hne : ∀ e ∈ s.ports, e.2.busy = true := fun e he => by
      cases hb : e.2.busy with
      | true => rfl
      | false =>
        have hi := hidle e.1 (by rw [ctx_of_mem hw he, hb])
        exact absurd ((ctx_of_mem hw he).symm.trans hi) (ne_of_mem_canonical hw he)
    have hctx : ∀ e ∈ s.ports, (s.ctx e.1).busy = true := fun e he => by rw [ctx_of_mem hw he]; exact hne e he
    refine ⟨⟨⟨⟨⟨hwf, hw⟩, fun e he => ⟨hne e he, ?_⟩⟩, fun e he => hexist _ (hctx e he)⟩,
      (lifecycleAlone_iff hw hne).2 halone⟩, ?_⟩
    · have := hfits _ (hctx e he)
      rwa [ctx_of_mem hw he] at this
    · by_cases hp : s.ports = []
      · exact .inr (hset fun q => by simp [State.ctx, hp, Ctx.idle])
      · exact .inl hp

/-! ### What the fitting contexts say of the state -/

theorem ctxFits_accepted {s : State} {c : Command} {i : Instr} (hs : s.settled = true) (hd : decode c = .ok i) :
    ctxFits s (Ctx.accepted c) = true := by
  cases i <;> simp [ctxFits, hd, Ctx.accepted, Ctx.idle, initInFlight, teardownInFlight, hs]

/-- Past its first statement INIT runs out of service (44_lifecycle.md R172). -/
theorem settled_of_initInFlight {n : Nat} {s : State} (h : initInFlight n s = true) (hin : s.cfg.inService = true) :
    s.settled = true := by
  unfold initInFlight at h
  split at h
  · exact h
  all_goals simp [hin] at h

/-- So does TEARDOWN (44_lifecycle.md R177). -/
theorem settled_of_teardownInFlight {n : Nat} {s : State} (h : teardownInFlight n s = true)
    (hin : s.cfg.inService = true) : s.settled = true := by
  unfold teardownInFlight at h
  split at h
  · exact h
  all_goals simp [hin] at h

theorem settled_of_ctxFits {s : State} {c : Ctx} {i : Instr} (hf : ctxFits s c = true) (hd : decode c.cmd = .ok i)
    (h : i.isLifecycle = false ∨ s.cfg.inService = true) : s.settled = true := by
  simp only [ctxFits, hd] at hf
  cases i with
  | init var clk base =>
    simp only [Bool.and_eq_true] at hf
    exact settled_of_initInFlight hf.1 (h.resolve_left (by simp [Instr.isLifecycle]))
  | teardown => exact settled_of_teardownInFlight hf (h.resolve_left (by simp [Instr.isLifecycle]))
  | resolve ch =>
    simp only [Bool.and_eq_true] at hf
    exact hf.1
  | getState ch =>
    simp only [Bool.and_eq_true] at hf
    obtain ⟨⟨hs, -⟩, -⟩ := hf
    exact hs
  | apply ch en pol period duty =>
    simp only [Bool.and_eq_true] at hf
    obtain ⟨⟨hs, -⟩, -⟩ := hf
    exact hs

namespace State.Sound

variable {s t : State}

/-- A change of anything but the configuration, the resources, the contexts and the form of the window. -/
theorem of_same (h : s.Sound) (hp : t.ports = s.ports) (hc : t.cfg = s.cfg) (hr : t.res = s.res)
    (hm : t.mapped = s.mapped) (hw : t.window.wf = true) : t.Sound where
  wf := hw
  canonical := hp ▸ h.canonical
  idle q := by simpa only [ctx_congr hp] using h.idle q
  fits q := by simpa only [ctx_congr hp, ctxFits_congr hc hr hm] using h.fits q
  exist q := by simpa only [ctx_congr hp] using h.exist q
  alone := by simpa only [ctx_congr hp] using h.alone
  settled := by simpa only [ctx_congr hp, settled_congr hc hr hm] using h.settled

/-- Outside INIT and TEARDOWN, and always in service, the block is settled (10_state.md R41). -/
theorem settled_of_no_lifecycle (h : s.Sound) (hl : s.lifecycleInFlight = false ∨ s.cfg.inService = true) :
    s.settled = true := by
  by_cases hb : ∃ q, (s.ctx q).busy = true
  · obtain ⟨q, hq⟩ := hb
    obtain ⟨i, hd⟩ := decodes_of_ctxFits (h.fits q hq)
    refine settled_of_ctxFits (h.fits q hq) hd (hl.imp_left fun hn => ?_)
    rw [← isLifecycle_of_decode hd, ← Bool.not_eq_true]
    intro hc
    rw [(lifecycleInFlight_iff h.canonical).2 ⟨q, hq, hc⟩] at hn
    cases hn
  · exact h.settled fun q => by simpa using fun hq => hb ⟨q, hq⟩

/-- The context of one port is replaced, by that of a free port or by one that fits, and no other operation overlaps an
INIT or TEARDOWN (70_reset_and_hazards.md R231). -/
theorem replaceCtx (h : s.Sound) {p : Nat} {c : Ctx} (hp : t.ports = update Ctx.idle p c s.ports)
    (hwf : t.window.wf = true)
    (hnew : c = Ctx.idle ∧ t.settled = true ∨ c.busy = true ∧ ctxFits t c = true ∧ portExists p = true)
    (hfits : ∀ q, q ≠ p → (s.ctx q).busy = true → ctxFits t (s.ctx q) = true)
    (hov : c.busy = true → ∀ q, q ≠ p → (s.ctx q).busy = true →
      c.cmd.isLifecycle = false ∧ (s.ctx q).cmd.isLifecycle = false) : t.Sound := by
  have hsame : t.ctx p = c := (ctx_congr (s := s.setCtx p c) hp p).trans (ctx_setCtx_same h.canonical)
  have hother : ∀ q, q ≠ p → t.ctx q = s.ctx q := fun q hq =>
    (ctx_congr (s := s.setCtx p c) hp q).trans (ctx_setCtx_other h.canonical hq)
  have hfree : c.busy = false → c = Ctx.idle ∧ t.settled = true := fun hb => hnew.resolve_right (by simp [hb])
  have hbusy : c.busy = true → ctxFits t c = true ∧ portExists p = true := fun hb =>
    (hnew.resolve_left fun ⟨hc, _⟩ => by simp [hc, Ctx.idle] at hb).2
  refine ⟨hwf, hp ▸ canonical_update h.canonical, fun q => ?_, fun q => ?_, fun q => ?_, fun q hq hc q' hq' => ?_,
    fun hn => ?_⟩
  · by_cases hqp : q = p
    · subst hqp
      rw [hsame]
      exact fun hb => (hfree hb).1
    · rw [hother q hqp]; exact h.idle q
  · by_cases hqp : q = p
    · subst hqp
      rw [hsame]
      exact fun hb => (hbusy hb).1
    · rw [hother q hqp]; exact hfits q hqp
  · by_cases hqp : q = p
    · subst hqp
      rw [hsame]
      exact fun hb => (hbusy hb).2
    · rw [hother q hqp]; exact h.exist q
  · by_contra hne
    by_cases hqp : q = p
    · subst hqp
      rw [hsame] at hq hc
      rw [hother q' hne] at hq'
      simp [(hov hq q' hne hq').1] at hc
    · rw [hother q hqp] at hq hc
      by_cases hqp' : q' = p
      · subst hqp'
        rw [hsame] at hq'
        simp [(hov hq' q hqp hq).2] at hc
      · rw [hother q' hqp'] at hq'
        exact hne (h.alone q hq hc q' hq')
  · have hb := hn p
    rw [hsame] at hb
    exact (hfree hb).2

/-- Acceptance keeps the invariant (10_state.md R38). -/
theorem accept (h : s.Sound) {p : Nat} {i : Instr} {c : Command} (hd : decode c = .ok i)
    (ha : Machine.accept p i c s = .next t) : t.Sound := by
  obtain ⟨he, ⟨-, rfl⟩ | ⟨-, hq, hl, rfl⟩⟩ := accept_next ha
  · exact h
  have hfit : ctxFits s (Ctx.accepted c) = true := ctxFits_accepted (h.settled_of_no_lifecycle (.inl hl)) hd
  refine h.replaceCtx rfl h.wf (.inr ⟨rfl, hfit, he⟩) (fun q _ => h.fits q) fun _ q _ hb => ⟨?_, ?_⟩
  · show c.isLifecycle = false
    rw [isLifecycle_of_decode hd]
    simpa [anyBusy_of_busy hb] using hq
  · rw [← Bool.not_eq_true]
    intro hc
    rw [(lifecycleInFlight_iff h.canonical).2 ⟨q, hb, hc⟩] at hl
    cases hl

/-- A statement of a latched operation keeps the invariant. -/
theorem statement (h : s.Sound) {p : Nat} {i : Instr} (hb : (s.ctx p).busy = true) (hd : decode (s.ctx p).cmd = .ok i)
    (hr : runStatement (statementOf i) p s = .next t) : t.Sound := by
  have hok := statementOf_ok i p (s.ctx p) s hd (h.fits p hb)
  have hk := statementOf_keeps i p (s.ctx p) s
  have hapart : ∀ q, q ≠ p → (s.ctx q).busy = true →
      (s.ctx p).cmd.isLifecycle = false ∧ (s.ctx q).cmd.isLifecycle = false := by
    refine fun q hne hq => ⟨?_, ?_⟩ <;> rw [← Bool.not_eq_true] <;> intro hc
    · exact hne (h.alone p hb hc q hq)
    · exact hne (h.alone q hq hc p hb).symm
  have hothers : ∀ s' : State, (i.isLifecycle = true ∨ (s'.cfg = s.cfg ∧ s'.res = s.res ∧ s'.mapped = s.mapped)) →
      ∀ q, q ≠ p → (s.ctx q).busy = true → ctxFits s' (s.ctx q) = true := by
    intro s' hsame q hne hq
    have hi : i.isLifecycle ≠ true := by
      rw [← isLifecycle_of_decode hd, (hapart q hne hq).1]
      exact Bool.false_ne_true
    obtain ⟨hc, hr, hm⟩ := hsame.resolve_left hi
    exact (ctxFits_congr hc hr hm _).trans (h.fits q hq)
  obtain ⟨c', s', hst, rfl⟩ | ⟨r, s', hst, rfl⟩ := runStatement_next hr
  · rw [hst] at hok hk
    obtain ⟨hfit, hsame⟩ := hok
    obtain ⟨⟨hp, -, -, -, hwf⟩, hbusy, hcmd, -⟩ := hk
    exact h.replaceCtx (by rw [setCtx_ports, hp]) (hwf h.wf) (.inr ⟨hbusy.trans hb, hfit, h.exist p hb⟩)
      (hothers s' hsame) fun _ => hcmd.symm ▸ hapart
  · rw [hst] at hok hk
    obtain ⟨hset, hsame⟩ := hok
    obtain ⟨hp, -, -, -, hwf⟩ := hk
    exact h.replaceCtx (by rw [respond_ports, hp]) (hwf h.wf) (.inl ⟨rfl, hset⟩) (hothers s' hsame) nofun

/-- Every input keeps the invariant. -/
theorem consume (h : s.Sound) (x : Input) (hx : Machine.consume x s = .next t) : t.Sound := by
  cases x with
  | command p c =>
    cases hd : decode c with
    | ok i => exact h.accept hd ((offer_operation hd s).symm.trans hx)
    | error e =>
      obtain rfl | rfl := rejectReserved_next ((offer_reserved hd s).symm.trans hx)
      · exact h
      · exact h.of_same rfl rfl rfl rfl h.wf
  | advance p =>
    cases hb : (s.ctx p).busy with
    | false =>
      cases (advance_idle hb).symm.trans hx
      exact h
    | true =>
      obtain ⟨i, hd⟩ := decodes_of_ctxFits (h.fits p hb)
      exact h.statement hb hd ((advance_busy hb hd).symm.trans hx)
  | device b r v =>
    cases hx
    exact h.of_same rfl rfl rfl rfl (write32_wf h.wf)
  | platform e =>
    cases hx
    exact h.of_same rfl rfl rfl rfl h.wf
  | reset =>
    obtain ⟨-, rfl⟩ := resetInput_next hx
    exact ⟨scramble_wf h.wf _, rfl, fun _ _ => rfl, nofun, nofun, nofun, fun _ => rfl⟩

theorem setPending (h : s.Sound) (l : List Input) (p : Nat) : ({ s with pending := l, port := p } : State).Sound :=
  h.of_same rfl rfl rfl rfl h.wf

/-- The port that runs the operation `i` has it latched as long as it is busy: a busy port takes no command and its
statements leave the record (10_state.md R21, R38). -/
theorem latched (h : s.Sound) {p : Nat} {i : Instr} (hb : (s.ctx p).busy = true) (hd : decode (s.ctx p).cmd = .ok i)
    (x : Input) (hx : Machine.consume x s = .next t) (hb' : (t.ctx p).busy = true) :
    decode (t.ctx p).cmd = .ok i := by
  cases x with
  | command q c =>
    cases hc : decode c with
    | ok j =>
      obtain ⟨-, ⟨-, rfl⟩ | ⟨hq, -, -, rfl⟩⟩ := accept_next ((offer_operation hc s).symm.trans hx)
      · exact hd
      · have hne : p ≠ q := by rintro rfl; rw [hb] at hq; cases hq
        rwa [ctx_setCtx_other h.canonical hne]
    | error e =>
      obtain rfl | rfl := rejectReserved_next ((offer_reserved hc s).symm.trans hx)
      · exact hd
      · exact hd
  | advance q =>
    cases hq : (s.ctx q).busy with
    | false =>
      cases (advance_idle hq).symm.trans hx
      exact hd
    | true =>
      obtain ⟨j, hj⟩ := decodes_of_ctxFits (h.fits q hq)
      obtain ⟨hother, hown⟩ := runStatement_ctx h.canonical ((advance_busy hq hj).symm.trans hx)
      by_cases hpq : p = q
      · subst hpq
        obtain hi | ⟨-, hcmd, -⟩ := hown
        · rw [hi] at hb'; cases hb'
        · rwa [hcmd]
      · rwa [hother p hpq]
  | device b r v => cases hx; exact hd
  | platform e => cases hx; exact hd
  | reset =>
    obtain ⟨-, rfl⟩ := resetInput_next hx
    cases hb'

/-- What every input keeps of a sound state in which port `p` has the operation `i` latched, the whole operation keeps
from its acceptance on. -/
theorem exec_keeps {P : State → Prop} {i : Instr} (h : s.Sound)
    (hstart : (s.ctx s.port).busy = false → P (s.setCtx s.port (Ctx.accepted (encode i))))
    (hinput : ∀ x u v, u.Sound → P u → (u.ctx s.port).busy = true → decode (u.ctx s.port).cmd = .ok i →
      Machine.consume x u = .next v → P v)
    (hpending : ∀ u l, P u → P { u with pending := l }) (ht : exec i s = .next t) :
    t = s ∨ t.Sound ∧ P t := by
  obtain ⟨-, rfl⟩ | ⟨ha, hidle, hrun⟩ := exec_next ht
  · exact .inl rfl
  refine .inr ?_
  have hsound := h.accept (decode_encode i) ha
  have hkey := runInputs_keeps (i := i) (p := s.port)
    (P := fun u => (u.Sound ∧ P u) ∧ ((u.ctx s.port).busy = true → decode (u.ctx s.port).cmd = .ok i))
    (fun u hu => hu.2)
    (fun x u v hu hb hx => ⟨⟨hu.1.1.consume x hx, hinput x u v hu.1.1 hu.1.2 hb (hu.2 hb) hx⟩,
      hu.1.1.latched hb (hu.2 hb) x hx⟩)
    (fun u l hu => ⟨⟨hu.1.1.setPending l u.port, hpending u l hu.1.2⟩, hu.2⟩)
    (xs := s.pending) (t := t) ?_ hrun
  · exact hkey.1
  · refine ⟨⟨hsound.setPending [] _, hpending _ _ (hstart hidle)⟩, fun _ => ?_⟩
    show decode ((s.setCtx s.port (Ctx.accepted (encode i))).ctx s.port).cmd = .ok i
    rw [ctx_setCtx_same h.canonical]
    exact decode_encode i

end State.Sound

end Sys2Proof.Machine

/-! SUPPORT. How the configuration can change: by the capture of an INIT, by a TEARDOWN, by the block's reset
(10_state.md R23; 60_exceptions.md R204), and the invariant of every step. -/

namespace Sys2Proof.Machine

/-- Settles O50: every input keeps the invariant, and a step is a run of inputs. -/
theorem stepKeepsGood : Obligations.StepKeepsGood := by
  unfold Obligations.StepKeepsGood
  intro s t hg ht
  have hs := (good_iff_sound s).1 hg
  refine (good_iff_sound t).2 ?_
  cases step_next ht with
  | waits _ ht => exact ht ▸ hs
  | resumes p _ _ ht => exact hs.consume (.advance p) ht
  | operation p c rest i _ _ ht =>
    have hs' := hs.setPending rest p
    rcases hs'.exec_keeps (P := fun _ => True) (fun _ => trivial) (fun _ _ _ _ _ _ _ _ => trivial)
      (fun _ _ _ => trivial) ht with rfl | ⟨h, -⟩
    · exact hs'
    · exact h
  | input x rest _ ht => exact (hs.setPending rest s.port).consume x ht

/-- How the configuration can change from `c` while the operation `i` runs. -/
inductive CfgMove (i : Instr) (c : Cfg) : Cfg → Prop
  | same : CfgMove i c c
  | staysOut {c' : Cfg} (h : c.inService = false) (h' : c'.inService = false) : CfgMove i c c'
  | captures {var : Variant} {clk base : Word64} (h : c.inService = false) (hi : i = .init var clk base) :
    CfgMove i c ⟨true, storedRate clk, var, base⟩
  | leaves {c' : Cfg} (h : c'.inService = false) (hi : i = .teardown) : CfgMove i c c'

namespace CfgMove

variable {i j : Instr} {c c' c'' : Cfg}

theorem trans (h : CfgMove i c c') (h' : CfgMove i c' c'') : CfgMove i c c'' := by
  cases h' with
  | same => exact h
  | staysOut hc hc' =>
    cases h with
    | same => exact .staysOut hc hc'
    | staysOut hs _ => exact .staysOut hs hc'
    | captures _ _ => cases hc
    | leaves _ hi => exact .leaves hc' hi
  | captures hc hi =>
    cases h with
    | same => exact .captures hc hi
    | staysOut hs _ => exact .captures hs hi
    | captures _ _ => cases hc
    | leaves _ hi' => rw [hi'] at hi; cases hi
  | leaves hc hi => exact .leaves hc hi

/-- An operation beside INIT and TEARDOWN changes nothing that another operation could not. -/
theorem of_not_lifecycle (hj : j.isLifecycle = false) (h : CfgMove j c c') : CfgMove i c c' := by
  cases h with
  | same => exact .same
  | staysOut h h' => exact .staysOut h h'
  | captures _ hi => rw [hi] at hj; cases hj
  | leaves _ hi => rw [hi] at hj; cases hj

/-- From in service to in service nothing changes (10_state.md R23). -/
theorem eq_of_inService (h : CfgMove i c c') (hc : c.inService = true) (hc' : c'.inService = true) : c' = c := by
  cases h with
  | same => rfl
  | staysOut h _ => rw [h] at hc; cases hc
  | captures h _ => rw [h] at hc; cases hc
  | leaves h _ => rw [h] at hc'; cases hc'

/-- The two changes of service (60_exceptions.md R204). -/
theorem of_service_ne (h : CfgMove i c c') (hne : c'.inService ≠ c.inService) :
    (∃ var clk base, i = .init var clk base ∧ c' = ⟨true, storedRate clk, var, base⟩) ∨
      c'.inService = false ∧ i = .teardown := by
  cases h with
  | same => exact absurd rfl hne
  | staysOut h h' => exact absurd (h'.trans h.symm) hne
  | captures _ hi => exact .inl ⟨_, _, _, hi, rfl⟩
  | leaves h hi => exact .inr ⟨h, hi⟩

end CfgMove

/-! ### Statements -/

/-- A statement of INIT captures its operands, out of service, or leaves the configuration. -/
theorem initStatement_cfg {var : Variant} {clk base : Word64} {p : Nat} {c : Ctx} {s : State}
    (hout : c.seq.toNat = 5 → s.cfg.inService = false) :
    (initStatement var clk base p c s).Keeps (fun t => CfgMove (.init var clk base) s.cfg t.cfg) c := by
  have hgo : ∀ s' : State, s'.cfg = s.cfg →
      (Progress.goes c.next s').Keeps (fun t => CfgMove (.init var clk base) s.cfg t.cfg) c :=
    fun s' h => ⟨h ▸ .same, rfl, rfl, rfl⟩
  have hraise : ∀ (st : Status) (s' : State), s'.cfg = s.cfg →
      (raise st s').Keeps (fun t => CfgMove (.init var clk base) s.cfg t.cfg) c := fun _ s' h => by
    show CfgMove _ _ s'.cfg
    exact h ▸ .same
  unfold initStatement
  split
  · exact keeps_ite (hgo _ rfl) (hraise _ _ rfl)
  · exact keeps_ite (hgo _ rfl) (hraise _ _ rfl)
  · exact keeps_ite (hgo _ rfl) (hraise _ _ rfl)
  · exact keeps_ite (hraise _ _ rfl) (hgo _ rfl)
  · cases s.env.rst with
    | absent => exact hgo _ rfl
    | present => exact hgo _ rfl
    | error => exact hraise _ _ rfl
  · exact keeps_ite (keeps_underDuty (.captures (hout ‹_›) rfl)) (hraise _ _ (by simp))
  · trivial

/-- A statement of TEARDOWN takes the Controller out of service or leaves the configuration. -/
theorem teardownStatement_cfg {p : Nat} {c : Ctx} {s : State} :
    (teardownStatement p c s).Keeps (fun t => CfgMove .teardown s.cfg t.cfg) c := by
  unfold teardownStatement
  split
  · exact keeps_ite ⟨.leaves rfl rfl, rfl, rfl, rfl⟩ .same
  · refine keeps_ite ⟨?_, rfl, rfl, rfl⟩ ⟨.same, rfl, rfl, rfl⟩
    show CfgMove .teardown s.cfg s.assertReset.cfg
    rw [assertReset_cfg]
    exact .same
  · exact ⟨.same, rfl, rfl, rfl⟩
  · exact .same
  · trivial

/-- A statement of any operation that fits the state. -/
theorem statementOf_cfg {i : Instr} {p : Nat} {c : Ctx} {s : State} (hd : decode c.cmd = .ok i)
    (hf : ctxFits s c = true) : (statementOf i p c s).Keeps (fun t => CfgMove i s.cfg t.cfg) c := by
  have hconv : i.isLifecycle = false → (statementOf i p c s).Keeps (fun t => CfgMove i s.cfg t.cfg) c := by
    intro hi
    have hok := statementOf_ok i p c s hd hf
    have hk := statementOf_keeps i p c s
    cases hst : statementOf i p c s with
    | goes c' s' =>
      rw [hst] at hok hk
      exact ⟨(hok.2.resolve_left (by simp [hi])).1 ▸ .same, hk.2⟩
    | answers r s' =>
      rw [hst] at hok
      show CfgMove i s.cfg s'.cfg
      exact (hok.2.resolve_left (by simp [hi])).1 ▸ .same
    | faults f => trivial
    | refuses r => trivial
  cases i with
  | init var clk base =>
    refine initStatement_cfg (p := p) fun hq => ?_
    simp only [ctxFits, hd, hq, initInFlight, Bool.and_eq_true, Bool.not_eq_true'] at hf
    exact hf.1.1
  | teardown => exact teardownStatement_cfg (p := p)
  | resolve ch => exact hconv rfl
  | getState ch => exact hconv rfl
  | apply ch en pol period duty => exact hconv rfl

/-! ### Inputs and steps -/

/-- How one input can change the configuration: a statement of the operation a port has latched, or the reset. -/
theorem consume_cfg {s t : State} (h : s.Sound) {x : Input} (hx : consume x s = .next t) :
    t.cfg = s.cfg ∨
      (x = .reset ∧ t.cfg.inService = false ∧ (s.anyBusy = true → s.cfg.inService = false)) ∨
      ∃ p i, x = .advance p ∧ (s.ctx p).busy = true ∧ decode (s.ctx p).cmd = .ok i ∧ CfgMove i s.cfg t.cfg := by
  cases x with
  | command q c =>
    refine .inl ?_
    cases hc : decode c with
    | ok j =>
      obtain ⟨-, ⟨-, rfl⟩ | ⟨-, -, -, rfl⟩⟩ := accept_next ((offer_operation hc s).symm.trans hx) <;> rfl
    | error e => obtain rfl | rfl := rejectReserved_next ((offer_reserved hc s).symm.trans hx) <;> rfl
  | advance p =>
    cases hb : (s.ctx p).busy with
    | false =>
      cases (advance_idle hb).symm.trans hx
      exact .inl rfl
    | true =>
      obtain ⟨i, hd⟩ := decodes_of_ctxFits (h.fits p hb)
      have hk := statementOf_cfg (p := p) hd (h.fits p hb)
      refine .inr (.inr ⟨p, i, rfl, hb, hd, ?_⟩)
      obtain ⟨c', s', hst, rfl⟩ | ⟨r, s', hst, rfl⟩ := runStatement_next ((advance_busy hb hd).symm.trans hx)
      · rw [hst] at hk
        exact hk.1
      · rw [hst] at hk
        exact hk
  | device b r v => cases hx; exact .inl rfl
  | platform e => cases hx; exact .inl rfl
  | reset =>
    obtain ⟨hheld, rfl⟩ := resetInput_next hx
    refine .inr (.inl ⟨rfl, rfl, fun hb => ?_⟩)
    rw [← Bool.not_eq_true]
    intro hin
    have hset := h.settled_of_no_lifecycle (.inr hin)
    simp only [State.settled, hin, if_true, State.serving, Bool.and_eq_true] at hset
    simpa [Res.anyHeld, hset] using hheld hb

/-- An input inside the operation `i` of a busy port changes the configuration as `i` may, whatever the other ports run:
INIT and TEARDOWN run alone (70_reset_and_hazards.md R231). -/
theorem consume_cfgMove {s t : State} (h : s.Sound) {p : Nat} {i : Instr} (hb : (s.ctx p).busy = true)
    (hd : decode (s.ctx p).cmd = .ok i) {x : Input} (hx : consume x s = .next t) : CfgMove i s.cfg t.cfg := by
  obtain hc | ⟨-, hout, hin⟩ | ⟨q, j, -, hq, hj, hm⟩ := consume_cfg h hx
  · exact hc ▸ .same
  · exact .staysOut (hin (anyBusy_of_busy hb)) hout
  · cases hl : j.isLifecycle with
    | false => exact hm.of_not_lifecycle hl
    | true =>
      obtain rfl := h.alone q hq ((isLifecycle_of_decode hj).trans hl) p hb
      cases hd.symm.trans hj
      exact hm

/-- How a step can change the configuration. -/
theorem step_cfg {s t : State} (h : s.Sound) (ht : step s = .next t) :
    t.cfg = s.cfg ∨ (s.pending.head? = some .reset ∧ t.cfg.inService = false) ∨
      ∃ p i, s.runsNext p i ∧ CfgMove i s.cfg t.cfg := by
  cases step_next ht with
  | waits _ ht => exact .inl (by rw [ht])
  | resumes p hp hf ht =>
    have hb := busy_of_firstBusy h.canonical hf
    obtain ⟨i, hd⟩ := decodes_of_ctxFits (h.fits p hb)
    refine .inr (.inr ⟨p, i, ?_, consume_cfgMove h hb hd (x := .advance p) ht⟩)
    simp only [State.runsNext, hp]
    exact ⟨hf, hd⟩
  | operation p c rest i hp hc ht =>
    refine .inr (.inr ⟨p, i, ?_, ?_⟩)
    · simp only [State.runsNext, hp]
      exact ⟨trivial, hc⟩
    · rcases (h.setPending rest p).exec_keeps (P := fun u => CfgMove i s.cfg u.cfg) (fun _ => .same)
        (fun x u v hu hm hb hd hx => hm.trans (consume_cfgMove hu hb hd hx)) (fun _ _ hm => hm) ht with rfl | ⟨-, hm⟩
      · exact .same
      · exact hm
  | input x rest hp ht =>
    obtain hc | ⟨rfl, hout, -⟩ | ⟨p, i, rfl, hb, hd, hm⟩ := consume_cfg (h.setPending rest s.port) ht
    · exact .inl hc
    · exact .inr (.inl ⟨by rw [hp]; rfl, hout⟩)
    · refine .inr (.inr ⟨p, i, ?_, hm⟩)
      simp only [State.runsNext, hp]
      exact ⟨trivial, hb, hd⟩

/-- Settles O43: a step changes the configuration only with a change of service. -/
theorem configurationConstantInService : Obligations.ConfigurationConstantInService := by
  unfold Obligations.ConfigurationConstantInService
  intro s t hg ht hs ht'
  obtain hc | ⟨-, hout⟩ | ⟨p, i, -, hm⟩ := step_cfg ((good_iff_sound s).1 hg) ht
  · exact hc
  · rw [hout] at ht'; cases ht'
  · exact hm.eq_of_inService hs ht'

/-- Settles O57: a change of service is the capture of the INIT, the TEARDOWN or the reset that the step runs. -/
theorem serviceChangesByLifecycleOrReset : Obligations.ServiceChangesByLifecycleOrReset := by
  unfold Obligations.ServiceChangesByLifecycleOrReset
  intro s t hg ht hne
  obtain hc | ⟨hr, hout⟩ | ⟨p, i, hrun, hm⟩ := step_cfg ((good_iff_sound s).1 hg) ht
  · exact absurd (congrArg Cfg.inService hc) hne
  · exact .inr ⟨hout, .inr hr⟩
  · obtain ⟨var, clk, base, rfl, hcfg⟩ | ⟨hout, rfl⟩ := hm.of_service_ne hne
    · exact .inl ⟨congrArg Cfg.inService hcfg, p, var, clk, base, hrun, hcfg⟩
    · exact .inr ⟨hout, .inl ⟨p, hrun⟩⟩

end Sys2Proof.Machine

/-! SUPPORT. What one step of one agent does: the sequencer of a port, the device, the reset state. -/

namespace Sys2Proof.Machine

/-- Settles O8: the step takes the input, and the busy port runs the operation its record decodes to. -/
theorem advanceRunsLatchedOperation : Obligations.AdvanceRunsLatchedOperation := by
  unfold Obligations.AdvanceRunsLatchedOperation
  intro s p rest i hp hb hd
  rw [step_advance hp]
  exact advance_busy hb hd

/-- Settles O45: acceptance looks at `busy` before anything else (10_state.md R38). -/
theorem busyPortAcceptsNothing : Obligations.BusyPortAcceptsNothing := by
  unfold Obligations.BusyPortAcceptsNothing
  intro i s he hb
  rw [exec_eq_runOperation, runOperation, if_pos (by rw [hb, he]; rfl)]

/-- Settles O46: every field has its value in the definition of the reset state, and no context is listed. -/
theorem resetState : Obligations.ResetState := by
  unfold Obligations.ResetState
  exact ⟨rfl, rfl, rfl, fun _ => rfl, rfl⟩

/-- Settles O49: nothing is listed after reset and no resource is held. -/
theorem goodAtReset : Obligations.GoodAtReset := by
  unfold Obligations.GoodAtReset
  exact (good_iff_sound _).2
    ⟨rfl, rfl, fun _ _ => rfl, nofun, nofun, nofun, fun _ => rfl⟩

/-- A statement that ends leaves the port free with its response newest, or the same command one place further. -/
theorem runStatement_seq {s t : State} {p : Nat} {i : Instr} (hw : canonical Ctx.idle s.ports = true)
    (hb : (s.ctx p).busy = true) (h : runStatement (statementOf i) p s = .next t) :
    (t.ctx p = Ctx.idle ∧ ∃ r : Response, t.trace.head? = some (.response p r)) ∨
      ((t.ctx p).busy = true ∧ (t.ctx p).cmd = (s.ctx p).cmd ∧ (t.ctx p).seq = (s.ctx p).seq + 1) := by
  have hk := statementOf_keeps i p (s.ctx p) s
  obtain ⟨c', s', hst, rfl⟩ | ⟨r, s', hst, rfl⟩ := runStatement_next h
  · rw [hst] at hk
    obtain ⟨⟨hp, -⟩, hb', hc, hq⟩ := hk
    rw [ctx_setCtx_same (hp ▸ hw)]
    exact .inr ⟨hb'.trans hb, hc, hq⟩
  · rw [hst] at hk
    obtain ⟨hp, -⟩ := hk
    exact .inl ⟨ctx_respond_same (hp ▸ hw), r, rfl⟩

/-- Settles O9: a statement ends the operation or moves it on by one, and a reserved record is answered. -/
theorem seqGrowsByOne : Obligations.SeqGrowsByOne := by
  unfold Obligations.SeqGrowsByOne
  intro s t p hw hb h
  cases hd : decode (s.ctx p).cmd with
  | ok i =>
    have hrun := (advance_busy hb hd).symm.trans h
    exact ⟨runStatement_seq hw hb hrun, (runStatement_ctx hw hrun).1⟩
  | error e =>
    cases (advance_reserved hb hd).symm.trans h
    exact ⟨.inl ⟨ctx_respond_same hw, _, rfl⟩, fun q hq => ctx_respond_other hw hq⟩

/-! ### The device -/

/-- A register after a device move on it: the bits of the mask as offered, the others as before (10_state.md R36). -/
theorem deviceMove_read32_getLsbD {s : State} (hw : s.window.wf = true) (b : Block) (r : Reg) (v : Word32) (k : Nat) :
    ((deviceMove b r v s).window.read32 (b.off + (regOff r).toNat)).getLsbD k =
      if (deviceMask r).getLsbD k then v.getLsbD k else (s.window.read32 (b.off + (regOff r).toNat)).getLsbD k := by
  rw [deviceMove_window, read32_write32_same hw, deviceChange_getLsbD]

/-- Settles O48: the move is one register write of the changed value. -/
theorem deviceChangesOnlyItsBits : Obligations.DeviceChangesOnlyItsBits := by
  unfold Obligations.DeviceChangesOnlyItsBits
  refine ⟨rfl, fun s b r v rest hp hw => ?_⟩
  exact ⟨(deviceMove b r v s).window, step_device hp, write32_wf hw, deviceMove_read32_getLsbD hw b r v,
    fun a ha => byte_write32_outside hw ha⟩

/-! ### The last statement of APPLY -/

theorem readAt_afterWrite_same {s : State} (hw : s.window.wf = true) (p : Nat) (ea : Word64) (v : Word32) :
    (s.afterWrite p ea v).readAt ea = v := read32_write32_same hw

/-- Settles O31: statement 5 writes the latched value with the enable bits changed and ends the operation. -/
theorem controlChangeInBetweenIsLost : Obligations.ControlChangeInBetweenIsLost := by
  unfold Obligations.ControlChangeInBetweenIsLost
  intro p ch en pol period duty s hw hwf hacc hb hd hq
  refine ⟨_, (advance_busy hb hd).trans (runStatement_answers rfl (apply_writes_ctrl hq hacc)), ?_,
    ctx_respond_same hw, rfl⟩
  exact readAt_afterWrite_same hwf p _ _

/-! ### Times that fit read back within one rounding unit (41_convert.md R128) -/

/-- A rounded quotient times the divisor is within half a divisor of the dividend (41_convert.md R120). -/
theorem rndDiv_near {a b : Nat} (hb : 0 < b) : b * rndDiv a b ≤ a + b / 2 ∧ a ≤ b * rndDiv a b + b / 2 := by
  have hdiv := Nat.div_add_mod (a + b / 2) b
  have hmod := Nat.mod_lt (a + b / 2) hb
  rw [rndDiv]
  omega

/-- Two roundings to the nearest, by `n` and back by `k`, end within `⌈n / k⌉` of the start. -/
theorem rndDiv_round_trip {x k n : Nat} (hk : 0 < k) (hn : 0 < n) :
    rndDiv (rndDiv (x * k) n * n) k ≤ x + (n + k - 1) / k ∧ x ≤ rndDiv (rndDiv (x * k) n * n) k + (n + k - 1) / k := by
  have hc : n ≤ k * ((n + k - 1) / k) := by
    have hdiv := Nat.div_add_mod (n + k - 1) k
    have hmod := Nat.mod_lt (n + k - 1) hk
    omega
  have hk' : k ≤ k * ((n + k - 1) / k) := Nat.le_mul_of_pos_right k (Nat.div_pos (by omega) hk)
  obtain ⟨hlo, hhi⟩ := rndDiv_near (a := x * k) hn
  obtain ⟨hlo', hhi'⟩ := rndDiv_near (a := rndDiv (x * k) n * n) hk
  rw [Nat.mul_comm n] at hlo hhi
  have hx := Nat.mul_comm k x
  constructor <;> refine Nat.le_of_mul_le_mul_left ?_ hk <;> rw [Nat.mul_add] <;> omega

theorem fits32_iff {ns clk : Nat} : fits32 ns clk = true ↔ nsToTicks ns clk ≤ 0xFFFFFFFF := by
  simp [fits32]

/-- The register of a time that fits holds the tick count itself (41_convert.md R124). -/
theorem tickReg_toNat {ns : Word64} {clk : ClkRate} (h : fits32 ns.toNat clk.toNat = true) :
    (tickReg ns clk).toNat = nsToTicks ns.toNat clk.toNat := by
  have := fits32_iff.1 h
  rw [tickReg, BitVec.toNat_ofNat, Nat.mod_eq_of_lt (by omega)]

/-- The response field holds the whole time of a tick count (41_convert.md R122). -/
theorem nsField_toNat {t : Word32} {clk : ClkRate} (h : clk ≠ 0) :
    (nsField t clk).toNat = ticksToNs t.toNat clk.toNat := by
  have hclk : 0 < clk.toNat := Nat.pos_of_ne_zero fun h0 => h (BitVec.eq_of_toNat_eq h0)
  have ht := t.isLt
  have hc := clk.isLt
  rw [nsField, BitVec.toNat_ofNat, Nat.mod_eq_of_lt]
  refine lt_of_le_of_lt (Nat.div_le_self _ _) ?_
  have : Config.nsecPerSec = 1000000000 := rfl
  rw [this]
  omega

theorem nsField_tickReg_near {ns : Word64} {clk : ClkRate} (hclk : clk ≠ 0) (h : fits32 ns.toNat clk.toNat = true) :
    (nsField (tickReg ns clk) clk).toNat ≤ ns.toNat + (1000000000 + clk.toNat - 1) / clk.toNat ∧
      ns.toNat ≤ (nsField (tickReg ns clk) clk).toNat + (1000000000 + clk.toNat - 1) / clk.toNat := by
  rw [nsField_toNat hclk, tickReg_toNat h]
  exact rndDiv_round_trip (Nat.pos_of_ne_zero fun h0 => hclk (BitVec.eq_of_toNat_eq h0)) (by decide)

/-! ### The registers of a channel -/

/-- Two registers of blocks at multiples of 16 do not overlap, unless they are the same register of one block. -/
theorem registers_apart {o o' : Nat} (ho : o % 16 = 0) (ho' : o' % 16 = 0) {r r' : Reg} (h : o ≠ o' ∨ r ≠ r') :
    o + (regOff r).toNat + 4 ≤ o' + (regOff r').toNat ∨ o' + (regOff r').toNat + 4 ≤ o + (regOff r).toNat := by
  obtain ⟨hm, hl⟩ := regOff_mod r
  obtain ⟨hm', hl'⟩ := regOff_mod r'
  rcases h with h | h
  · omega
  · have hr : (regOff r).toNat ≠ (regOff r').toNat := fun he => h (regOff_inj he)
    omega

/-- A register of a channel after a write to a register of the same channel. -/
theorem channelReg_afterWrite {s : State} (hw : s.window.wf = true) (p : Nat) (ch : Channel) (r r' : Reg) (v : Word32) :
    (s.afterWrite p (effAddr (s.channelBase ch) r') v).channelReg ch r = if r = r' then v else s.channelReg ch r := by
  split
  · subst r
    exact readAt_afterWrite_same hw p _ v
  · rw [channelReg_eq, channelReg_eq, afterWrite_window, windowKey_register, afterWrite_cfg,
      read32_write32_other hw (registers_apart (blockOffset_mod _ _ _) (blockOffset_mod _ _ _) (.inr ‹_›))]

/-- A write to a register of another block leaves a channel's registers alone (60_exceptions.md R210). -/
theorem channelReg_afterWrite_other {s : State} (hw : s.window.wf = true) (p : Nat) {ch ch' : Channel} (r r' : Reg)
    (v : Word32)
    (h : blockOffset Config.bankAliased s.cfg.variant ch ≠ blockOffset Config.bankAliased s.cfg.variant ch') :
    (s.afterWrite p (effAddr (s.channelBase ch') r') v).channelReg ch r = s.channelReg ch r := by
  rw [channelReg_eq, channelReg_eq, afterWrite_window, windowKey_register, afterWrite_cfg,
    read32_write32_other hw (registers_apart (blockOffset_mod _ _ _) (blockOffset_mod _ _ _) (.inl h))]

/-- The registers of channel `ch` are `e`, but for the bits of `mask`. -/
structure State.Holds (mask : Reg → Word32) (ch : Channel) (e : Reg → Word32) (s : State) : Prop where
  wf : s.window.wf = true
  bits : ∀ r k, (mask r).getLsbD k = false → (s.channelReg ch r).getLsbD k = (e r).getLsbD k

namespace State.Holds

variable {mask : Reg → Word32} {ch : Channel} {e : Reg → Word32} {s : State}

theorem refl (hw : s.window.wf = true) : s.Holds mask ch (s.channelReg ch) := ⟨hw, fun _ _ _ => rfl⟩

theorem write (h : s.Holds mask ch e) (p : Nat) (r : Reg) (v : Word32) {cb : Word64} (hcb : cb = s.channelBase ch) :
    (s.afterWrite p (effAddr cb r) v).Holds mask ch (Function.update e r v) := by
  subst hcb
  refine ⟨write32_wf h.wf, fun r' k hk => ?_⟩
  rw [channelReg_afterWrite h.wf, Function.update_apply]
  split
  · rfl
  · exact h.bits r' k hk

/-- A change of neither the configuration nor the window. -/
theorem of_same {t : State} (h : s.Holds mask ch e) (hc : t.cfg = s.cfg) (hw : t.window = s.window) :
    t.Holds mask ch e := by
  refine ⟨hw ▸ h.wf, fun r k hk => ?_⟩
  rw [channelReg_eq, hc, hw, ← channelReg_eq]
  exact h.bits r k hk

theorem read (h : s.Holds mask ch e) (p : Nat) (ea : Word64) : (s.afterRead p ea).Holds mask ch e :=
  h.of_same rfl rfl

/-- With an empty mask the registers are known exactly. -/
theorem eq (h : s.Holds (fun _ => 0) ch e) (r : Reg) : s.channelReg ch r = e r :=
  BitVec.eq_of_getLsbD_eq fun k _ => h.bits r k BitVec.getLsbD_zero

end State.Holds

/-! ### APPLY, then GET_STATE -/

/-- The registers after an APPLY that found `e` (43_apply.md R153 to R158). -/
def appliedRegs (e : Reg → Word32) (tp td : Word32) (en : Bool) : Reg → Word32
  | .cntr => 0
  | .hrc => td
  | .lrc => tp
  | .ctrl => ctrlWithEnable (e .ctrl) en

/-- The state before the response of an undisturbed APPLY with the supported polarity (43_apply.md R150): the four
writes and the one read. -/
def State.applied (s : State) (ch : Channel) (en : Bool) (period duty : Word64) : State :=
  let cb := s.channelBase ch
  let t := ((s.afterWrite s.port (effAddr cb .lrc) (tickReg period s.cfg.clkRate)).afterWrite s.port (effAddr cb .hrc)
    (tickReg duty s.cfg.clkRate)).afterWrite s.port (effAddr cb .cntr) 0
  (t.afterRead s.port (effAddr cb .ctrl)).afterWrite s.port (effAddr cb .ctrl)
    (ctrlWithEnable (t.channelReg ch .ctrl) en)

section Applied

variable (s : State) (ch : Channel) (en : Bool) (period duty : Word64)

theorem applied_cfg : (s.applied ch en period duty).cfg = s.cfg := by simp [State.applied]
theorem applied_res : (s.applied ch en period duty).res = s.res := by simp [State.applied]
theorem applied_mapped : (s.applied ch en period duty).mapped = s.mapped := by simp [State.applied]
theorem applied_ports : (s.applied ch en period duty).ports = s.ports := by simp [State.applied]
theorem applied_port : (s.applied ch en period duty).port = s.port := by simp [State.applied]
theorem applied_pending : (s.applied ch en period duty).pending = s.pending := by simp [State.applied]

theorem applied_channelReg (hw : s.window.wf = true) (r : Reg) :
    (s.applied ch en period duty).channelReg ch r =
      appliedRegs (s.channelReg ch) (tickReg period s.cfg.clkRate) (tickReg duty s.cfg.clkRate) en r := by
  have hwritten := (((State.Holds.refl (mask := fun _ => 0) hw).write s.port .lrc
    (tickReg period s.cfg.clkRate) (cb := s.channelBase ch) rfl).write s.port .hrc (tickReg duty s.cfg.clkRate)
    (cb := s.channelBase ch) rfl).write s.port .cntr 0 (cb := s.channelBase ch) rfl
  have happlied := (hwritten.read s.port (effAddr (s.channelBase ch) .ctrl)).write s.port .ctrl
    (ctrlWithEnable (s.channelReg ch .ctrl) en) (cb := s.channelBase ch) rfl
  rw [State.applied, hwritten.eq .ctrl]
  refine (happlied.eq r).trans ?_
  cases r <;> rfl

end Applied

theorem exec_apply_undisturbed {ch : Channel} {en : Bool} {period duty : Word64} {s : State} (h : s.canStart = true)
    (hp : s.pending = []) (hacc : s.accessible = true) :
    exec (.apply ch en .inversed period duty) s =
      .next ((s.applied ch en period duty).log (.response s.port (Response.only .ok))) := by
  rw [exec_undisturbed h (by simp [Instr.isLifecycle]) hp]
  show drive (applyStatement ch en .inversed period duty) _ _ _ _ = _
  refine (drive_goes (apply_converts rfl (inService_of_accessible hacc))).trans ?_
  refine (drive_goes (apply_writes_lrc rfl ?_)).trans ?_
  · exact hacc
  refine (drive_goes (apply_writes_hrc rfl ?_)).trans ?_
  · exact hacc
  refine (drive_goes (apply_clears_cntr rfl ?_)).trans ?_
  · exact hacc
  refine (drive_goes (apply_reads_ctrl rfl ?_)).trans ?_
  · exact hacc
  exact drive_answers (apply_writes_ctrl rfl hacc)

theorem exec_getState_undisturbed {ch : Channel} {s : State} (h : s.canStart = true) (hp : s.pending = [])
    (hacc : s.accessible = true) (hc : s.cfg.clkRate ≠ 0) :
    exec (.getState ch) s =
      .next ((((s.afterRead s.port (effAddr (s.channelBase ch) .lrc)).afterRead s.port
        (effAddr (s.channelBase ch) .hrc)).afterRead s.port (effAddr (s.channelBase ch) .ctrl)).log
          (.response s.port
            (stateResponse s.cfg.clkRate (s.channelReg ch .lrc) (s.channelReg ch .hrc) (s.channelReg ch .ctrl)))) := by
  rw [exec_undisturbed h (by simp [Instr.isLifecycle]) hp]
  show drive (getStateStatement ch) _ _ _ _ = _
  refine (drive_goes (getState_resolves rfl (inService_of_accessible hacc))).trans ?_
  refine (drive_goes (getState_reads_lrc rfl ?_)).trans ?_
  · exact hacc
  refine (drive_goes (getState_reads_hrc rfl ?_)).trans ?_
  · exact hacc
  exact drive_answers (getState_answers rfl hacc hc)

/-- What GET_STATE reports as enabled is bit 0 (42_get_state.md R144). -/
theorem enabledOf_eq_getLsbD (tc : Word32) : enabledOf tc = tc.getLsbD 0 := by
  have hbit : tc &&& enableBit = BitVec.setWidth 32 (BitVec.ofBool (tc.getLsbD 0)) := by
    rw [show enableBit = 1#32 from rfl, BitVec.and_one_eq_setWidth_ofBool_getLsbD]
  rw [enabledOf, hbit]
  cases tc.getLsbD 0 <;> rfl

/-- The value APPLY writes to `CTRL`, bit by bit (43_apply.md R157, R158). -/
theorem ctrlWithEnable_getLsbD (tc : Word32) (en : Bool) (k : Nat) :
    (ctrlWithEnable tc en).getLsbD k = if k = 0 ∨ k = 3 then en else tc.getLsbD k := by
  have hmask : ∀ k < 32, enOeMask.getLsbD k = decide (k = 0 ∨ k = 3) := by decide
  by_cases hk : k < 32
  · cases en with
    | false =>
      show (tc &&& ~~~enOeMask).getLsbD k = _
      rw [BitVec.getLsbD_and, BitVec.getLsbD_not, hmask k hk, decide_eq_true hk]
      by_cases h : k = 0 ∨ k = 3 <;> simp [h]
    | true =>
      show (tc ||| enOeMask).getLsbD k = _
      rw [BitVec.getLsbD_or, hmask k hk]
      by_cases h : k = 0 ∨ k = 3 <;> simp [h]
  · have h : ¬ (k = 0 ∨ k = 3) := by omega
    rw [if_neg h, BitVec.getLsbD_of_ge _ _ (by omega), BitVec.getLsbD_of_ge _ _ (by omega)]

theorem channelReg_log (s : State) (e : Event) (ch : Channel) (r : Reg) :
    (s.log e).channelReg ch r = s.channelReg ch r := rfl

/-- Settles O30: APPLY leaves the tick counts and the enable bits in the registers, and GET_STATE converts them back. -/
theorem applyThenGetStateRoundTrip : Obligations.ApplyThenGetStateRoundTrip := by
  unfold Obligations.ApplyThenGetStateRoundTrip
  intro ch en period duty s h hp hacc hw hc hfp hfd
  have happly := exec_apply_undisturbed (ch := ch) (en := en) (period := period) (duty := duty) h hp hacc
  have hregs : ∀ e r, ((s.applied ch en period duty).log e).channelReg ch r = _ := fun e r =>
    (channelReg_log _ e ch r).trans (applied_channelReg s ch en period duty hw r)
  have hcfg := applied_cfg s ch en period duty
  have hport := applied_port s ch en period duty
  have hstart := (canStart_congr (applied_ports s ch en period duty) hport).trans h
  have haccess :=
    (accessible_congr hcfg (applied_res s ch en period duty) (applied_mapped s ch en period duty)).trans hacc
  have hpending := (applied_pending s ch en period duty).trans hp
  generalize s.applied ch en period duty = t at *
  have hget := exec_getState_undisturbed (ch := ch) (s := t.log (.response s.port (Response.only .ok)))
    hstart hpending haccess (hcfg ▸ hc)
  obtain ⟨hlo, hhi⟩ := nsField_tickReg_near hc hfp
  obtain ⟨hlo', hhi'⟩ := nsField_tickReg_near hc hfd
  refine ⟨_, _, _, _, happly, hget, ?_, hlo, hhi, hlo', hhi'⟩
  simp only [log_trace, List.head?_cons, log_port, hport, log_cfg, hcfg, hregs, appliedRegs, stateResponse,
    enabledOf_eq_getLsbD, ctrlWithEnable_getLsbD, true_or, if_true]

end Sys2Proof.Machine

/-! SUPPORT. An operation while other agents move: what the statements of other ports, the device and the platform can
do to a channel they leave to its port (70_reset_and_hazards.md R229, R230). -/

namespace Sys2Proof.Machine

/-! ### Running to the response -/

section RunInputs

variable {stmt : Statement} {p : Nat} {xs : List Input} {x : Input} {s t : State}

theorem runInputs_idle (h : (s.ctx p).busy = false) :
    runInputs stmt p (x :: xs) s = .next { s with pending := x :: xs } := by
  unfold runInputs
  simp [h]

theorem runInputs_own (hb : (s.ctx p).busy = true) (h : runStatement stmt p s = .next t) :
    runInputs stmt p (.advance p :: xs) s = runInputs stmt p xs t := by
  rw [runInputs, if_pos hb, if_pos rfl, h]

theorem runInputs_other (hb : (s.ctx p).busy = true) (hx : x ≠ .advance p) (h : consume x s = .next t) :
    runInputs stmt p (x :: xs) s = runInputs stmt p xs t := by
  cases x with
  | advance q =>
    have hq : q ≠ p := fun e => hx (e ▸ rfl)
    rw [runInputs, if_pos hb, if_neg hq, show advance q s = .next t from h]
  | command q c => rw [runInputs, if_pos hb, h]; nofun
  | device b r v => rw [runInputs, if_pos hb, h]; nofun
  | platform e => rw [runInputs, if_pos hb, h]; nofun
  | reset => rw [runInputs, if_pos hb, h]; nofun

end RunInputs

/-- An operation that stands `n` statements before its last one runs to its end, when each of its own statements moves
it on and no input that may fall in between moves it (60_exceptions.md R208). -/
theorem runInputs_reaches {stmt : Statement} {p : Nat} {At : Nat → State → Prop} {Done : State → Prop}
    {Allowed : Input → Prop} (hbusy : ∀ n s, At n s → (s.ctx p).busy = true)
    (hidle : ∀ s, Done s → (s.ctx p).busy = false)
    (hpending : ∀ s l, Done s → Done { s with pending := l })
    (hlast : ∀ s, At 0 s → ∃ t, runStatement stmt p s = .next t ∧ Done t)
    (hown : ∀ n s, At (n + 1) s → ∃ t, runStatement stmt p s = .next t ∧ At n t)
    (hother : ∀ n s x, At n s → Allowed x → x ≠ .advance p → ∃ t, consume x s = .next t ∧ At n t)
    {xs : List Input} (hxs : ∀ x ∈ xs, Allowed x) {n : Nat} {s : State} (h : At n s) (hn : n < maxStatements) :
    ∃ t, runInputs stmt p xs s = .next t ∧ Done t := by
  have hdone : ∀ ys s, Done s → ∃ t, runInputs stmt p ys s = .next t ∧ Done t := by
    intro ys s hd
    cases ys with
    | nil => exact ⟨s, runAlone_idle (hidle s hd), hd⟩
    | cons y ys => exact ⟨_, runInputs_idle (hidle s hd), hpending s _ hd⟩
  have halone : ∀ n m s, At n s → n < m → ∃ t, runAlone stmt p m s = .next t ∧ Done t := by
    intro n
    induction n with
    | zero =>
      intro m s h hm
      obtain ⟨m, rfl⟩ := Nat.exists_eq_add_of_lt hm
      obtain ⟨t, ht, hd⟩ := hlast s h
      refine ⟨t, ?_, hd⟩
      rw [runAlone, if_pos (hbusy _ s h), ht]
      exact runAlone_idle (hidle t hd)
    | succ n ih =>
      intro m s h hm
      obtain ⟨m, rfl⟩ := Nat.exists_eq_add_of_lt hm
      obtain ⟨t, ht, h'⟩ := hown n s h
      obtain ⟨u, hu, hd⟩ := ih (n + 1 + m) t h' (by omega)
      refine ⟨u, ?_, hd⟩
      rw [runAlone, if_pos (hbusy _ s h), ht]
      exact hu
  induction xs generalizing n s with
  | nil => exact halone n maxStatements s h hn
  | cons x xs ih =>
    have hrest : ∀ y ∈ xs, Allowed y := fun y hy => hxs y (List.mem_cons_of_mem x hy)
    by_cases hx : x = .advance p
    · subst hx
      cases n with
      | zero =>
        obtain ⟨t, ht, hd⟩ := hlast s h
        obtain ⟨u, hu, hd'⟩ := hdone xs t hd
        exact ⟨u, (runInputs_own (hbusy _ s h) ht).trans hu, hd'⟩
      | succ n =>
        obtain ⟨t, ht, h'⟩ := hown n s h
        obtain ⟨u, hu, hd⟩ := ih hrest h' (by omega)
        exact ⟨u, (runInputs_own (hbusy _ s h) ht).trans hu, hd⟩
    · obtain ⟨t, ht, h'⟩ := hother n s x h (hxs x List.mem_cons_self) hx
      obtain ⟨u, hu, hd⟩ := ih hrest h' hn
      exact ⟨u, (runInputs_other (hbusy _ s h) hx ht).trans hu, hd⟩

/-- A whole operation beside INIT and TEARDOWN, accepted on a port that can start. -/
theorem exec_of_canStart {i : Instr} {s : State} (h : s.canStart = true) (hi : i.isLifecycle = false) :
    exec i s = runInputs (statementOf i) s.port s.pending
      { s.setCtx s.port (Ctx.accepted (encode i)) with pending := [] } := by
  have ha := accept_of_canStart (i := i) (c := encode i) h (by simp [hi])
  simp only [State.canStart, Bool.and_eq_true, decide_eq_true_eq] at h
  obtain ⟨⟨⟨-, hidle⟩, -⟩, -⟩ := h
  rw [exec_eq_runOperation, runOperation, ha, hidle]
  rfl

/-! ### What a statement of the State Converter can touch -/

/-- What a statement of the operation `j` on port `q` may do to the state: nothing, one read, or one write to a register
of the channel that `j` names (10_state.md R35; 20_memory.md R64). -/
inductive Touches (q : Nat) (j : Instr) (s : State) : State → Prop
  | nothing : Touches q j s s
  | read (ea : Word64) : Touches q j s (s.afterRead q ea)
  | write {ch : Channel} (hch : touchedChannel j = some ch) (r : Reg) (v : Word32) :
    Touches q j s (s.afterWrite q (effAddr (s.channelBase ch) r) v)

/-- The context of an operation beside INIT and TEARDOWN stands at a statement the operation has, with the channel base
latched once it was resolved (10_state.md R21, R38). -/
def AtPlace (cfg : Cfg) (c : Ctx) : Instr → Prop
  | .init _ _ _ => False
  | .teardown => False
  | .resolve _ => c.seq = 0
  | .getState ch => c.seq.toNat ≤ 3 ∧ (c.seq = 0 ∨ c.cb = channelBase cfg.base cfg.variant ch)
  | .apply ch _ _ _ _ => c.seq.toNat ≤ 5 ∧ (c.seq = 0 ∨ c.cb = channelBase cfg.base cfg.variant ch)

theorem atPlace_accepted (cfg : Cfg) (c : Command) {j : Instr} (hj : j.isLifecycle = false) :
    AtPlace cfg (Ctx.accepted c) j := by
  cases j <;> simp_all [AtPlace, Ctx.accepted, Ctx.idle, Instr.isLifecycle]

theorem atPlace_of_ctxFits {s : State} {c : Ctx} {j : Instr} (hf : ctxFits s c = true) (hd : decode c.cmd = .ok j)
    (hj : j.isLifecycle = false) : AtPlace s.cfg c j := by
  simp only [ctxFits, hd] at hf
  cases j with
  | init var clk base => cases hj
  | teardown => cases hj
  | resolve ch =>
    simp only [Bool.and_eq_true, decide_eq_true_eq] at hf
    exact hf.2
  | getState ch =>
    simp only [Bool.and_eq_true, Bool.or_eq_true, decide_eq_true_eq] at hf
    obtain ⟨⟨-, hq⟩, hcb⟩ := hf
    exact ⟨hq, hcb.imp_right And.right⟩
  | apply ch en pol period duty =>
    simp only [Bool.and_eq_true, Bool.or_eq_true, decide_eq_true_eq] at hf
    obtain ⟨⟨-, hq⟩, hcb⟩ := hf
    refine ⟨hq, hcb.imp_right fun hl => ?_⟩
    obtain ⟨⟨⟨-, hb⟩, -⟩, -⟩ := hl
    exact hb

/-- A statement's outcome touches at most the operation's channel and goes on at a statement the operation has. -/
def Progress.TouchesOnly (q : Nat) (j : Instr) (s : State) : Progress → Prop
  | .goes c' s' => Touches q j s s' ∧ AtPlace s.cfg c' j
  | .answers _ s' => Touches q j s s'
  | .faults _ => False
  | .refuses _ => False

/-- What every statement of RESOLVE, GET_STATE and APPLY can do in service. -/
theorem statementOf_touches {j : Instr} {q : Nat} {c : Ctx} {s : State} (hacc : s.accessible = true)
    (hrate : s.cfg.clkRate ≠ 0) (hc : AtPlace s.cfg c j) : (statementOf j q c s).TouchesOnly q j s := by
  have hin := inService_of_accessible hacc
  cases j with
  | init var clk base => cases hc
  | teardown => cases hc
  | resolve ch =>
    show (resolveStatement ch q c s).TouchesOnly q _ s
    rw [resolveStatement, show c.seq = 0 from hc, gate, hin]
    exact .nothing
  | getState ch =>
    obtain ⟨hle, hcb⟩ := hc
    show (getStateStatement ch q c s).TouchesOnly q _ s
    have hread : ∀ {c'}, c'.seq.toNat ≤ 3 → c'.cb = c.cb → c.seq ≠ 0 → ∀ ea,
        (Progress.goes c' (s.afterRead q ea)).TouchesOnly q (.getState ch) s :=
      fun hq hb hne _ => ⟨.read _, hq, .inr (hb.trans (hcb.resolve_left hne))⟩
    rcases seq_cases c.seq with hq | hq | hq | hq | hq | hq | hq | hq
    · rw [getState_resolves hq hin]
      exact ⟨.nothing, by simp [Ctx.next, hq], .inr rfl⟩
    · rw [getState_reads_lrc hq hacc]
      exact hread (by simp [Ctx.next, hq]) (by rfl) (by simp [hq]) _
    · rw [getState_reads_hrc hq hacc]
      exact hread (by simp [Ctx.next, hq]) (by rfl) (by simp [hq]) _
    · rw [getState_answers hq hacc hrate]
      exact .read _
    all_goals simp [hq] at hle
  | apply ch en pol period duty =>
    obtain ⟨hle, hcb⟩ := hc
    show (applyStatement ch en pol period duty q c s).TouchesOnly q _ s
    have hwrite : c.seq ≠ 0 → ∀ r v, Touches q (.apply ch en pol period duty) s (s.afterWrite q (effAddr c.cb r) v) :=
      fun hne r v => by
        rw [hcb.resolve_left hne]
        exact .write rfl r v
    have hnext : c.seq ≠ 0 → c.next.seq.toNat ≤ 5 → AtPlace s.cfg c.next (.apply ch en pol period duty) :=
      fun hne hq => ⟨hq, .inr (hcb.resolve_left hne)⟩
    rcases seq_cases c.seq with hq | hq | hq | hq | hq | hq | hq | hq
    · cases pol with
      | normal =>
        rw [apply_rejects hq hin]
        exact .nothing
      | inversed =>
        rw [apply_converts hq hin]
        exact ⟨.nothing, by simp [Ctx.next, hq], .inr rfl⟩
    · rw [apply_writes_lrc hq hacc]
      exact ⟨hwrite (by simp [hq]) _ _, hnext (by simp [hq]) (by simp [Ctx.next, hq])⟩
    · rw [apply_writes_hrc hq hacc]
      exact ⟨hwrite (by simp [hq]) _ _, hnext (by simp [hq]) (by simp [Ctx.next, hq])⟩
    · rw [apply_clears_cntr hq hacc]
      exact ⟨hwrite (by simp [hq]) _ _, hnext (by simp [hq]) (by simp [Ctx.next, hq])⟩
    · rw [apply_reads_ctrl hq hacc]
      exact ⟨.read _, hnext (by simp [hq]) (by simp [Ctx.next, hq])⟩
    · rw [apply_writes_ctrl hq hacc]
      exact hwrite (by simp [hq]) _ _
    all_goals simp [hq] at hle

/-! ### The registers of a channel while others move -/

namespace State.Holds

variable {mask : Reg → Word32} {ch : Channel} {e : Reg → Word32} {s : State}

/-- A device move stays inside the mask of its register (10_state.md R36). -/
theorem device (h : s.Holds deviceMask ch e) (b : Block) (r : Reg) (v : Word32) :
    (deviceMove b r v s).Holds deviceMask ch e := by
  refine ⟨write32_wf h.wf, fun r' k hk => (?_ : _ = (s.channelReg ch r').getLsbD k).trans (h.bits r' k hk)⟩
  rw [channelReg_eq, channelReg_eq, deviceMove_cfg]
  by_cases hsame : blockOffset Config.bankAliased s.cfg.variant ch = b.off ∧ r' = r
  · obtain ⟨hb, rfl⟩ := hsame
    rw [hb, deviceMove_read32_getLsbD h.wf, hk, if_neg Bool.false_ne_true]
  · rw [deviceMove_window, read32_write32_other h.wf
      (registers_apart (blockOffset_mod _ _ _) (block_off_mod b) (by tauto))]

/-- A statement of an operation on another register block leaves the channel alone (60_exceptions.md R210). -/
theorem touches {t : State} (h : s.Holds mask ch e) {q : Nat} {i j : Instr} (hi : touchedChannel i = some ch)
    (hapart : blocksApart s.cfg.variant i j = true) (ht : Touches q j s t) : t.Holds mask ch e := by
  cases ht with
  | nothing => exact h
  | read ea => exact h.read q ea
  | write hj r v =>
    simp only [blocksApart, hi, hj, decide_eq_true_eq] at hapart
    exact ⟨write32_wf h.wf, fun r' k hk => by
      rw [channelReg_afterWrite_other h.wf q r' r v hapart]
      exact h.bits r' k hk⟩

end State.Holds

/-! ### The accesses of a port since a state -/

/-- What port `p` has accessed since `s₀`, newest first. -/
def State.AccessedSince (s : State) (p : Nat) (s₀ : State) (acc : List Event) : Prop :=
  ∃ new, s.trace = new ++ s₀.trace ∧ new.filter (Event.isAccessBy p) = acc

theorem accessedSince_trans {p : Nat} {s₀ s t : State} {acc acc' : List Event} (h : s.AccessedSince p s₀ acc)
    (h' : t.AccessedSince p s acc') : t.AccessedSince p s₀ (acc' ++ acc) := by
  obtain ⟨new, ht, rfl⟩ := h
  obtain ⟨new', ht', rfl⟩ := h'
  exact ⟨new' ++ new, by rw [ht', ht, List.append_assoc], List.filter_append ..⟩

theorem accessedSince_of_trace_eq {p : Nat} {s t : State} (h : t.trace = s.trace) : t.AccessedSince p s [] :=
  ⟨[], h, rfl⟩

/-- One event of another port, or a response. -/
theorem accessedSince_of_other {p : Nat} {s t : State} {e : Event} (h : t.trace = e :: s.trace)
    (he : e.isAccessBy p = false) : t.AccessedSince p s [] :=
  ⟨[e], h, by simp [he]⟩

/-- One access by the port. -/
theorem accessedSince_of_own {p : Nat} {s t : State} {e : Event} (h : t.trace = e :: s.trace)
    (he : e.isAccessBy p = true) : t.AccessedSince p s [e] :=
  ⟨[e], h, by simp [he]⟩

theorem accessedSince_touches {p q : Nat} {j : Instr} {s t : State} (hq : q ≠ p) (h : Touches q j s t) :
    t.AccessedSince p s [] := by
  cases h with
  | nothing => exact accessedSince_of_trace_eq rfl
  | read ea => exact accessedSince_of_other rfl (decide_eq_false hq)
  | write _ r v => exact accessedSince_of_other rfl (decide_eq_false hq)

/-! ### An operation in flight among others on other blocks -/

/-- What the callers' duty asks of the context of port `q` while port `p` runs `i` (70_reset_and_hazards.md R230,
R231): `p` has `i` latched, and another busy port runs an operation on another register block. -/
def Beside (p : Nat) (i : Instr) (cfg : Cfg) (q : Nat) (c : Ctx) : Prop :=
  (q = p → c.busy = true ∧ decode c.cmd = .ok i) ∧
    (q ≠ p → c.busy = true →
      ∃ j, decode c.cmd = .ok j ∧ AtPlace cfg c j ∧ blocksApart cfg.variant i j = true)

/-- Port `p` has been running `i` on channel `ch` since `s₀`, with the callers' duty kept: its context is `c`, the
channel's registers are `e` in every bit the device may not change, and `acc` are its accesses so far. -/
structure Running (p : Nat) (i : Instr) (ch : Channel) (s₀ : State) (e : Reg → Word32) (acc : List Event) (c : Ctx)
    (s : State) : Prop where
  cfg : s.cfg = s₀.cfg
  res : s.res = s₀.res
  mapped : s.mapped = s₀.mapped
  canonical : canonical Ctx.idle s.ports = true
  ctx : s.ctx p = c
  beside : ∀ q, Beside p i s₀.cfg q (s.ctx q)
  holds : s.Holds deviceMask ch e
  accesses : s.AccessedSince p s₀ acc

namespace Running

variable {p : Nat} {i : Instr} {ch : Channel} {s₀ s t : State} {e e' : Reg → Word32} {acc acc' : List Event}
  {c c' : Ctx}

theorem busy (h : Running p i ch s₀ e acc c s) : (s.ctx p).busy = true := ((h.beside p).1 rfl).1

theorem accessible (h : Running p i ch s₀ e acc c s) (hacc : s₀.accessible = true) : s.accessible = true :=
  (accessible_congr h.cfg h.res h.mapped).trans hacc

/-- The context of one port is replaced. -/
theorem replaceCtx (h : Running p i ch s₀ e acc c s) {q : Nat} {d : Ctx} (hcfg : t.cfg = s.cfg) (hres : t.res = s.res)
    (hmapped : t.mapped = s.mapped) (hports : t.ports = update Ctx.idle q d s.ports) (hd : Beside p i s₀.cfg q d)
    (hc : c' = if q = p then d else c) (hholds : t.Holds deviceMask ch e') (hacc : t.AccessedSince p s acc') :
    Running p i ch s₀ e' (acc' ++ acc) c' t := by
  have hsame : t.ctx q = d := (ctx_congr (s := s.setCtx q d) hports q).trans (ctx_setCtx_same h.canonical)
  have hother : ∀ q', q' ≠ q → t.ctx q' = s.ctx q' := fun q' hq =>
    (ctx_congr (s := s.setCtx q d) hports q').trans (ctx_setCtx_other h.canonical hq)
  refine ⟨hcfg.trans h.cfg, hres.trans h.res, hmapped.trans h.mapped, hports ▸ canonical_update h.canonical, ?_,
    fun q' => ?_, hholds, accessedSince_trans h.accesses hacc⟩
  · rw [hc]
    split
    · subst q
      exact hsame
    · rw [hother p (Ne.symm ‹_›), h.ctx]
  · by_cases hq : q' = q
    · subst hq
      rwa [hsame]
    · rw [hother q' hq]
      exact h.beside q'

/-- No context changes. -/
theorem of_same (h : Running p i ch s₀ e acc c s) (hcfg : t.cfg = s.cfg) (hres : t.res = s.res)
    (hmapped : t.mapped = s.mapped) (hports : t.ports = s.ports) (hholds : t.Holds deviceMask ch e)
    (hacc : t.AccessedSince p s []) : Running p i ch s₀ e acc c t :=
  h.replaceCtx hcfg hres hmapped (hports.trans (update_lookup_self h.canonical rfl).symm) (h.beside p)
    (by rw [if_pos rfl]; exact h.ctx.symm) hholds hacc

end Running

end Sys2Proof.Machine

/-! SUPPORT. The running operation is stable under what the others do, and so runs to its response
(70_reset_and_hazards.md R230; 60_exceptions.md R208). -/

namespace Sys2Proof.Machine

/-! ### Acceptance that keeps the duty -/

theorem accept_busy {p : Nat} {i : Instr} {c : Command} {s : State} (he : portExists p = true)
    (hb : (s.ctx p).busy = true) : accept p i c s = .next s := by
  rw [accept, if_pos he, if_pos hb]

theorem accept_free {p : Nat} {i : Instr} {c : Command} {s : State} (he : portExists p = true)
    (hb : (s.ctx p).busy = false) (hi : i.isLifecycle = false) (hl : s.lifecycleInFlight = false) :
    accept p i c s = .next (s.setCtx p (Ctx.accepted c)) := by
  simp [accept, he, hb, hi, hl]

/-- A reserved command on a port that exists is answered or gone. -/
theorem rejectReserved_of_exists {p : Nat} (he : portExists p = true) (s : State) :
    ∃ t, rejectReserved p s = .next t ∧ (t = s ∨ t = s.log (.response p (Response.only .illegalCommand))) := by
  rw [rejectReserved, if_pos he]
  split
  · exact ⟨_, rfl, .inl rfl⟩
  · exact ⟨_, rfl, .inr rfl⟩

theorem isLifecycle_of_touches {i : Instr} {ch : Channel} (h : touchedChannel i = some ch) : i.isLifecycle = false := by
  cases i with
  | init var clk base => cases h
  | teardown => cases h
  | resolve ch => rfl
  | getState ch => rfl
  | apply ch en pol period duty => rfl

theorem isLifecycle_of_atPlace {cfg : Cfg} {c : Ctx} {j : Instr} (h : AtPlace cfg c j) : j.isLifecycle = false := by
  cases j with
  | init var clk base => cases h
  | teardown => cases h
  | resolve ch => rfl
  | getState ch => rfl
  | apply ch en pol period duty => rfl

namespace Touches

variable {q : Nat} {j : Instr} {s t : State}

theorem cfg (h : Touches q j s t) : t.cfg = s.cfg := by cases h <;> rfl
theorem res (h : Touches q j s t) : t.res = s.res := by cases h <;> rfl
theorem mapped (h : Touches q j s t) : t.mapped = s.mapped := by cases h <;> rfl
theorem ports (h : Touches q j s t) : t.ports = s.ports := by cases h <;> rfl

end Touches

namespace Running

variable {p : Nat} {i : Instr} {ch : Channel} {s₀ s : State} {e : Reg → Word32} {acc : List Event} {c : Ctx}

theorem no_lifecycle (h : Running p i ch s₀ e acc c s) (hi : touchedChannel i = some ch) :
    s.lifecycleInFlight = false := by
  rw [← Bool.not_eq_true]
  intro hl
  obtain ⟨q, hb, hc⟩ := (lifecycleInFlight_iff h.canonical).1 hl
  by_cases hq : q = p
  · rw [isLifecycle_of_decode ((h.beside q).1 hq).2, isLifecycle_of_touches hi] at hc
    cases hc
  · obtain ⟨j, hd, hplace, -⟩ := (h.beside q).2 hq hb
    rw [isLifecycle_of_decode hd, isLifecycle_of_atPlace hplace] at hc
    cases hc

/-- A command that keeps the callers' duty is latched on its port, answered or gone. -/
theorem command (h : Running p i ch s₀ e acc c s) (hi : touchedChannel i = some ch) {q : Nat} {d : Command}
    (hk : (Input.command q d).keepsDuty p i = true) (ha : (Input.command q d).apartFrom p s₀.cfg.variant i = true) :
    ∃ t, offer q d s = .next t ∧ Running p i ch s₀ e acc c t := by
  simp only [Input.keepsDuty, Input.apartFrom, commandApart, Bool.and_eq_true, Bool.or_eq_true,
    decide_eq_true_eq] at hk ha
  obtain ⟨he, hk⟩ := hk
  cases hd : decode d with
  | error err =>
    rw [offer_reserved hd]
    obtain ⟨t, ht, rfl | rfl⟩ := rejectReserved_of_exists he s
    · exact ⟨_, ht, h⟩
    · exact ⟨_, ht, h.of_same rfl rfl rfl rfl (h.holds.of_same rfl rfl) (accessedSince_of_other rfl rfl)⟩
  | ok j =>
    rw [offer_operation hd]
    cases hb : (s.ctx q).busy with
    | true => exact ⟨s, accept_busy he hb, h⟩
    | false =>
      have hq : q ≠ p := by
        rintro rfl
        rw [h.busy] at hb
        cases hb
      rw [hd] at hk ha
      have hj := hk.resolve_left hq
      simp only [Bool.and_eq_true, Bool.not_eq_true'] at hj
      refine ⟨_, accept_free he hb hj.2 (h.no_lifecycle hi), ?_⟩
      exact h.replaceCtx (acc' := []) rfl rfl rfl rfl
        ⟨fun hqp => absurd hqp hq, fun _ _ => ⟨j, hd, atPlace_accepted _ d hj.2, ha.resolve_left hq⟩⟩ (if_neg hq).symm
        (h.holds.of_same rfl rfl) (accessedSince_of_trace_eq rfl)

/-- A statement of another port goes on beside port `p`, or ends with its port idle. -/
theorem advance_other (h : Running p i ch s₀ e acc c s) (hi : touchedChannel i = some ch) (hacc : s₀.accessible = true)
    (hrate : s₀.cfg.clkRate ≠ 0) {q : Nat} (hq : q ≠ p) :
    ∃ t, advance q s = .next t ∧ Running p i ch s₀ e acc c t := by
  cases hb : (s.ctx q).busy with
  | false => exact ⟨s, advance_idle hb, h⟩
  | true =>
    obtain ⟨j, hd, hplace, hapart⟩ := (h.beside q).2 hq hb
    have htouch := statementOf_touches (q := q) (h.accessible hacc) (h.cfg ▸ hrate) (h.cfg ▸ hplace)
    have hkeeps := statementOf_keeps j q (s.ctx q) s
    rw [advance_busy hb hd]
    cases hst : statementOf j q (s.ctx q) s with
    | goes c' s' =>
      rw [hst] at htouch hkeeps
      obtain ⟨ht, hplace'⟩ := htouch
      obtain ⟨-, -, hcmd, -⟩ := hkeeps
      have hh := h.holds.touches hi (h.cfg ▸ hapart) ht
      refine ⟨_, runStatement_goes rfl hst, ?_⟩
      exact h.replaceCtx (acc' := []) ht.cfg ht.res ht.mapped (by rw [setCtx_ports, ht.ports])
        ⟨fun hqp => absurd hqp hq, fun _ _ => ⟨j, hcmd ▸ hd, h.cfg ▸ hplace', hapart⟩⟩ (if_neg hq).symm
        (hh.of_same rfl rfl)
        (accessedSince_trans (accessedSince_touches hq ht) (accessedSince_of_trace_eq rfl))
    | answers r s' =>
      rw [hst] at htouch
      have hh := h.holds.touches hi (h.cfg ▸ hapart) htouch
      refine ⟨_, runStatement_answers rfl hst, ?_⟩
      exact h.replaceCtx (acc' := []) htouch.cfg htouch.res htouch.mapped (by rw [respond_ports, htouch.ports])
        ⟨fun hqp => absurd hqp hq, fun _ hb' => absurd hb' Bool.false_ne_true⟩ (if_neg hq).symm (hh.of_same rfl rfl)
        (accessedSince_trans (accessedSince_touches hq htouch) (accessedSince_of_other (e := .response q r) rfl rfl))
    | faults f => rw [hst] at htouch; cases htouch
    | refuses r => rw [hst] at htouch; cases htouch

/-- No input that keeps the duties stops the others or disturbs port `p` and its channel (70_reset_and_hazards.md
R230). -/
theorem other (h : Running p i ch s₀ e acc c s) (hi : touchedChannel i = some ch) (hacc : s₀.accessible = true)
    (hrate : s₀.cfg.clkRate ≠ 0) {x : Input} (hk : x.keepsDuty p i = true)
    (ha : x.apartFrom p s₀.cfg.variant i = true) (hx : x ≠ .advance p) :
    ∃ t, consume x s = .next t ∧ Running p i ch s₀ e acc c t := by
  cases x with
  | command q d => exact h.command hi hk ha
  | advance q => exact h.advance_other hi hacc hrate fun hq => hx (hq ▸ rfl)
  | device b r v =>
    exact ⟨_, rfl, h.of_same rfl rfl rfl rfl (h.holds.device b r v) (accessedSince_of_trace_eq rfl)⟩
  | platform env =>
    exact ⟨_, rfl, h.of_same rfl rfl rfl rfl (h.holds.of_same rfl rfl) (accessedSince_of_trace_eq rfl)⟩
  | reset => cases hk

/-- The port's own statement that goes on. -/
theorem own_goes (h : Running p i ch s₀ e acc c s) {c' : Ctx} {s' : State} {e' : Reg → Word32} {acc' : List Event}
    (hst : statementOf i p c s = .goes c' s') (ht : Touches p i s s') (hholds : s'.Holds deviceMask ch e')
    (hacc : s'.AccessedSince p s acc') :
    ∃ t, runStatement (statementOf i) p s = .next t ∧ Running p i ch s₀ e' (acc' ++ acc) c' t := by
  have hkeeps := statementOf_keeps i p c s
  rw [hst] at hkeeps
  obtain ⟨-, hbusy, hcmd, -⟩ := hkeeps
  have hown := (h.beside p).1 rfl
  rw [h.ctx] at hown
  refine ⟨_, runStatement_goes h.ctx hst, ?_⟩
  exact h.replaceCtx ht.cfg ht.res ht.mapped (by rw [setCtx_ports, ht.ports])
    ⟨fun _ => ⟨hbusy.trans hown.1, hcmd ▸ hown.2⟩, fun hp => absurd rfl hp⟩ (if_pos rfl).symm
    (hholds.of_same rfl rfl) hacc

end Running

/-- Port `p` has ended its operation with the response `r`. -/
structure Answered (p : Nat) (ch : Channel) (s₀ : State) (e : Reg → Word32) (acc : List Event) (r : Response)
    (s : State) : Prop where
  cfg : s.cfg = s₀.cfg
  res : s.res = s₀.res
  mapped : s.mapped = s₀.mapped
  ctx : s.ctx p = Ctx.idle
  response : s.trace.head? = some (.response p r)
  holds : s.Holds deviceMask ch e
  accesses : s.AccessedSince p s₀ acc

/-- The port's own statement that ends the operation. -/
theorem Running.own_answers {p : Nat} {i : Instr} {ch : Channel} {s₀ s s' : State} {e e' : Reg → Word32}
    {acc acc' : List Event} {c : Ctx} {r : Response} (h : Running p i ch s₀ e acc c s)
    (hst : statementOf i p c s = .answers r s') (ht : Touches p i s s') (hholds : s'.Holds deviceMask ch e')
    (hacc : s'.AccessedSince p s acc') :
    ∃ t, runStatement (statementOf i) p s = .next t ∧ Answered p ch s₀ e' (acc' ++ acc) r t :=
  ⟨_, runStatement_answers h.ctx hst, ht.cfg.trans h.cfg, ht.res.trans h.res, ht.mapped.trans h.mapped,
    ctx_respond_same (ht.ports ▸ h.canonical), rfl, hholds.of_same rfl rfl,
    accessedSince_trans (acc' := []) (accessedSince_trans h.accesses hacc)
      (accessedSince_of_other (e := .response p r) rfl rfl)⟩

/-! ### From acceptance to the response -/

theorem canStart_iff {s : State} :
    s.canStart = true ↔ portExists s.port = true ∧ s.ctx s.port = Ctx.idle ∧ s.lifecycleInFlight = false ∧
      canonical Ctx.idle s.ports = true := by
  simp only [State.canStart, Bool.and_eq_true, Bool.not_eq_true', decide_eq_true_eq, and_assoc]

/-- The block serves the operation `i` of port `s.port` on channel `ch`: it is in service, the port is free, the
operations in flight fit the state, and platform and callers keep their duties on what is still to come
(70_reset_and_hazards.md R230, R231). -/
structure State.Serves (s : State) (i : Instr) (ch : Channel) : Prop where
  canStart : s.canStart = true
  accessible : s.accessible = true
  rate : s.cfg.clkRate ≠ 0
  wf : s.window.wf = true
  fits : s.portsFit = true
  duty : s.pending.all (Input.keepsDuty s.port i) = true
  serialised : s.serialised i = true
  channel : touchedChannel i = some ch

namespace State.Serves

variable {s : State} {i : Instr} {ch : Channel}

/-- Another operation in flight is on another register block. -/
theorem other_beside (h : s.Serves i ch) {q : Nat} (hb : (s.ctx q).busy = true) :
    ∃ j, decode (s.ctx q).cmd = .ok j ∧ AtPlace s.cfg (s.ctx q) j ∧ blocksApart s.cfg.variant i j = true := by
  obtain ⟨-, -, hl, hw⟩ := canStart_iff.1 h.canStart
  have hmem := mem_ports_of_busy hb
  have hfit := List.all_eq_true.1 h.fits _ hmem
  have hser := h.serialised
  simp only [State.serialised, Bool.and_eq_true] at hser hfit
  obtain ⟨j, hd⟩ := decodes_of_ctxFits hfit.2
  have hapart := List.all_eq_true.1 hser.1 _ hmem
  simp only [commandApart, hd] at hapart
  have hj : j.isLifecycle = false := by
    rw [← isLifecycle_of_decode hd, ← Bool.not_eq_true]
    intro hc
    rw [(lifecycleInFlight_iff hw).2 ⟨q, hb, hc⟩] at hl
    cases hl
  exact ⟨j, hd, atPlace_of_ctxFits hfit.2 hd hj, hapart⟩

/-- The operation stands at its acceptance. -/
theorem running (h : s.Serves i ch) :
    Running s.port i ch s (s.channelReg ch) [] (Ctx.accepted (encode i))
      { s.setCtx s.port (Ctx.accepted (encode i)) with pending := [] } := by
  obtain ⟨-, -, -, hw⟩ := canStart_iff.1 h.canStart
  have hsame : (s.setCtx s.port (Ctx.accepted (encode i))).ctx s.port = Ctx.accepted (encode i) := ctx_setCtx_same hw
  refine ⟨rfl, rfl, rfl, canonical_setCtx hw _ _, hsame, fun q => ?_, ⟨h.wf, fun _ _ _ => rfl⟩,
    accessedSince_of_trace_eq rfl⟩
  show Beside s.port i s.cfg q ((s.setCtx s.port (Ctx.accepted (encode i))).ctx q)
  by_cases hq : q = s.port
  · subst hq
    rw [hsame]
    exact ⟨fun _ => ⟨rfl, decode_encode i⟩, fun hn => absurd rfl hn⟩
  · rw [ctx_setCtx_other hw hq]
    exact ⟨fun hn => absurd hn hq, fun _ => h.other_beside⟩

/-- An operation on a channel runs to its response among the others when its own statements lead from place to place:
`Place n` says where it stands `n` statements before the last, and `Final` what it has done with its response. -/
theorem exec_reaches (h : s.Serves i ch) {Place : Nat → Ctx → (Reg → Word32) → List Event → Prop}
    {Final : (Reg → Word32) → List Event → Response → Prop} {n : Nat} (hn : n < maxStatements)
    (hstart : Place n (Ctx.accepted (encode i)) (s.channelReg ch) [])
    (hgoes : ∀ n c e acc u, Running s.port i ch s e acc c u → Place (n + 1) c e acc →
      ∃ c' u' e' acc', statementOf i s.port c u = .goes c' u' ∧ Touches s.port i u u' ∧ u'.Holds deviceMask ch e' ∧
        u'.AccessedSince s.port u acc' ∧ Place n c' e' (acc' ++ acc))
    (hanswers : ∀ c e acc u, Running s.port i ch s e acc c u → Place 0 c e acc →
      ∃ r u' e' acc', statementOf i s.port c u = .answers r u' ∧ Touches s.port i u u' ∧ u'.Holds deviceMask ch e' ∧
        u'.AccessedSince s.port u acc' ∧ Final e' (acc' ++ acc) r) :
    ∃ t e acc r, exec i s = .next t ∧ Answered s.port ch s e acc r t ∧ Final e acc r := by
  have hallowed : ∀ x ∈ s.pending, x.keepsDuty s.port i = true ∧ x.apartFrom s.port s.cfg.variant i = true := by
    have hser := h.serialised
    simp only [State.serialised, Bool.and_eq_true] at hser
    exact fun x hx => ⟨List.all_eq_true.1 h.duty x hx, List.all_eq_true.1 hser.2 x hx⟩
  obtain ⟨t, ht, e, acc, r, hans, hfinal⟩ := runInputs_reaches (stmt := statementOf i) (p := s.port)
    (At := fun n u => ∃ c e acc, Running s.port i ch s e acc c u ∧ Place n c e acc)
    (Done := fun u => ∃ e acc r, Answered s.port ch s e acc r u ∧ Final e acc r)
    (fun _ u ⟨_, _, _, hrun, _⟩ => hrun.busy)
    (fun u ⟨_, _, _, hans, _⟩ => by rw [hans.ctx]; rfl)
    (fun u l ⟨e, acc, r, hans, hfinal⟩ => ⟨e, acc, r,
      ⟨hans.cfg, hans.res, hans.mapped, hans.ctx, hans.response, hans.holds.of_same rfl rfl, hans.accesses⟩, hfinal⟩)
    (fun u ⟨c, e, acc, hrun, hplace⟩ => by
      obtain ⟨r, u', e', acc', hst, htouch, hholds, hacc, hfinal⟩ := hanswers c e acc u hrun hplace
      obtain ⟨t, ht, hans⟩ := hrun.own_answers hst htouch hholds hacc
      exact ⟨t, ht, e', _, r, hans, hfinal⟩)
    (fun n u ⟨c, e, acc, hrun, hplace⟩ => by
      obtain ⟨c', u', e', acc', hst, htouch, hholds, hacc, hplace'⟩ := hgoes n c e acc u hrun hplace
      obtain ⟨t, ht, hrun'⟩ := hrun.own_goes hst htouch hholds hacc
      exact ⟨t, ht, c', e', _, hrun', hplace'⟩)
    (fun n u x ⟨c, e, acc, hrun, hplace⟩ hx hne => by
      obtain ⟨t, ht, hrun'⟩ := hrun.other h.channel h.accessible h.rate hx.1 hx.2 hne
      exact ⟨t, ht, c, e, acc, hrun', hplace⟩)
    hallowed ⟨_, _, _, h.running, hstart⟩ hn
  exact ⟨t, e, acc, r, (exec_of_canStart h.canStart (isLifecycle_of_touches h.channel)).trans ht, hans, hfinal⟩

end State.Serves

end Sys2Proof.Machine

/-! SUPPORT. GET_STATE and APPLY among other agents, statement by statement (42_get_state.md R140; 43_apply.md R150). -/

namespace Sys2Proof.Machine

/-- A value agrees with the register `r` of channel `ch` in `s` in every bit the device may not change. -/
def State.AgreesWith (s : State) (ch : Channel) (r : Reg) (v : Word32) : Prop :=
  ∀ k, (deviceMask r).getLsbD k = false → v.getLsbD k = (s.channelReg ch r).getLsbD k

theorem seq_next {c : Ctx} {n : BitVec 3} (h : c.seq = n) : c.next.seq = n + 1 := by rw [Ctx.next, h]

section Own

variable {p : Nat} {i : Instr} {ch : Channel} {s₀ s : State} {e : Reg → Word32} {acc : List Event} {c : Ctx}

theorem Running.channelBase (h : Running p i ch s₀ e acc c s) : s.channelBase ch = s₀.channelBase ch :=
  channelBase_congr h.cfg ch

/-- What the port reads at a register of its channel agrees with what the register is known to hold. -/
theorem Running.readAt (h : Running p i ch s₀ e acc c s) (hcb : c.cb = s₀.channelBase ch) {r : Reg}
    (he : e r = s₀.channelReg ch r) : s₀.AgreesWith ch r (s.readAt (effAddr c.cb r)) := by
  intro k hk
  rw [hcb, ← h.channelBase, ← he]
  exact h.holds.bits r k hk

theorem accessedSince_afterRead (s : State) (p : Nat) (ea : Word64) :
    (s.afterRead p ea).AccessedSince p s [.read p ea (s.readAt ea)] :=
  accessedSince_of_own rfl (decide_eq_true rfl)

theorem accessedSince_afterWrite (s : State) (p : Nat) (ea : Word64) (v : Word32) :
    (s.afterWrite p ea v).AccessedSince p s [.write p ea v] :=
  accessedSince_of_own rfl (decide_eq_true rfl)

/-- The port's write to a register of its channel. -/
theorem Running.write (h : Running p i ch s₀ e acc c s) (hi : touchedChannel i = some ch)
    (hcb : c.cb = s₀.channelBase ch) (r : Reg) (v : Word32) :
    Touches p i s (s.afterWrite p (effAddr c.cb r) v) ∧
      (s.afterWrite p (effAddr c.cb r) v).Holds deviceMask ch (Function.update e r v) := by
  rw [hcb, ← h.channelBase]
  exact ⟨.write hi r v, h.holds.write p r v rfl⟩

end Own

/-! ### GET_STATE -/

/-- Where GET_STATE stands, by the statements still before its last: what it has latched and read. -/
inductive GetStatePlace (p : Nat) (ch : Channel) (s₀ : State) : Nat → Ctx → (Reg → Word32) → List Event → Prop
  | resolving {c : Ctx} (hq : c.seq = 0) : GetStatePlace p ch s₀ 3 c (s₀.channelReg ch) []
  | readingLrc {c : Ctx} (hq : c.seq = 1) (hcb : c.cb = s₀.channelBase ch) :
    GetStatePlace p ch s₀ 2 c (s₀.channelReg ch) []
  | readingHrc {c : Ctx} (hq : c.seq = 2) (hcb : c.cb = s₀.channelBase ch) (hlrc : s₀.AgreesWith ch .lrc c.tp) :
    GetStatePlace p ch s₀ 1 c (s₀.channelReg ch) [.read p (effAddr (s₀.channelBase ch) .lrc) c.tp]
  | readingCtrl {c : Ctx} (hq : c.seq = 3) (hcb : c.cb = s₀.channelBase ch) (hlrc : s₀.AgreesWith ch .lrc c.tp)
    (hhrc : s₀.AgreesWith ch .hrc c.td) :
    GetStatePlace p ch s₀ 0 c (s₀.channelReg ch)
      [.read p (effAddr (s₀.channelBase ch) .hrc) c.td, .read p (effAddr (s₀.channelBase ch) .lrc) c.tp]

/-- What GET_STATE has done: three reads, and the response made of their values (42_get_state.md R141 to R144). -/
inductive GetStateFinal (p : Nat) (ch : Channel) (s₀ : State) : (Reg → Word32) → List Event → Response → Prop
  | read {lrc hrc ctrl : Word32} (hlrc : s₀.AgreesWith ch .lrc lrc) (hhrc : s₀.AgreesWith ch .hrc hrc)
    (hctrl : s₀.AgreesWith ch .ctrl ctrl) :
    GetStateFinal p ch s₀ (s₀.channelReg ch)
      [.read p (effAddr (s₀.channelBase ch) .ctrl) ctrl, .read p (effAddr (s₀.channelBase ch) .hrc) hrc,
        .read p (effAddr (s₀.channelBase ch) .lrc) lrc]
      (stateResponse s₀.cfg.clkRate lrc hrc ctrl)

section GetState

variable {p : Nat} {ch : Channel} {s₀ s : State} {e : Reg → Word32} {acc : List Event} {c : Ctx}

theorem getState_goes (hacc : s₀.accessible = true) {n : Nat} (h : Running p (.getState ch) ch s₀ e acc c s)
    (hplace : GetStatePlace p ch s₀ (n + 1) c e acc) :
    ∃ c' s' e' acc', getStateStatement ch p c s = .goes c' s' ∧ Touches p (.getState ch) s s' ∧
      s'.Holds deviceMask ch e' ∧ s'.AccessedSince p s acc' ∧ GetStatePlace p ch s₀ n c' e' (acc' ++ acc) := by
  have hacc' := h.accessible hacc
  cases hplace with
  | resolving hq =>
    refine ⟨_, _, _, [], getState_resolves hq (inService_of_accessible hacc'), .nothing, h.holds,
      accessedSince_of_trace_eq rfl, .readingLrc ?_ h.channelBase⟩
    exact seq_next hq
  | readingLrc hq hcb =>
    have hread := h.readAt hcb (r := .lrc) rfl
    refine ⟨_, _, _, _, getState_reads_lrc hq hacc', .read _, h.holds.read p _, accessedSince_afterRead _ _ _, ?_⟩
    rw [hcb] at hread ⊢
    exact .readingHrc (seq_next hq) hcb hread
  | readingHrc hq hcb hlrc =>
    have hread := h.readAt hcb (r := .hrc) rfl
    refine ⟨_, _, _, _, getState_reads_hrc hq hacc', .read _, h.holds.read p _, accessedSince_afterRead _ _ _, ?_⟩
    rw [hcb] at hread ⊢
    exact .readingCtrl (seq_next hq) hcb hlrc hread

theorem getState_ends (hacc : s₀.accessible = true) (hrate : s₀.cfg.clkRate ≠ 0)
    (h : Running p (.getState ch) ch s₀ e acc c s) (hplace : GetStatePlace p ch s₀ 0 c e acc) :
    ∃ r s' e' acc', getStateStatement ch p c s = .answers r s' ∧ Touches p (.getState ch) s s' ∧
      s'.Holds deviceMask ch e' ∧ s'.AccessedSince p s acc' ∧ GetStateFinal p ch s₀ e' (acc' ++ acc) r := by
  cases hplace with
  | readingCtrl hq hcb hlrc hhrc =>
    have hread := h.readAt hcb (r := .ctrl) rfl
    refine ⟨_, _, _, _, getState_answers hq (h.accessible hacc) (h.cfg ▸ hrate), .read _, h.holds.read p _,
      accessedSince_afterRead _ _ _, ?_⟩
    rw [hcb] at hread ⊢
    rw [h.cfg]
    exact .read hlrc hhrc hread

end GetState

/-- Settles O56: GET_STATE goes from place to place among the others, and its last place has the three values read. -/
theorem getStateUnderDeviceMoves : Obligations.GetStateUnderDeviceMoves := by
  unfold Obligations.GetStateUnderDeviceMoves
  intro ch s hstart hacc hrate hwf hfits hduty hser
  have hserves : s.Serves (.getState ch) ch := ⟨hstart, hacc, hrate, hwf, hfits, hduty, hser, rfl⟩
  obtain ⟨t, e, acc, r, ht, hans, hfinal⟩ := hserves.exec_reaches (n := 3) (by decide)
    (Place := GetStatePlace s.port ch s) (Final := GetStateFinal s.port ch s) (.resolving rfl)
    (fun _ _ _ _ _ hrun hplace => getState_goes hacc hrun hplace)
    (fun _ _ _ _ hrun hplace => getState_ends hacc hrate hrun hplace)
  obtain @⟨lrc, hrc, ctrl, hlrc, hhrc, hctrl⟩ := hfinal
  obtain ⟨new, hnew, hfilter⟩ := hans.accesses
  refine ⟨t, lrc, hrc, ctrl, new, ht, hans.ctx, ?_, hnew, hfilter, hlrc, hhrc, hctrl, hans.holds.bits, hans.cfg,
    hans.res, hans.mapped⟩
  rw [hans.response, stateResponse, enabledOf_eq_getLsbD]
  rfl

/-! ### APPLY -/

/-- The registers once the period, the duty cycle and the counter are written (43_apply.md R153 to R155). -/
def timesRegs (e : Reg → Word32) (tp td : Word32) : Reg → Word32 :=
  Function.update (Function.update (Function.update e .lrc tp) .hrc td) .cntr 0

/-- Where APPLY stands, by the statements still before its last: what it has latched and written. -/
inductive ApplyPlace (ch : Channel) (s₀ : State) (tp td : Word32) :
    Nat → Ctx → (Reg → Word32) → List Event → Prop
  | converting {c : Ctx} {acc : List Event} (hq : c.seq = 0) : ApplyPlace ch s₀ tp td 5 c (s₀.channelReg ch) acc
  | writingLrc {c : Ctx} {acc : List Event} (hq : c.seq = 1) (hcb : c.cb = s₀.channelBase ch) (htp : c.tp = tp)
    (htd : c.td = td) : ApplyPlace ch s₀ tp td 4 c (s₀.channelReg ch) acc
  | writingHrc {c : Ctx} {acc : List Event} (hq : c.seq = 2) (hcb : c.cb = s₀.channelBase ch) (htd : c.td = td) :
    ApplyPlace ch s₀ tp td 3 c (Function.update (s₀.channelReg ch) .lrc tp) acc
  | clearingCntr {c : Ctx} {acc : List Event} (hq : c.seq = 3) (hcb : c.cb = s₀.channelBase ch) :
    ApplyPlace ch s₀ tp td 2 c (Function.update (Function.update (s₀.channelReg ch) .lrc tp) .hrc td) acc
  | readingCtrl {c : Ctx} {acc : List Event} (hq : c.seq = 4) (hcb : c.cb = s₀.channelBase ch) :
    ApplyPlace ch s₀ tp td 1 c (timesRegs (s₀.channelReg ch) tp td) acc
  | writingCtrl {c : Ctx} {acc : List Event} (hq : c.seq = 5) (hcb : c.cb = s₀.channelBase ch)
    (htc : s₀.AgreesWith ch .ctrl c.tc) : ApplyPlace ch s₀ tp td 0 c (timesRegs (s₀.channelReg ch) tp td) acc

/-- What APPLY has done: the registers written, `CTRL` from a value read, and the response OK (43_apply.md R157,
R158). -/
inductive ApplyFinal (ch : Channel) (s₀ : State) (tp td : Word32) (en : Bool) :
    (Reg → Word32) → List Event → Response → Prop
  | written {tc : Word32} {acc : List Event} (htc : s₀.AgreesWith ch .ctrl tc) :
    ApplyFinal ch s₀ tp td en
      (Function.update (timesRegs (s₀.channelReg ch) tp td) .ctrl (ctrlWithEnable tc en)) acc (Response.only .ok)

section Apply

variable {p : Nat} {ch : Channel} {en : Bool} {period duty : Word64} {s₀ s : State} {e : Reg → Word32}
  {acc : List Event} {c : Ctx}

theorem apply_goes (hacc : s₀.accessible = true) {n : Nat}
    (h : Running p (.apply ch en .inversed period duty) ch s₀ e acc c s)
    (hplace : ApplyPlace ch s₀ (tickReg period s₀.cfg.clkRate) (tickReg duty s₀.cfg.clkRate) (n + 1) c e acc) :
    ∃ c' s' e' acc', applyStatement ch en .inversed period duty p c s = .goes c' s' ∧
      Touches p (.apply ch en .inversed period duty) s s' ∧ s'.Holds deviceMask ch e' ∧ s'.AccessedSince p s acc' ∧
      ApplyPlace ch s₀ (tickReg period s₀.cfg.clkRate) (tickReg duty s₀.cfg.clkRate) n c' e' (acc' ++ acc) := by
  have hacc' := h.accessible hacc
  cases hplace with
  | converting hq =>
    refine ⟨_, _, _, [], apply_converts hq (inService_of_accessible hacc'), .nothing, h.holds,
      accessedSince_of_trace_eq rfl, .writingLrc ?_ h.channelBase ?_ ?_⟩
    · exact seq_next hq
    · rw [h.cfg]
    · rw [h.cfg]
  | writingLrc hq hcb htp htd =>
    obtain ⟨ht, hholds⟩ := h.write rfl hcb .lrc c.tp
    refine ⟨_, _, _, _, apply_writes_lrc hq hacc', ht, hholds, accessedSince_afterWrite _ _ _ _, ?_⟩
    rw [htp]
    exact .writingHrc (seq_next hq) hcb htd
  | writingHrc hq hcb htd =>
    obtain ⟨ht, hholds⟩ := h.write rfl hcb .hrc c.td
    refine ⟨_, _, _, _, apply_writes_hrc hq hacc', ht, hholds, accessedSince_afterWrite _ _ _ _, ?_⟩
    rw [htd]
    exact .clearingCntr (seq_next hq) hcb
  | clearingCntr hq hcb =>
    obtain ⟨ht, hholds⟩ := h.write rfl hcb .cntr 0
    exact ⟨_, _, _, _, apply_clears_cntr hq hacc', ht, hholds, accessedSince_afterWrite _ _ _ _,
      .readingCtrl (seq_next hq) hcb⟩
  | readingCtrl hq hcb =>
    exact ⟨_, _, _, _, apply_reads_ctrl hq hacc', .read _, h.holds.read p _, accessedSince_afterRead _ _ _,
      .writingCtrl (seq_next hq) hcb (h.readAt hcb rfl)⟩

theorem apply_ends (hacc : s₀.accessible = true)
    (h : Running p (.apply ch en .inversed period duty) ch s₀ e acc c s)
    (hplace : ApplyPlace ch s₀ (tickReg period s₀.cfg.clkRate) (tickReg duty s₀.cfg.clkRate) 0 c e acc) :
    ∃ r s' e' acc', applyStatement ch en .inversed period duty p c s = .answers r s' ∧
      Touches p (.apply ch en .inversed period duty) s s' ∧ s'.Holds deviceMask ch e' ∧ s'.AccessedSince p s acc' ∧
      ApplyFinal ch s₀ (tickReg period s₀.cfg.clkRate) (tickReg duty s₀.cfg.clkRate) en e' (acc' ++ acc) r := by
  cases hplace with
  | writingCtrl hq hcb htc =>
    obtain ⟨ht, hholds⟩ := h.write rfl hcb .ctrl (ctrlWithEnable c.tc en)
    exact ⟨_, _, _, _, apply_writes_ctrl hq (h.accessible hacc), ht, hholds, accessedSince_afterWrite _ _ _ _,
      .written htc⟩

end Apply

/-- Settles O32: APPLY goes from place to place among the others, and its writes stand in every bit that the device may
not change. -/
theorem applyUnderDeviceMoves : Obligations.ApplyUnderDeviceMoves := by
  unfold Obligations.ApplyUnderDeviceMoves
  intro ch en period duty s hstart hacc hrate hwf hfits hduty hser
  have hserves : s.Serves (.apply ch en .inversed period duty) ch :=
    ⟨hstart, hacc, hrate, hwf, hfits, hduty, hser, rfl⟩
  obtain ⟨t, e, acc, r, ht, hans, hfinal⟩ := hserves.exec_reaches (n := 5) (by decide)
    (Place := ApplyPlace ch s (tickReg period s.cfg.clkRate) (tickReg duty s.cfg.clkRate))
    (Final := ApplyFinal ch s (tickReg period s.cfg.clkRate) (tickReg duty s.cfg.clkRate) en) (.converting rfl)
    (fun _ _ _ _ _ hrun hplace => apply_goes hacc hrun hplace)
    (fun _ _ _ _ hrun hplace => apply_ends hacc hrun hplace)
  obtain @⟨tc, _, htc⟩ := hfinal
  refine ⟨t, ht, hans.ctx, hans.response, hans.holds.bits .lrc, hans.holds.bits .hrc, fun k hk => ?_, hans.cfg,
    hans.res, hans.mapped⟩
  have hbit := hans.holds.bits .ctrl k hk
  rw [Function.update_self, ctrlWithEnable_getLsbD, htc k hk] at hbit
  exact hbit

end Sys2Proof.Machine

/-! SUPPORT. A whole operation as a run of inputs: each statement is one step of its port, and no operation has more than
`maxStatements` of them (10_state.md R21; 20_memory.md R65; 60_exceptions.md R208, R209). -/

namespace Sys2Proof.Machine

/-! ### One outcome after the other -/

/-- What follows a next state; a fault or a refusal ends the run. -/
def thenRun (r : Result) (k : State → Result) : Result :=
  match r with
  | .next s => k s
  | .fault f => .fault f
  | .refused e => .refused e

@[simp] theorem thenRun_next (s : State) (k : State → Result) : thenRun (.next s) k = k s := rfl
@[simp] theorem thenRun_fault (f : Fault) (k : State → Result) : thenRun (.fault f) k = .fault f := rfl
@[simp] theorem thenRun_refused (e : Refusal) (k : State → Result) : thenRun (.refused e) k = .refused e := rfl

theorem thenRun_congr {r : Result} {k k' : State → Result} (h : ∀ t, r = .next t → k t = k' t) :
    thenRun r k = thenRun r k' := by
  cases r with
  | next t => exact h t rfl
  | fault f => rfl
  | refused e => rfl

theorem consumeAll_cons (x : Input) (xs : List Input) (s : State) :
    consumeAll (x :: xs) s = thenRun (consume x s) (consumeAll xs) := by
  rfl

theorem consume_advance (p : Nat) (s : State) : consume (.advance p) s = advance p s := rfl

theorem consume_command (p : Nat) (c : Command) (s : State) : consume (.command p c) s = offer p c s := rfl

theorem runAlone_succ {stmt : Statement} {p n : Nat} {s : State} (hb : (s.ctx p).busy = true) :
    runAlone stmt p (n + 1) s = thenRun (runStatement stmt p s) (runAlone stmt p n) := by
  exact if_pos hb

/-- While port `p` has the operation `i` latched, the next input inside it is one step of one agent. -/
theorem runInputs_cons {i : Instr} {p : Nat} {x : Input} {xs : List Input} {s : State} (hb : (s.ctx p).busy = true)
    (hd : decode (s.ctx p).cmd = .ok i) :
    runInputs (statementOf i) p (x :: xs) s = thenRun (consume x s) (runInputs (statementOf i) p xs) := by
  cases x with
  | advance q =>
    by_cases hq : q = p
    · subst hq
      rw [runInputs, if_pos hb, if_pos rfl, consume_advance, advance_busy hb hd]
      rfl
    · rw [runInputs, if_pos hb, if_neg hq]
      rfl
  | command q c => exact if_pos hb
  | device b r v => exact if_pos hb
  | platform e => exact if_pos hb
  | reset => exact if_pos hb

/-- A whole operation is its acceptance and then the run from the state that leaves. -/
theorem exec_eq_thenRun (i : Instr) (s : State) :
    exec i s =
      if (s.ctx s.port).busy && portExists s.port then .next s
      else thenRun (accept s.port i (encode i) s)
        fun t => runInputs (statementOf i) s.port s.pending { t with pending := [] } := by
  rw [exec_eq_runOperation]
  rfl

/-- A port that runs nothing has nothing to advance. -/
theorem consumeAll_advance_idle {p : Nat} {s : State} (h : (s.ctx p).busy = false) (n : Nat) :
    consumeAll (List.replicate n (.advance p)) s = .next s := by
  induction n with
  | zero => rfl
  | succ n ih =>
    rw [List.replicate_succ, consumeAll_cons, consume_advance, advance_idle h]
    exact ih

/-! ### How many statements an operation has -/

/-- The outcome is no further statement. -/
def Progress.Ends : Progress → Prop
  | .goes _ _ => False
  | .answers _ _ => True
  | .faults _ => True
  | .refuses _ => True

theorem ends_ite {b : Prop} [Decidable b] {x y : Progress} (hx : x.Ends) (hy : y.Ends) :
    (if b then x else y).Ends := by split <;> assumption

theorem ends_underDuty {var : Variant} {base : Word64} {s : State} {k : Progress} (hk : k.Ends) :
    (underDuty var base s k).Ends := ends_ite (ends_ite hk trivial) trivial

theorem ends_access {s : State} {k : Progress} (hk : k.Ends) : (access s k).Ends := ends_ite (ends_underDuty hk) trivial

/-- Statement 5 ends the operation if no statement before it has (60_exceptions.md R208). -/
theorem statementOf_ends (i : Instr) (p : Nat) {c : Ctx} (s : State) (hq : 5 ≤ c.seq.toNat) :
    (statementOf i p c s).Ends := by
  cases i with
  | init var clk base =>
    show (initStatement var clk base p c s).Ends
    unfold initStatement
    split
    any_goals omega
    · exact ends_ite (ends_underDuty trivial) trivial
    · trivial
  | teardown =>
    show (teardownStatement p c s).Ends
    unfold teardownStatement
    split
    any_goals omega
    trivial
  | resolve ch =>
    show (resolveStatement ch p c s).Ends
    unfold resolveStatement
    split
    · omega
    · trivial
  | getState ch =>
    show (getStateStatement ch p c s).Ends
    unfold getStateStatement
    split
    any_goals omega
    trivial
  | apply ch en pol period duty =>
    show (applyStatement ch en pol period duty p c s).Ends
    unfold applyStatement
    split
    any_goals omega
    · exact ends_access trivial
    · trivial

/-- A statement that goes on leaves a position below `maxStatements`. -/
theorem seq_lt_of_goes {i : Instr} {p : Nat} {c c' : Ctx} {s s' : State} (h : statementOf i p c s = .goes c' s') :
    c.seq.toNat < 5 := by
  by_contra hq
  have hends := statementOf_ends i p s (Nat.le_of_not_lt hq)
  rw [h] at hends
  exact hends

/-! ### A latched operation -/

/-- Port `p` runs nothing, or has the operation `i` latched with at most `n` statements still to run. -/
def State.Latched (s : State) (p : Nat) (i : Instr) (n : Nat) : Prop :=
  (s.ctx p).busy = true →
    decode (s.ctx p).cmd = .ok i ∧ (s.ctx p).seq.toNat < maxStatements ∧ maxStatements ≤ (s.ctx p).seq.toNat + n

theorem latched_accepted {s : State} (hw : canonical Ctx.idle s.ports = true) (p : Nat) (i : Instr) :
    (s.setCtx p (Ctx.accepted (encode i))).Latched p i maxStatements := by
  intro _
  rw [ctx_setCtx_same hw]
  exact ⟨decode_encode i, Nat.succ_pos 5, Nat.le_add_left _ _⟩

/-- One statement less is left after each. -/
theorem State.Latched.statement {s t : State} {p n : Nat} {i : Instr} (hw : canonical Ctx.idle s.ports = true)
    (h : s.Latched p i (n + 1)) (hb : (s.ctx p).busy = true) (ht : runStatement (statementOf i) p s = .next t) :
    canonical Ctx.idle t.ports = true ∧ t.Latched p i n := by
  obtain ⟨hd, -, hn⟩ := h hb
  have hk := statementOf_keeps i p (s.ctx p) s
  obtain ⟨c', s', hst, rfl⟩ | ⟨r, s', hst, rfl⟩ := runStatement_next ht
  · have hlt := seq_lt_of_goes hst
    rw [hst] at hk
    obtain ⟨⟨hp, -⟩, -, hcmd, hseq⟩ := hk
    have hw' : canonical Ctx.idle s'.ports = true := hp ▸ hw
    have hnat : c'.seq.toNat = (s.ctx p).seq.toNat + 1 := by
      rw [hseq, BitVec.toNat_add]
      exact Nat.mod_eq_of_lt (by simp; omega)
    refine ⟨canonical_setCtx hw' p c', fun _ => ?_⟩
    rw [ctx_setCtx_same hw', hcmd, hnat]
    refine ⟨hd, ?_, by omega⟩
    rw [maxStatements]
    omega
  · rw [hst] at hk
    obtain ⟨hp, -⟩ := hk
    have hw' : canonical Ctx.idle s'.ports = true := hp ▸ hw
    refine ⟨canonical_setCtx hw' p Ctx.idle, fun hb' => ?_⟩
    rw [ctx_respond_same hw'] at hb'
    cases hb'

/-- A port that runs alone takes one step after the other (60_exceptions.md R209). -/
theorem runAlone_eq_consumeAll {i : Instr} {p n : Nat} {s : State} (hw : canonical Ctx.idle s.ports = true)
    (h : s.Latched p i n) :
    runAlone (statementOf i) p n s = consumeAll (List.replicate n (.advance p)) s := by
  induction n generalizing s with
  | zero =>
    have hb : (s.ctx p).busy = false := by
      rw [← Bool.not_eq_true]
      intro hb
      obtain ⟨-, hlt, hle⟩ := h hb
      omega
    exact runAlone_idle hb
  | succ n ih =>
    cases hb : (s.ctx p).busy with
    | false => rw [runAlone_idle hb, consumeAll_advance_idle hb]
    | true =>
      obtain ⟨hd, -⟩ := h hb
      rw [runAlone_succ hb, List.replicate_succ, consumeAll_cons, consume_advance, advance_busy hb hd]
      refine thenRun_congr fun t ht => ?_
      obtain ⟨hw', h'⟩ := h.statement hw hb ht
      exact ih hw' h'

/-- Settles O54: with nothing pending the operation runs alone from the state that acceptance leaves. -/
theorem wholeOperationIsItsStatements : Obligations.WholeOperationIsItsStatements := by
  unfold Obligations.WholeOperationIsItsStatements
  intro i s hstart hquiet hp
  rw [exec_undisturbed hstart hquiet hp, consumeAll_cons, consume_command, offer_operation (decode_encode i),
    accept_of_canStart hstart hquiet, thenRun_next]
  simp only [State.canStart, Bool.and_eq_true, decide_eq_true_eq] at hstart
  obtain ⟨⟨⟨-, hidle⟩, -⟩, hw⟩ := hstart
  rw [← runAlone_eq_drive i s.port maxStatements hw hidle rfl]
  exact runAlone_eq_consumeAll (canonical_setCtx hw _ _) (latched_accepted hw _ _)

end Sys2Proof.Machine

/-! SUPPORT. A run of inputs from a sound state never ends in a fault: no statement faults from a context that fits, and
an operation is never left with statements it has not got (20_memory.md R51; 41_convert.md R123; 60_exceptions.md
R208). -/

namespace Sys2Proof.Machine

/-- The outcome is no fault. -/
def Faultless (r : Result) : Prop := ∀ f, r ≠ .fault f

theorem faultless_next (s : State) : Faultless (.next s) := nofun

theorem faultless_ite {b : Prop} [Decidable b] {x y : Result} (hx : Faultless x) (hy : Faultless y) :
    Faultless (if b then x else y) := by split <;> assumption

theorem faultless_thenRun {r : Result} {k : State → Result} (hr : Faultless r)
    (hk : ∀ t, r = .next t → Faultless (k t)) :
    Faultless (thenRun r k) := by
  cases r with
  | next t => exact hk t rfl
  | fault f => exact absurd rfl (hr f)
  | refused e => exact nofun

/-! ### The positions of an operation -/

theorem lt_of_initInFlight {n : Nat} {s : State} (h : initInFlight n s = true) : n < maxStatements := by
  unfold initInFlight at h
  split at h
  any_goals decide
  cases h

theorem lt_of_teardownInFlight {n : Nat} {s : State} (h : teardownInFlight n s = true) : n < maxStatements := by
  unfold teardownInFlight at h
  split at h
  any_goals decide
  cases h

/-- A context that fits stands at a statement its operation has (10_state.md R21). -/
theorem seq_lt_of_ctxFits {s : State} {c : Ctx} (h : ctxFits s c = true) : c.seq.toNat < maxStatements := by
  obtain ⟨i, hd⟩ := decodes_of_ctxFits h
  simp only [ctxFits, hd] at h
  cases i with
  | init var clk base =>
    simp only [Bool.and_eq_true] at h
    exact lt_of_initInFlight h.1
  | teardown => exact lt_of_teardownInFlight h
  | resolve ch =>
    simp only [Bool.and_eq_true, decide_eq_true_eq] at h
    rw [h.2]
    decide
  | getState ch =>
    simp only [Bool.and_eq_true, decide_eq_true_eq] at h
    obtain ⟨⟨-, hq⟩, -⟩ := h
    exact Nat.lt_of_le_of_lt hq (by decide)
  | apply ch en pol period duty =>
    simp only [Bool.and_eq_true, decide_eq_true_eq] at h
    obtain ⟨⟨-, hq⟩, -⟩ := h
    exact Nat.lt_of_le_of_lt hq (by decide)

/-! ### One input -/

theorem faultless_accept (p : Nat) (i : Instr) (c : Command) (s : State) : Faultless (accept p i c s) :=
  faultless_ite (faultless_ite (faultless_next _) (faultless_ite nofun (faultless_next _))) nofun

theorem faultless_rejectReserved (p : Nat) (s : State) : Faultless (rejectReserved p s) :=
  faultless_ite (faultless_ite (faultless_next _) (faultless_next _)) nofun

namespace State.Sound

variable {s : State}

/-- The context of a port that advances fits its operation, so the statement it stands at does not fault. -/
theorem faultless_advance (h : s.Sound) (p : Nat) : Faultless (advance p s) := by
  cases hb : (s.ctx p).busy with
  | false =>
    rw [advance_idle hb]
    exact faultless_next s
  | true =>
    obtain ⟨i, hd⟩ := decodes_of_ctxFits (h.fits p hb)
    have hok := statementOf_ok i p (s.ctx p) s hd (h.fits p hb)
    rw [advance_busy hb hd, runStatement]
    cases hst : statementOf i p (s.ctx p) s with
    | goes c t => exact faultless_next _
    | answers r t => exact faultless_next _
    | faults f =>
      rw [hst] at hok
      exact hok.elim
    | refuses e => exact nofun

theorem faultless_consume (h : s.Sound) (x : Input) : Faultless (Machine.consume x s) := by
  cases x with
  | command p c =>
    cases hd : decode c with
    | ok i =>
      rw [consume_command, offer_operation hd]
      exact faultless_accept p i c s
    | error e =>
      rw [consume_command, offer_reserved hd]
      exact faultless_rejectReserved p s
  | advance p => exact h.faultless_advance p
  | device b r v => exact faultless_next _
  | platform e => exact faultless_next _
  | reset => exact faultless_ite nofun (faultless_next _)

/-! ### Runs of inputs -/

theorem faultless_consumeAll (h : s.Sound) (xs : List Input) : Faultless (consumeAll xs s) := by
  induction xs generalizing s with
  | nil => exact faultless_next s
  | cons x xs ih =>
    rw [consumeAll_cons]
    exact faultless_thenRun (h.faultless_consume x) fun t ht => ih (h.consume x ht)

/-- The port of a latched operation has no more statements to run than `maxStatements`. -/
theorem latched_of_decodes (h : s.Sound) {p : Nat} {i : Instr}
    (hd : (s.ctx p).busy = true → decode (s.ctx p).cmd = .ok i) : s.Latched p i maxStatements :=
  fun hb => ⟨hd hb, seq_lt_of_ctxFits (h.fits p hb), Nat.le_add_left _ _⟩

/-- The inputs that fall inside an operation, and the port alone once they have run out. -/
theorem faultless_runInputs (h : s.Sound) {p : Nat} {i : Instr}
    (hd : (s.ctx p).busy = true → decode (s.ctx p).cmd = .ok i) (xs : List Input) :
    Faultless (runInputs (statementOf i) p xs s) := by
  induction xs generalizing s with
  | nil =>
    rw [runInputs, runAlone_eq_consumeAll h.canonical (h.latched_of_decodes hd)]
    exact h.faultless_consumeAll _
  | cons x xs ih =>
    cases hb : (s.ctx p).busy with
    | false =>
      rw [runInputs_idle hb]
      exact faultless_next _
    | true =>
      rw [runInputs_cons hb (hd hb)]
      exact faultless_thenRun (h.faultless_consume x) fun t ht =>
        ih (h.consume x ht) (h.latched hb (hd hb) x ht)

/-- A whole operation, whatever falls inside it. -/
theorem faultless_exec (h : s.Sound) (i : Instr) : Faultless (exec i s) := by
  rw [exec_eq_thenRun]
  split
  · exact faultless_next s
  · rename_i hn
    refine faultless_thenRun (faultless_accept _ _ _ _) fun t ht => ?_
    have hsound := h.accept (decode_encode i) ht
    obtain ⟨he, ⟨hb, -⟩ | ⟨-, -, -, rfl⟩⟩ := accept_next ht
    · exact absurd (by rw [hb, he]; rfl) hn
    · exact (hsound.setPending [] _).faultless_runInputs
        (fun hbusy => (latched_accepted h.canonical s.port i hbusy).1) s.pending

end State.Sound

/-- Settles O51: a step is a wait, a whole operation or one input, and none of them faults from a sound state. -/
theorem stepNeverFaults : Obligations.StepNeverFaults := by
  unfold Obligations.StepNeverFaults
  intro s f hg
  have hs := (good_iff_sound s).1 hg
  revert f
  show Faultless (step s)
  unfold step
  split
  · unfold idleStep
    split
    · exact hs.faultless_advance _
    · exact faultless_next s
  · rename_i p c rest hp
    unfold runCommand
    split
    · exact (hs.setPending rest p).faultless_exec _
    · exact faultless_rejectReserved p _
  · exact (hs.setPending _ s.port).faultless_consume _

end Sys2Proof.Machine

/-! SUPPORT. Addresses under the platform's duty, and the physical registers that offsets select (20_memory.md R56, R57,
R59; 70_reset_and_hazards.md R226). -/

namespace Sys2Proof.Machine

/-- The platform's duty on `base`, in numbers (70_reset_and_hazards.md R226; 20_memory.md R52). -/
theorem baseMeetsDuty_iff {v : Variant} {base : Word64} :
    baseMeetsDuty v base = true ↔ base.toNat % 4 = 0 ∧ base.toNat + v.windowBytes ≤ 2 ^ 64 := by
  simp only [baseMeetsDuty, Bool.and_eq_true, decide_eq_true_eq]

theorem windowBytes_eq (v : Variant) : v.windowBytes = if v = .flat then 0x80 else 0x8040 := by cases v <;> rfl

/-- A channel's register block starts at a multiple of 16 and lies inside the window (20_memory.md R52, R53). -/
theorem chanOff_in_window (v : Variant) (ch : Channel) :
    (chanOff v ch).toNat % 16 = 0 ∧ (chanOff v ch).toNat + 16 ≤ v.windowBytes := by
  revert ch
  cases v <;> decide

/-- Neither addition of the effective address wraps under the platform's duty (20_memory.md R56, R59). -/
theorem effAddr_toNat {v : Variant} {base : Word64} (hbase : baseMeetsDuty v base = true) (ch : Channel) (r : Reg) :
    (effAddr (channelBase base v ch) r).toNat = base.toNat + (chanOff v ch).toNat + (regOff r).toNat := by
  obtain ⟨-, htop⟩ := baseMeetsDuty_iff.1 hbase
  obtain ⟨-, hblock⟩ := chanOff_in_window v ch
  obtain ⟨-, hreg⟩ := regOff_mod r
  rw [effAddr, channelBase, BitVec.toNat_add, BitVec.toNat_add, Nat.mod_add_mod]
  exact Nat.mod_eq_of_lt (by omega)

/-- Settles O12: base, block and register offset are multiples of 4 that add up inside the window. -/
theorem addressesAlignedAndInRange : Obligations.AddressesAlignedAndInRange := by
  unfold Obligations.AddressesAlignedAndInRange
  intro v base ch r hbase
  obtain ⟨halign, htop⟩ := baseMeetsDuty_iff.1 hbase
  obtain ⟨hmod, hblock⟩ := chanOff_in_window v ch
  obtain ⟨hreg, hlast⟩ := regOff_mod r
  have hsum := effAddr_toNat hbase ch r
  exact ⟨hsum, by omega, by omega⟩

/-! ### Physical registers -/

/-- A register's physical offset names its block and its place in the block (20_memory.md R57). -/
theorem physOffset_register_inj {aliased : Bool} {v : Variant} {ch ch' : Channel} {r r' : Reg}
    (h : physOffset aliased v (chanOff v ch + regOff r) = physOffset aliased v (chanOff v ch' + regOff r')) :
    blockOffset aliased v ch = blockOffset aliased v ch' ∧ r = r' := by
  have hsum := congrArg BitVec.toNat h
  rw [physOffset_register, physOffset_register] at hsum
  have hblock := blockOffset_mod aliased v ch
  have hblock' := blockOffset_mod aliased v ch'
  obtain ⟨-, hreg⟩ := regOff_mod r
  obtain ⟨-, hreg'⟩ := regOff_mod r'
  exact ⟨by omega, regOff_inj (by omega)⟩

/-- Aliased banks put channel `k + 4` on the block of channel `k` (20_memory.md R57). -/
theorem blockOffset_aliased_add_four (ch : Channel) (h : ch.toNat < 4) :
    blockOffset true .banked (ch + 4) = blockOffset true .banked ch := by
  revert ch
  decide

theorem blockOffset_aliased_inj (ch ch' : Channel) (h : ch.toNat < 4) (h' : ch'.toNat < 4)
    (heq : blockOffset true .banked ch = blockOffset true .banked ch') : ch = ch' := by
  revert ch ch'
  decide

theorem blockOffset_unaliased_inj (v : Variant) (ch ch' : Channel)
    (heq : blockOffset false v ch = blockOffset false v ch') : ch = ch' := by
  revert ch ch'
  cases v <;> decide

/-- The physical offset as one case split (20_memory.md R57). -/
theorem physOffset_eq (aliased : Bool) (v : Variant) (off : Word64) :
    physOffset aliased v off =
      if v = .banked ∧ aliased = true ∧ 0x8000 ≤ off.toNat ∧ off.toNat ≤ 0x803F then off - 0x8000 else off := by
  cases v with
  | flat => simp [physOffset]
  | banked => cases aliased <;> simp [physOffset, Config.bankOffset]

/-- Settles O13: aliased channels share a block, all other pairs of channels have two. -/
theorem bankAliasing : Obligations.BankAliasing := by
  unfold Obligations.BankAliasing
  refine ⟨physOffset_eq, fun ch r hch => ?_, fun ch ch' r r' hch hch' hne heq => ?_, fun v ch ch' r r' hne heq => ?_⟩
  · apply BitVec.eq_of_toNat_eq
    rw [physOffset_register, physOffset_register, blockOffset_aliased_add_four ch hch]
  · obtain ⟨hblock, hreg⟩ := physOffset_register_inj heq
    exact hne.elim (absurd (blockOffset_aliased_inj ch ch' hch hch' hblock)) (absurd hreg)
  · obtain ⟨hblock, hreg⟩ := physOffset_register_inj heq
    exact hne.elim (absurd (blockOffset_unaliased_inj v ch ch' hblock)) (absurd hreg)

end Sys2Proof.Machine

/-! SUPPORT. What the step after a placed word runs (30_encoding.md R85; log 23). -/

namespace Sys2Proof.Machine

theorem decode_of_decodeTableWord {nbits w : Nat} {i : Instr} (h : decodeTableWord nbits w = some i) :
    decode (Command.ofTableWord nbits w) = .ok i := by
  unfold decodeTableWord at h
  split at h <;> cases h
  assumption

/-- A command next in line that decodes is run as a whole operation on its port (30_encoding.md R85). -/
theorem step_command {s : State} {p : Nat} {c : Command} {rest : List Input} {i : Instr}
    (h : s.pending = .command p c :: rest) (hd : decode c = .ok i) :
    step s = exec i { s with pending := rest, port := p } := by
  simp [step, h, runCommand, hd]

/-- Settles O7: the placed word is the command next in line, in front of what was pending. -/
theorem fetchedWordRunsNext : Obligations.FetchedWordRunsNext := by
  unfold Obligations.FetchedWordRunsNext
  intro s nbits w i h
  exact step_command rfl (decode_of_decodeTableWord h)

end Sys2Proof.Machine

/-! SUPPORT. INIT up to the statement that captures the configuration, and where the model refuses it
(44_lifecycle.md R172; 70_reset_and_hazards.md R226; log 15, log 22). -/

namespace Sys2Proof.Machine

theorem underDuty_refuses_base {var : Variant} {base : Word64} (h : ¬ baseMeetsDuty var base = true) (s : State)
    (k : Progress) : underDuty var base s k = .refuses .baseBreaksDuty := if_neg h

theorem underDuty_refuses_window {var : Variant} {base : Word64} {s : State} (hb : baseMeetsDuty var base = true)
    (hw : s.mapped < var.windowBytes) (k : Progress) : underDuty var base s k = .refuses .windowTooSmall :=
  (if_pos hb).trans (if_neg (Nat.not_le_of_lt hw))

/-- The reset line is deasserted where there is one (44_lifecycle.md R174). -/
def State.resetLineUp (s : State) : State :=
  match s.env.rst with
  | .absent => s
  | .present => s.deassertReset
  | .error => s

@[simp] theorem resetLineUp_env (s : State) : s.resetLineUp.env = s.env := by
  unfold State.resetLineUp
  split <;> rfl

@[simp] theorem resetLineUp_mapped (s : State) : s.resetLineUp.mapped = s.mapped := by
  unfold State.resetLineUp
  split <;> rfl

/-! ### The statements of INIT when the platform grants each request -/

section Init

variable {var : Variant} {clk base : Word64} {p : Nat} {c : Ctx} {s : State}

theorem init_starts (hq : c.seq = 0) (h : s.cfg.inService = false) :
    initStatement var clk base p c s = .goes c.next s := by
  simp [initStatement, hq, gate, h]

theorem init_maps (hq : c.seq = 1) (h : s.env.mapOk = true) :
    initStatement var clk base p c s = .goes c.next s.mapWindow := by
  simp [initStatement, hq, h]

theorem init_clocks (hq : c.seq = 2) (h : s.env.clkOk = true) :
    initStatement var clk base p c s = .goes c.next s.clockOn := by
  simp [initStatement, hq, h]

theorem init_accepts_rate (hq : c.seq = 3) (h : 0 < clk.toInt) :
    initStatement var clk base p c s = .goes c.next s := by
  simp [initStatement, hq, h]

theorem init_raises_reset_line (hq : c.seq = 4) (h : s.env.rst ≠ .error) :
    initStatement var clk base p c s = .goes c.next s.resetLineUp := by
  simp only [initStatement, hq, State.resetLineUp]
  cases hr : s.env.rst with
  | absent => rfl
  | present => rfl
  | error => exact absurd hr h

theorem init_captures (hq : c.seq = 5) (h : s.env.regOk = true) :
    initStatement var clk base p c s = underDuty var base s (respondOk (s.register.capture var clk base)) := by
  simp [initStatement, hq, h]

end Init

/-- What an INIT needs to come to its last statement: out of service, and every answer of the platform positive
(44_lifecycle.md R172, R173). -/
structure State.GrantsInit (s : State) (clk : Word64) : Prop where
  outOfService : s.cfg.inService = false
  mapOk : s.env.mapOk = true
  clkOk : s.env.clkOk = true
  rst : s.env.rst ≠ .error
  regOk : s.env.regOk = true
  rate : 0 < clk.toInt

/-- The state before the last statement of INIT: window mapped, clock on, reset line up (44_lifecycle.md R172). -/
def State.acquired (s : State) : State := s.mapWindow.clockOn.resetLineUp

/-- An undisturbed INIT that is granted everything comes to its last statement. -/
theorem exec_init_reaches_capture {var : Variant} {clk base : Word64} {s : State} (hstart : s.canStart = true)
    (hquiet : s.quiet = true) (hp : s.pending = []) (h : s.GrantsInit clk) :
    ∃ c : Ctx, c.seq = 5 ∧ exec (.init var clk base) s = drive (initStatement var clk base) s.port 1 c s.acquired := by
  refine ⟨(Ctx.accepted (encode (.init var clk base))).next.next.next.next.next, rfl, ?_⟩
  calc exec (.init var clk base) s
      = drive (initStatement var clk base) s.port 6 (Ctx.accepted _) s :=
        exec_undisturbed hstart (fun _ => hquiet) hp
    _ = drive (initStatement var clk base) s.port 5 _ s := drive_goes (init_starts rfl h.outOfService)
    _ = drive (initStatement var clk base) s.port 4 _ s.mapWindow := drive_goes (init_maps rfl h.mapOk)
    _ = drive (initStatement var clk base) s.port 3 _ s.mapWindow.clockOn := drive_goes (init_clocks rfl h.clkOk)
    _ = drive (initStatement var clk base) s.port 2 _ s.mapWindow.clockOn := drive_goes (init_accepts_rate rfl h.rate)
    _ = drive (initStatement var clk base) s.port 1 _ s.acquired := drive_goes (init_raises_reset_line rfl h.rst)

/-- The refusal at the capture is the refusal of the operation. -/
theorem exec_init_refused {var : Variant} {clk base : Word64} {s : State} {e : Refusal} (hstart : s.canStart = true)
    (hquiet : s.quiet = true) (hp : s.pending = []) (h : s.GrantsInit clk)
    (he : ∀ k, underDuty var base s.acquired k = .refuses e) : exec (.init var clk base) s = .refused e := by
  obtain ⟨c, hc, hexec⟩ := exec_init_reaches_capture (var := var) (base := base) hstart hquiet hp h
  have hreg : s.acquired.env.regOk = true := by simpa [State.acquired] using h.regOk
  exact hexec.trans (drive_refuses ((init_captures hc hreg).trans (he _)))

/-- Settles O35: the last statement captures under the duty only, and the window it looks at is the one just mapped. -/
theorem initRefusesBadBase : Obligations.InitRefusesBadBase := by
  unfold Obligations.InitRefusesBadBase
  intro var clk base s hstart hquiet hp hout hmap hclk hrst hregOk hrate
  have hgrants : s.GrantsInit clk := ⟨hout, hmap, hclk, hrst, hregOk, hrate⟩
  have hmapped : s.acquired.mapped = s.env.windowBytes := by simp [State.acquired]
  simp only [← windowBytes_eq, ← baseMeetsDuty_iff]
  refine ⟨fun hbase => ?_, fun hbase hwindow => ?_⟩
  · exact exec_init_refused hstart hquiet hp hgrants (underDuty_refuses_base hbase _)
  · exact exec_init_refused hstart hquiet hp hgrants (underDuty_refuses_window hbase (hmapped ▸ hwindow))

end Sys2Proof.Machine

/-! SUPPORT. The command record and the words of the interface, field by field (30_encoding.md R80 to R95). -/

namespace Sys2Proof

/-! ### The command word -/

theorem Command.toWord_hdr (c : Command) : c.toWord.extractLsb' 0 8 = c.hdr := BitVec.extractLsb'_append_eq_right

theorem Command.toWord_opa (c : Command) : c.toWord.extractLsb' 8 64 = c.opa := by
  rw [toWord, BitVec.extractLsb'_append_eq_of_le (Nat.le_refl 8)]
  exact BitVec.extractLsb'_append_eq_right

theorem Command.toWord_opb (c : Command) : c.toWord.extractLsb' 72 64 = c.opb := by
  rw [toWord, BitVec.extractLsb'_append_eq_of_le (by decide), BitVec.extractLsb'_append_eq_of_le (by decide)]
  exact BitVec.extractLsb'_eq_self

/-- The word loses nothing of the record (30_encoding.md R80). -/
theorem Command.ofWord_toWord (c : Command) : Command.ofWord c.toWord = c := by
  rw [ofWord, c.toWord_hdr, c.toWord_opa, c.toWord_opb]

/-! ### The operation map, one row at a time (30_encoding.md R82, R83) -/

section Rows

variable {c : Command}

theorem decode_op_zero (h : c.op = 0) : decode c = .ok (.init (Variant.ofBit c.bit6) c.opa c.opb) := by
  simp [decode, h]

theorem decode_op_one (h : c.op = 1) : decode c = .ok .teardown := by simp [decode, h]

theorem decode_op_two (h : c.op = 2) : decode c = .ok (.resolve c.ch) := by simp [decode, h]

theorem decode_op_three (h : c.op = 3) : decode c = .ok (.getState c.ch) := by simp [decode, h]

theorem decode_op_four (h : c.op = 4) :
    decode c = .ok (.apply c.ch c.bit6 (Polarity.ofBit c.bit7) c.opa c.opb) := by
  simp [decode, h]

/-- The codes 5, 6 and 7 are no row of the map (30_encoding.md R91). -/
theorem decode_op_reserved (h : 5 ≤ c.op.toNat) : decode c = .error (.reservedOp c.op) := by
  unfold decode
  split
  any_goals omega
  rfl

theorem op_cases (op : BitVec 3) : op = 0 ∨ op = 1 ∨ op = 2 ∨ op = 3 ∨ op = 4 ∨ 5 ≤ op.toNat := by
  revert op
  decide

end Rows

end Sys2Proof

namespace Sys2Proof.Machine

/-! ### The operation map on a header written from its fields (30_encoding.md R81, R82) -/

section Headers

variable (pol bit6 : Bool) (ch : Channel) (a b : Word64)

theorem decode_header_init : decode ⟨header pol bit6 ch 0, a, b⟩ = .ok (.init (Variant.ofBit bit6) a b) := by
  rw [decode_op_zero (header_op ..), header_bit6]

theorem decode_header_teardown : decode ⟨header pol bit6 ch 1, a, b⟩ = .ok .teardown :=
  decode_op_one (header_op ..)

theorem decode_header_resolve : decode ⟨header pol bit6 ch 2, a, b⟩ = .ok (.resolve ch) := by
  rw [decode_op_two (header_op ..), header_ch]

theorem decode_header_getState : decode ⟨header pol bit6 ch 3, a, b⟩ = .ok (.getState ch) := by
  rw [decode_op_three (header_op ..), header_ch]

theorem decode_header_apply :
    decode ⟨header pol bit6 ch 4, a, b⟩ = .ok (.apply ch bit6 (Polarity.ofBit pol) a b) := by
  rw [decode_op_four (header_op ..), header_ch, header_bit6, header_bit7]

theorem decode_header_reserved {op : BitVec 3} (h : 5 ≤ op.toNat) :
    decode ⟨header pol bit6 ch op, a, b⟩ = .error (.reservedOp op) := by
  rw [decode_op_reserved ((header_op pol bit6 ch op a b).symm ▸ h), header_op]

end Headers

/-! ### The response word (30_encoding.md R94) -/

section ResponseWord

variable (r : Response)

theorem toWord_status : r.toWord.extractLsb' 0 3 = r.status.code := BitVec.extractLsb'_append_eq_right

theorem toWord_ra : r.toWord.extractLsb' 3 64 = r.ra := by
  rw [Response.toWord, BitVec.extractLsb'_append_eq_of_le (Nat.le_refl 3)]
  exact BitVec.extractLsb'_append_eq_right

theorem toWord_rb : r.toWord.extractLsb' 67 64 = r.rb := by
  rw [Response.toWord, BitVec.extractLsb'_append_eq_of_le (by decide), BitVec.extractLsb'_append_eq_of_le (by decide)]
  exact BitVec.extractLsb'_append_eq_right

theorem toWord_ren : r.toWord.getLsbD 131 = r.ren := by
  rw [Response.toWord, BitVec.getLsbD_append, BitVec.getLsbD_append, BitVec.getLsbD_append, BitVec.getLsbD_append]
  simp

theorem toWord_rpol : r.toWord.getLsbD 132 = r.rpol := by
  rw [Response.toWord, BitVec.getLsbD_append, BitVec.getLsbD_append, BitVec.getLsbD_append, BitVec.getLsbD_append]
  simp

end ResponseWord

/-! ### Reserved commands and the rate operand -/

theorem step_reserved {s : State} {p : Nat} {c : Command} {rest : List Input} {e : DecodeError}
    (h : s.pending = .command p c :: rest) (hd : decode c = .error e) :
    step s = rejectReserved p { s with pending := rest } := by
  simp [step, h, runCommand, hd]

/-- A free port answers a reserved command whatever the rest of the state (60_exceptions.md R195). -/
theorem rejectReserved_free {p : Nat} {s : State} (he : portExists p = true) (hb : (s.ctx p).busy = false) :
    rejectReserved p s = .next (s.log (.response p (Response.only .illegalCommand))) := by
  simp [rejectReserved, he, hb]

/-- The rates INIT accepts, as bit patterns (30_encoding.md R88). -/
theorem rate_pos_iff {clk : Word64} : 0 < clk.toInt ↔ 1 ≤ clk.toNat ∧ clk.toNat ≤ 0x7FFFFFFFFFFFFFFF := by
  rw [BitVec.toInt_eq_toNat_cond]
  split <;> omega

theorem storedRate_toNat {clk : Word64} (h : clk.toNat < 2 ^ 63) : (storedRate clk).toNat = clk.toNat := by
  rw [storedRate, BitVec.extractLsb'_toNat]
  exact Nat.mod_eq_of_lt h

/-! ### The statements on encoding -/

/-- Settles O1: the word gives the record back, and the record the instruction. -/
theorem decodeOfEncode : Obligations.DecodeOfEncode := by
  unfold Obligations.DecodeOfEncode
  intro i
  rw [Command.ofWord_toWord]
  exact ⟨decode_encode i, decode_encode i⟩

/-- Settles O2: each row of the operation map names the fields it reads, and a command runs as it decodes. -/
theorem ignoredBitsHaveNoEffect : Obligations.IgnoredBitsHaveNoEffect := by
  unfold Obligations.IgnoredBitsHaveNoEffect
  intro c d hop hinit hchannel happly
  have hdecode : decode c = decode d := by
    obtain h | h | h | h | h | h := op_cases c.op
    · obtain ⟨hvar, hopa, hopb⟩ := hinit h
      rw [decode_op_zero h, decode_op_zero (hop ▸ h), hvar, hopa, hopb]
    · rw [decode_op_one h, decode_op_one (hop ▸ h)]
    · rw [decode_op_two h, decode_op_two (hop ▸ h), hchannel (.inl h)]
    · rw [decode_op_three h, decode_op_three (hop ▸ h), hchannel (.inr h)]
    · obtain ⟨hch, hen, hpol, hopa, hopb⟩ := happly h
      rw [decode_op_four h, decode_op_four (hop ▸ h), hch, hen, hpol, hopa, hopb]
    · rw [decode_op_reserved h, decode_op_reserved (hop ▸ h), hop]
  exact ⟨hdecode, fun p s => by rw [runCommand, runCommand, hdecode]⟩

/-- Settles O4, part by part. -/
theorem commandWordLayout : Obligations.CommandWordLayout := by
  unfold Obligations.CommandWordLayout
  exact fun c => ⟨c.toWord_hdr, c.toWord_opa, c.toWord_opb⟩

/-- Settles O5: the word field by field, and the codes as defined. -/
theorem responseWordLayout : Obligations.ResponseWordLayout := by
  unfold Obligations.ResponseWordLayout
  refine ⟨fun r => ⟨toWord_status r, toWord_ra r, toWord_rb r, toWord_ren r, toWord_rpol r⟩, fun st => ?_,
    rfl, rfl, rfl, rfl, rfl, rfl⟩
  cases st <;> decide

/-- Settles O40: the record decodes to no operation, and the free port answers it. -/
theorem reservedCodeAnswered : Obligations.ReservedCodeAnswered := by
  unfold Obligations.ReservedCodeAnswered
  intro s p c rest hp he hb hop
  exact (step_reserved hp (decode_op_reserved hop)).trans (rejectReserved_free he hb)

/-- Settles O3: each header is the one written from the polarity bit, bit 6, the channel and the `op` named here. -/
theorem knownHeadersDecode : Obligations.KnownHeadersDecode := by
  unfold Obligations.KnownHeadersDecode
  refine ⟨fun a b => ?_, fun a b => ?_, fun a b => ?_, fun a b => ?_, fun a b => ?_, fun a b => ?_, fun a b => ?_,
    fun a b => ?_⟩
  · exact decode_header_init false false 0 a b
  · exact decode_header_init false true 0 a b
  · exact decode_header_teardown false false 0 a b
  · exact decode_header_resolve false false 5 a b
  · exact decode_header_getState false false 2 a b
  · exact decode_header_apply true true 2 a b
  · exact decode_header_apply false true 2 a b
  · exact decode_header_reserved true true 7 a b (op := 5) (Nat.le_refl 5)

/-- Settles O6: the lemma that O7 rests on. -/
theorem stepRunsDecodedCommand : Obligations.StepRunsDecodedCommand := by
  unfold Obligations.StepRunsDecodedCommand
  intro s p c rest i hp hd
  exact step_command hp hd

/-- Settles O23: a positive pattern lies below `2^63`, so its low 63 bits are all of it. -/
theorem storedRateIsOperand : Obligations.StoredRateIsOperand := by
  unfold Obligations.StoredRateIsOperand
  refine fun clk => ⟨rate_pos_iff, fun h => storedRate_toNat ?_⟩
  obtain ⟨-, hle⟩ := rate_pos_iff.1 h
  omega

end Sys2Proof.Machine

/-! SUPPORT. How many responses have left on a port, and how many are still due: one for each operation in flight
(30_encoding.md R94; 10_state.md R38). -/

namespace Sys2Proof.Machine

/-- The responses that have left on port `q` (30_encoding.md R94). -/
def State.responses (s : State) (q : Nat) : Nat := s.trace.countP (Event.isResponseOn q)

/-- The responses that have left on port `q`, and the one it owes while it runs an operation. -/
def State.promised (s : State) (q : Nat) : Nat := s.responses q + if (s.ctx q).busy then 1 else 0

/-- No response has left between the two states. -/
def Silent (s t : State) : Prop := ∀ q, t.responses q = s.responses q

/-! ### Events -/

theorem responses_respond_same (s : State) (p : Nat) (r : Response) :
    (s.respond p r).responses p = s.responses p + 1 := by
  simp [State.responses, Event.isResponseOn]

theorem responses_log_response_other (s : State) {p q : Nat} (r : Response) (hq : q ≠ p) :
    (s.log (.response p r)).responses q = s.responses q := by
  simp [State.responses, Event.isResponseOn, hq.symm]

theorem silent_assertReset (s : State) : Silent s s.assertReset := by
  intro q
  unfold State.assertReset
  split <;> rfl

theorem promised_of_busy {s : State} {q : Nat} (h : (s.ctx q).busy = true) : s.promised q = s.responses q + 1 := by
  simp [State.promised, h]

theorem promised_of_idle {s : State} {q : Nat} (h : (s.ctx q).busy = false) : s.promised q = s.responses q := by
  simp [State.promised, h]

theorem promised_congr {s t : State} {q : Nat} (hr : t.responses q = s.responses q) (hc : t.ctx q = s.ctx q) :
    t.promised q = s.promised q := by
  simp only [State.promised, hr, hc]

/-! ### Statements -/

section Silent

variable {p : Nat} {c c' : Ctx} {s s' : State}

theorem silent_goes_next (h : Silent s s') : (Progress.goes c.next s').Keeps (Silent s) c := ⟨h, rfl, rfl, rfl⟩

theorem silent_raise {st : Status} (h : Silent s s') : (raise st s').Keeps (Silent s) c := h

theorem silent_gate {b : Bool} {k : Progress} (hk : k.Keeps (Silent s) c) : (gate b s k).Keeps (Silent s) c :=
  keeps_ite hk (silent_raise fun _ => rfl)

theorem silent_read {ea : Word64} (h : c'.busy = c.busy ∧ c'.cmd = c.cmd ∧ c'.seq = c.seq + 1) :
    (access s (.goes c' (s.afterRead p ea))).Keeps (Silent s) c := keeps_access ⟨fun _ => rfl, h⟩

theorem silent_write {ea : Word64} {v : Word32} : (access s (.goes c.next (s.afterWrite p ea v))).Keeps (Silent s) c :=
  keeps_access (silent_goes_next fun _ => rfl)

theorem initStatement_silent (var : Variant) (clk base : Word64) :
    (initStatement var clk base p c s).Keeps (Silent s) c := by
  unfold initStatement
  split
  · exact silent_gate (silent_goes_next fun _ => rfl)
  · exact keeps_ite (silent_goes_next fun _ => rfl) (silent_raise fun _ => rfl)
  · exact keeps_ite (silent_goes_next fun _ => rfl) (silent_raise fun _ => rfl)
  · exact keeps_ite (silent_raise fun _ => rfl) (silent_goes_next fun _ => rfl)
  · cases s.env.rst with
    | absent => exact silent_goes_next fun _ => rfl
    | present => exact silent_goes_next fun _ => rfl
    | error => exact silent_raise fun _ => rfl
  · exact keeps_ite (keeps_underDuty fun _ => rfl) (silent_raise fun q => silent_assertReset s q)
  · trivial

theorem teardownStatement_silent : (teardownStatement p c s).Keeps (Silent s) c := by
  unfold teardownStatement
  split
  · exact silent_gate (silent_goes_next fun _ => rfl)
  · exact keeps_ite (silent_goes_next fun q => silent_assertReset s q) (silent_goes_next fun _ => rfl)
  · exact silent_goes_next fun _ => rfl
  · exact fun _ => rfl
  · trivial

theorem resolveStatement_silent (ch : Channel) : (resolveStatement ch p c s).Keeps (Silent s) c := by
  unfold resolveStatement
  split
  · exact silent_gate fun _ => rfl
  · trivial

theorem getStateStatement_silent (ch : Channel) : (getStateStatement ch p c s).Keeps (Silent s) c := by
  unfold getStateStatement
  split
  · exact silent_gate ⟨fun _ => rfl, rfl, rfl, rfl⟩
  · exact silent_read ⟨rfl, rfl, rfl⟩
  · exact silent_read ⟨rfl, rfl, rfl⟩
  · exact keeps_access (keeps_ite trivial fun _ => rfl)
  · trivial

theorem applyStatement_silent (ch : Channel) (en : Bool) (pol : Polarity) (period duty : Word64) :
    (applyStatement ch en pol period duty p c s).Keeps (Silent s) c := by
  unfold applyStatement
  split
  · cases pol with
    | normal => exact silent_gate (silent_raise fun _ => rfl)
    | inversed => exact silent_gate ⟨fun _ => rfl, rfl, rfl, rfl⟩
  · exact silent_write
  · exact silent_write
  · exact silent_write
  · exact silent_read ⟨rfl, rfl, rfl⟩
  · exact keeps_access fun _ => rfl
  · trivial

end Silent

/-- The statements of an operation send no response: the sequencer does, when the operation ends (10_state.md R21). -/
theorem statementOf_silent (i : Instr) (p : Nat) (c : Ctx) (s : State) :
    (statementOf i p c s).Keeps (Silent s) c := by
  cases i with
  | init var clk base => exact initStatement_silent (p := p) var clk base
  | teardown => exact teardownStatement_silent (p := p)
  | resolve ch => exact resolveStatement_silent (p := p) ch
  | getState ch => exact getStateStatement_silent ch
  | apply ch en pol period duty => exact applyStatement_silent ch en pol period duty

/-- A statement of a busy port that ends the operation sends the response the port owes, and no other port's. -/
theorem runStatement_promised {s t : State} {p : Nat} {i : Instr} (hw : canonical Ctx.idle s.ports = true)
    (hb : (s.ctx p).busy = true) (h : runStatement (statementOf i) p s = .next t) :
    t.promised p = s.promised p ∧ ∀ q, q ≠ p → t.responses q = s.responses q := by
  have hk := statementOf_keeps i p (s.ctx p) s
  have hsilent := statementOf_silent i p (s.ctx p) s
  obtain ⟨c', s', hst, rfl⟩ | ⟨r, s', hst, rfl⟩ := runStatement_next h
  · rw [hst] at hk hsilent
    obtain ⟨⟨hp, -⟩, hb', -⟩ := hk
    obtain ⟨hs, -⟩ := hsilent
    have hbusy : ((s'.setCtx p c').ctx p).busy = true := by
      rw [ctx_setCtx_same (hp ▸ hw)]
      exact hb'.trans hb
    rw [promised_of_busy hbusy, promised_of_busy hb]
    exact ⟨congrArg (· + 1) (hs p), fun q _ => hs q⟩
  · rw [hst] at hk hsilent
    obtain ⟨hp, -⟩ := hk
    have hidle : ((s'.respond p r).ctx p).busy = false := by
      rw [ctx_respond_same (hp ▸ hw)]
      rfl
    rw [promised_of_idle hidle, promised_of_busy hb, responses_respond_same]
    exact ⟨congrArg (· + 1) (hsilent p), fun q hq =>
      (responses_log_response_other _ r hq).trans (hsilent q)⟩

/-! ### Inputs -/

theorem rejectReserved_busy {p : Nat} {s : State} (he : portExists p = true) (hb : (s.ctx p).busy = true) :
    rejectReserved p s = .next s := by
  rw [rejectReserved, if_pos he, if_pos hb]

/-- A busy port takes no command (10_state.md R38). -/
theorem offer_busy {p : Nat} {c : Command} {s : State} (he : portExists p = true) (hb : (s.ctx p).busy = true) :
    offer p c s = .next s := by
  cases hd : decode c with
  | ok i => exact (offer_operation hd s).trans (accept_busy he hb)
  | error e => exact (offer_reserved hd s).trans (rejectReserved_busy he hb)

theorem thenRun_eq_next {r : Result} {k : State → Result} {t : State} (h : thenRun r k = .next t) :
    ∃ u, r = .next u ∧ k u = .next t := by
  cases r with
  | next u => exact ⟨u, rfl, h⟩
  | fault f => cases h
  | refused e => cases h

namespace State.Sound

variable {s t : State} {p q : Nat} {x : Input}

/-- A step of port `p` keeps what is promised on it, and leaves the responses and the contexts of the other ports. -/
theorem advance_promised (h : s.Sound) (hx : advance p s = .next t) :
    t.promised p = s.promised p ∧ ∀ q, q ≠ p → t.responses q = s.responses q ∧ t.ctx q = s.ctx q := by
  cases hb : (s.ctx p).busy with
  | false =>
    cases (advance_idle hb).symm.trans hx
    exact ⟨rfl, fun _ _ => ⟨rfl, rfl⟩⟩
  | true =>
    obtain ⟨i, hd⟩ := decodes_of_ctxFits (h.fits p hb)
    have hrun := (advance_busy hb hd).symm.trans hx
    obtain ⟨hown, hother⟩ := runStatement_promised h.canonical hb hrun
    obtain ⟨hctx, -⟩ := runStatement_ctx h.canonical hrun
    exact ⟨hown, fun q hq => ⟨hother q hq, hctx q hq⟩⟩

/-- An input that is no command or step of port `q` sends no response on it, and leaves its context if it is no
reset. -/
theorem consume_of_not_concerns (h : s.Sound) (hq : x.concerns q = false) (hx : Machine.consume x s = .next t) :
    t.responses q = s.responses q ∧ (x ≠ .reset → t.ctx q = s.ctx q) := by
  cases x with
  | command p c =>
    have hne : q ≠ p := Ne.symm (of_decide_eq_false hq)
    cases hc : decode c with
    | ok j =>
      obtain ⟨-, ⟨-, rfl⟩ | ⟨-, -, -, rfl⟩⟩ := accept_next ((offer_operation hc s).symm.trans hx)
      · exact ⟨rfl, fun _ => rfl⟩
      · exact ⟨rfl, fun _ => ctx_setCtx_other h.canonical hne⟩
    | error e =>
      obtain rfl | rfl := rejectReserved_next ((offer_reserved hc s).symm.trans hx)
      · exact ⟨rfl, fun _ => rfl⟩
      · exact ⟨responses_log_response_other s _ hne, fun _ => rfl⟩
  | advance p =>
    obtain ⟨hr, hc⟩ := (h.advance_promised hx).2 q (Ne.symm (of_decide_eq_false hq))
    exact ⟨hr, fun _ => hc⟩
  | device b r v =>
    cases hx
    exact ⟨rfl, fun _ => rfl⟩
  | platform e =>
    cases hx
    exact ⟨rfl, fun _ => rfl⟩
  | reset =>
    obtain ⟨-, rfl⟩ := resetInput_next hx
    exact ⟨rfl, fun hn => absurd rfl hn⟩

/-- While port `p` runs an operation, every input but a reset keeps what is promised on it. -/
theorem consume_promised (h : s.Sound) (hb : (s.ctx p).busy = true) (hr : x ≠ .reset)
    (hx : Machine.consume x s = .next t) : t.promised p = s.promised p := by
  cases hc : x.concerns p with
  | false =>
    obtain ⟨hresp, hctx⟩ := h.consume_of_not_concerns hc hx
    exact promised_congr hresp (hctx hr)
  | true =>
    cases x with
    | command q c =>
      obtain rfl : q = p := of_decide_eq_true hc
      cases (offer_busy (h.exist q hb) hb).symm.trans hx
      rfl
    | advance q =>
      obtain rfl : q = p := of_decide_eq_true hc
      exact (h.advance_promised hx).1
    | device b r v => cases hc
    | platform e => cases hc
    | reset => cases hc

/-! ### A whole operation with the inputs that fall inside it -/

section Allowed

variable {i : Instr} {Allowed : Input → Prop} {P : State → Prop} (hown : Allowed (.advance p))
  (hinput : ∀ x u v, Allowed x → u.Sound → P u → (u.ctx p).busy = true → Machine.consume x u = .next v → P v)
include hown hinput

/-- What the own steps of a port keep while it runs the operation `i`, running it alone keeps, and that ends with the
port free (60_exceptions.md R208). -/
theorem runAlone_keeps_allowed {n : Nat} (h : s.Sound) (hP : P s)
    (hd : (s.ctx p).busy = true → decode (s.ctx p).cmd = .ok i) (ht : runAlone (statementOf i) p n s = .next t) :
    P t ∧ (t.ctx p).busy = false := by
  induction n generalizing s with
  | zero =>
    cases hb : (s.ctx p).busy with
    | false =>
      cases (runAlone_idle hb).symm.trans ht
      exact ⟨hP, hb⟩
    | true => cases (if_pos hb).symm.trans ht
  | succ n ih =>
    cases hb : (s.ctx p).busy with
    | false =>
      cases (runAlone_idle hb).symm.trans ht
      exact ⟨hP, hb⟩
    | true =>
      obtain ⟨u, hu, ht'⟩ := thenRun_eq_next ((runAlone_succ hb).symm.trans ht)
      have hx : Machine.consume (.advance p) s = .next u := (advance_busy hb (hd hb)).trans hu
      exact ih (h.consume _ hx) (hinput _ s u hown h hP hb hx) (h.latched hb (hd hb) _ hx) ht'

/-- What the own steps of a port and the inputs of a list keep while it runs the operation `i`, the run of the operation
with these inputs keeps, and that ends with the port free (60_exceptions.md R208, R209). -/
theorem runInputs_keeps_allowed (hpending : ∀ u l, P u → P { u with pending := l }) {xs : List Input}
    (hxs : ∀ x ∈ xs, Allowed x) (h : s.Sound) (hP : P s)
    (hd : (s.ctx p).busy = true → decode (s.ctx p).cmd = .ok i)
    (ht : runInputs (statementOf i) p xs s = .next t) : P t ∧ (t.ctx p).busy = false := by
  induction xs generalizing s with
  | nil => exact runAlone_keeps_allowed hown hinput h hP hd ht
  | cons x xs ih =>
    cases hb : (s.ctx p).busy with
    | false =>
      cases (runInputs_idle hb).symm.trans ht
      exact ⟨hpending s _ hP, hb⟩
    | true =>
      obtain ⟨u, hu, ht'⟩ := thenRun_eq_next ((runInputs_cons hb (hd hb)).symm.trans ht)
      exact ih (fun y hy => hxs y (List.mem_cons_of_mem x hy)) (h.consume x hu)
        (hinput x s u (hxs x List.mem_cons_self) h hP hb hu) (h.latched hb (hd hb) x hu) ht'

end Allowed

/-- From acceptance on a free port to the response, with inputs that keep `P` in between. -/
theorem exec_keeps_allowed (h : s.Sound) {i : Instr} {Allowed : Input → Prop} {P : State → Prop}
    (hidle : (s.ctx s.port).busy = false) (hown : Allowed (.advance s.port)) (hxs : ∀ x ∈ s.pending, Allowed x)
    (hinput : ∀ x u v, Allowed x → u.Sound → P u → (u.ctx s.port).busy = true → Machine.consume x u = .next v →
      P v)
    (hpending : ∀ u l, P u → P { u with pending := l }) (hstart : P (s.setCtx s.port (Ctx.accepted (encode i))))
    (ht : exec i s = .next t) : P t ∧ (t.ctx s.port).busy = false := by
  obtain ⟨hb, -⟩ | ⟨ha, -, hrun⟩ := exec_next ht
  · rw [hidle] at hb
    cases hb
  · have hsound := h.accept (decode_encode i) ha
    have hlatched := latched_accepted h.canonical s.port i
    exact runInputs_keeps_allowed hown hinput hpending hxs (hsound.setPending [] _) (hpending _ [] hstart)
      (fun hb => (hlatched hb).1) hrun

end State.Sound

/-- Settles O53: acceptance promises the one response, every input keeps the promise until the port is free again, and
inputs that do not concern another port send no response on it. -/
theorem exactlyOneResponse : Obligations.ExactlyOneResponse := by
  unfold Obligations.ExactlyOneResponse
  intro i s t hgood hcan _ hduty ht
  have h := (good_iff_sound s).1 hgood
  obtain ⟨-, hctx, -, -⟩ := canStart_iff.1 hcan
  have hidle : (s.ctx s.port).busy = false := by
    rw [hctx]
    rfl
  have hnoReset : ∀ x ∈ s.pending, x ≠ .reset := by
    rintro x hx rfl
    cases List.all_eq_true.1 hduty _ hx
  have hlatched : ((s.setCtx s.port (Ctx.accepted (encode i))).ctx s.port).busy = true := by
    rw [ctx_setCtx_same h.canonical]
    rfl
  refine ⟨?_, fun q hq hapart => ?_⟩
  · obtain ⟨hkept, hfree⟩ := h.exec_keeps_allowed (Allowed := (· ≠ .reset))
      (P := fun u => u.promised s.port = s.responses s.port + 1) hidle nofun hnoReset
      (fun x u v hx hu hP hb hv => (hu.consume_promised hb hx hv).trans hP) (fun _ _ hP => hP)
      (promised_of_busy hlatched) ht
    exact (promised_of_idle hfree).symm.trans hkept
  · have hconcerns : ∀ x ∈ s.pending, x.concerns q = false := fun x hx => by
      simpa using List.all_eq_true.1 hapart x hx
    obtain ⟨hkept, -⟩ := h.exec_keeps_allowed (Allowed := fun x => x.concerns q = false)
      (P := fun u => u.responses q = s.responses q) hidle (decide_eq_false (Ne.symm hq)) hconcerns
      (fun x u v hx hu hP _ hv => (hu.consume_of_not_concerns hx hv).1.trans hP) (fun _ _ hP => hP) rfl ht
    exact hkept

end Sys2Proof.Machine

/-! SUPPORT. The Channel Address Resolver: the offsets of both policies in numbers and in bits, the register blocks they
place, and what RESOLVE answers (40_resolve.md R110 to R115). -/

namespace Sys2Proof.Machine

/-! ### The offsets -/

theorem chanStride_toNat : Config.chanStride.toNat = 0x10 := rfl
theorem bankOffset_toNat : Config.bankOffset.toNat = 0x8000 := rfl

/-- FLAT: channel times stride, with no carry out of 64 bits (40_resolve.md R111). -/
theorem chanOff_flat_toNat (ch : Channel) : (chanOff .flat ch).toNat = ch.toNat * 0x10 := by
  have hch := ch.isLt
  simp only [chanOff, BitVec.toNat_mul, BitVec.toNat_setWidth, chanStride_toNat]
  omega

/-- BANKED, first bank: the flat layout (40_resolve.md R112). -/
theorem chanOff_banked_low {ch : Channel} (h : ch.toNat < Config.bankSlots) :
    chanOff .banked ch = chanOff .flat ch := by
  simp only [chanOff, if_pos h]

/-- BANKED, second bank: the slot within the bank, relocated (40_resolve.md R112). -/
theorem chanOff_banked_high {ch : Channel} (h : ¬ ch.toNat < Config.bankSlots) :
    chanOff .banked ch =
      BitVec.ofNat 64 (ch.toNat % Config.bankSlots) * Config.chanStride + Config.bankOffset := by
  simp only [chanOff, if_neg h]

/-- A slot of the second bank, with no carry out of 64 bits. -/
theorem secondBank_toNat {k : Nat} (h : k < 4) :
    (BitVec.ofNat 64 k * Config.chanStride + Config.bankOffset).toNat = 0x8000 + k * 0x10 := by
  simp only [BitVec.toNat_add, BitVec.toNat_mul, BitVec.toNat_ofNat, chanStride_toNat, bankOffset_toNat]
  omega

/-- BANKED: two banks of four slots (40_resolve.md R112). -/
theorem chanOff_banked_toNat (ch : Channel) :
    (chanOff .banked ch).toNat = ch.toNat / 4 * 0x8000 + ch.toNat % 4 * 0x10 := by
  have hch := ch.isLt
  by_cases h : ch.toNat < Config.bankSlots
  · have hlow : ch.toNat < 4 := h
    rw [chanOff_banked_low h, chanOff_flat_toNat]
    omega
  · have hhigh : ¬ ch.toNat < 4 := h
    have hslot : ch.toNat % Config.bankSlots = ch.toNat % 4 := rfl
    rw [chanOff_banked_high h, hslot, secondBank_toNat (by omega)]
    omega

/-- The stride is a shift by 4 (40_resolve.md R111). -/
theorem chanOff_flat_eq_shift (ch : Channel) : chanOff .flat ch = ch.setWidth 64 <<< 4 :=
  (BitVec.shiftLeft_eq_mul_twoPow _ 4).symm

/-- The top bit of the channel selects the bank, the low two bits the slot (40_resolve.md R112). -/
theorem chanOff_banked_eq_bits (ch : Channel) :
    chanOff .banked ch = (ch.extractLsb' 2 1).setWidth 64 <<< 15 ||| (ch.extractLsb' 0 2).setWidth 64 <<< 4 := by
  have hch := ch.isLt
  have hbank : ((ch.extractLsb' 2 1).setWidth 64 <<< 15).toNat = (ch.toNat / 4) <<< 15 := by
    simp only [BitVec.toNat_shiftLeft, BitVec.toNat_setWidth, BitVec.extractLsb'_toNat, Nat.shiftLeft_eq,
      Nat.shiftRight_eq_div_pow]
    omega
  have hslot : ((ch.extractLsb' 0 2).setWidth 64 <<< 4).toNat = ch.toNat % 4 * 0x10 := by
    simp only [BitVec.toNat_shiftLeft, BitVec.toNat_setWidth, BitVec.extractLsb'_toNat, Nat.shiftLeft_eq,
      Nat.shiftRight_eq_div_pow]
    omega
  apply BitVec.eq_of_toNat_eq
  calc (chanOff .banked ch).toNat
      = (ch.toNat / 4) <<< 15 + ch.toNat % 4 * 0x10 := by rw [chanOff_banked_toNat, Nat.shiftLeft_eq]
    _ = (ch.toNat / 4) <<< 15 ||| ch.toNat % 4 * 0x10 := Nat.shiftLeft_add_eq_or_of_lt (by omega) _
    _ = _ := by rw [BitVec.toNat_or, hbank, hslot]

/-- Settles O10: the two formulas in numbers, read below and from channel 4 on, and their bits. -/
theorem channelOffsets : Obligations.ChannelOffsets := by
  unfold Obligations.ChannelOffsets
  intro ch
  have hch := ch.isLt
  have hbanked := chanOff_banked_toNat ch
  exact ⟨chanOff_flat_toNat ch, chanOff_flat_eq_shift ch, fun hlow => by omega, fun hhigh => by omega,
    chanOff_banked_eq_bits ch⟩

/-! ### Register blocks -/

/-- Two different channels' blocks lie one below the other: their numbers differ in the bank or in the slot
(40_resolve.md R115). -/
theorem chanOff_apart (v : Variant) {ch ch' : Channel} (hne : ch ≠ ch') :
    (chanOff v ch).toNat + 0x10 ≤ (chanOff v ch').toNat ∨ (chanOff v ch').toNat + 0x10 ≤ (chanOff v ch).toNat := by
  have hch := ch.isLt
  have hch' := ch'.isLt
  have hnat : ch.toNat ≠ ch'.toNat := fun h => hne (BitVec.eq_of_toNat_eq h)
  cases v with
  | flat =>
    rw [chanOff_flat_toNat, chanOff_flat_toNat]
    omega
  | banked =>
    rw [chanOff_banked_toNat, chanOff_banked_toNat]
    omega

theorem chanOff_inj (v : Variant) {ch ch' : Channel} (h : chanOff v ch = chanOff v ch') : ch = ch' := by
  by_contra hne
  have hapart := chanOff_apart v hne
  rw [h] at hapart
  omega

/-- Channel `k + 4` has the slot of channel `k` in the second bank (40_resolve.md R115). -/
theorem chanOff_banked_add_four {ch : Channel} (hlow : ch.toNat < 4) :
    chanOff .banked (ch + 4) = chanOff .banked ch + 0x8000 := by
  have hsum : (ch + 4).toNat = ch.toNat + 4 := BitVec.toNat_add_of_lt (show ch.toNat + 4 < 2 ^ 3 by omega)
  show chanOff .banked (ch + 4) = chanOff .banked ch + Config.bankOffset
  apply BitVec.eq_of_toNat_eq
  rw [BitVec.toNat_add, chanOff_banked_toNat, chanOff_banked_toNat, hsum, bankOffset_toNat]
  omega

/-- Settles O11: blocks of different channels are apart, start at multiples of their size and end inside the window, and
the banks are paired. -/
theorem registerBlocksApart : Obligations.RegisterBlocksApart := by
  unfold Obligations.RegisterBlocksApart
  refine ⟨fun v _ _ => chanOff_inj v, fun v _ _ => chanOff_apart v, fun v ch => ?_, fun ch => ?_,
    fun _ => chanOff_banked_add_four⟩
  · obtain ⟨hmod, -⟩ := chanOff_in_window v ch
    exact hmod
  · obtain ⟨-, hflat⟩ := chanOff_in_window .flat ch
    obtain ⟨-, hbanked⟩ := chanOff_in_window .banked ch
    simp only [Variant.windowBytes] at hflat hbanked
    omega

/-! ### RESOLVE -/

/-- The gate lets a statement through in the lifecycle state it requires (60_exceptions.md R194). -/
theorem gate_open {b : Bool} {s : State} (h : s.cfg.inService = b) (k : Progress) : gate b s k = k := if_pos h

/-- In the other lifecycle state the operation ends at the gate (60_exceptions.md R194). -/
theorem gate_closed {b : Bool} {s : State} (h : s.cfg.inService ≠ b) (k : Progress) :
    gate b s k = raise .wrongLifecycleState s := if_neg h

/-- RESOLVE's one statement is its gate in front of the answer (40_resolve.md R113). -/
theorem resolve_gates {ch : Channel} {p : Nat} {c : Ctx} {s : State} (hq : c.seq = 0) :
    resolveStatement ch p c s = gate true s (.answers ⟨.ok, s.channelBase ch, 0, false, false⟩ s) := by
  simp [resolveStatement, hq]

/-- An undisturbed RESOLVE answers what its first statement answers. -/
theorem exec_resolve_undisturbed {ch : Channel} {s t : State} {r : Response} (hstart : s.canStart = true)
    (hp : s.pending = []) (h : gate true s (.answers ⟨.ok, s.channelBase ch, 0, false, false⟩ s) = .answers r t) :
    exec (.resolve ch) s = .next (t.log (.response s.port r)) := by
  rw [exec_undisturbed hstart (by simp [Instr.isLifecycle]) hp]
  show drive (resolveStatement ch) _ _ _ _ = _
  exact drive_answers ((resolve_gates rfl).trans h)

/-- Settles O14: the one statement of RESOLVE answers on either side of its gate and leaves the state as it is. -/
theorem resolveAnswersChannelBase : Obligations.ResolveAnswersChannelBase := by
  unfold Obligations.ResolveAnswersChannelBase
  intro ch s hstart hp
  by_cases hin : s.cfg.inService = true
  · rw [if_pos hin]
    exact exec_resolve_undisturbed hstart hp (gate_open hin _)
  · rw [if_neg hin]
    exact exec_resolve_undisturbed hstart hp (gate_closed hin _)

end Sys2Proof.Machine

/-! SUPPORT. The conversions between nanoseconds and ticks: rounded division as a bound, and from it the bounds, the
range, the zeros and the laws of both conversions (41_convert.md R120 to R129). -/

namespace Sys2Proof.Machine

/-! ### Rounded division (41_convert.md R120) -/

/-- A rounded quotient is below `k` when the dividend with its half divisor is below `k` divisors. -/
theorem rndDiv_lt_iff {a b k : Nat} (hb : 0 < b) : rndDiv a b < k ↔ a + b / 2 < k * b :=
  Nat.div_lt_iff_lt_mul hb

/-- A quotient with remainder rounds up from half the divisor on. -/
theorem rndDiv_mul_add {q r b : Nat} (hr : r < b) : rndDiv (q * b + r) b = if b ≤ 2 * r then q + 1 else q := by
  have hb : 0 < b := Nat.zero_lt_of_lt hr
  have hsplit : rndDiv (q * b + r) b = q + (r + b / 2) / b := by
    rw [rndDiv, Nat.add_assoc, Nat.add_comm, Nat.add_mul_div_right _ _ hb, Nat.add_comm]
  rw [hsplit]
  split
  · rw [Nat.div_eq_of_lt_le (k := 1) (by omega) (by omega)]
  · rw [Nat.div_eq_of_lt (by omega), Nat.add_zero]

/-- A multiple of the divisor is not rounded (41_convert.md R129). -/
theorem rndDiv_mul_self {q b : Nat} (hb : 0 < b) : rndDiv (q * b) b = q := by
  rw [← Nat.add_zero (q * b), rndDiv_mul_add hb, if_neg (by omega)]

/-- Only a dividend below half the divisor rounds to zero (41_convert.md R126). -/
theorem rndDiv_eq_zero_iff {a b : Nat} (hb : 0 < b) : rndDiv a b = 0 ↔ 2 * a < b := by
  rw [← Nat.lt_one_iff, rndDiv_lt_iff hb]
  omega

theorem rndDiv_mono {a a' : Nat} (h : a ≤ a') (b : Nat) : rndDiv a b ≤ rndDiv a' b :=
  Nat.div_le_div_right (Nat.add_le_add_right h _)

theorem rndDiv_le_self {a b : Nat} (hb : 0 < b) : rndDiv a b ≤ a := by
  rw [← Nat.lt_add_one_iff, rndDiv_lt_iff hb, Nat.add_mul]
  have := Nat.le_mul_of_pos_right a hb
  omega

/-- Settles O15: the second part reads the quotient and the remainder off. -/
theorem roundedDivisionIsNearest : Obligations.RoundedDivisionIsNearest := by
  unfold Obligations.RoundedDivisionIsNearest
  exact ⟨fun _ _ => rfl, fun _ _ _ _ hr => rndDiv_mul_add hr⟩

/-! ### The two conversions -/

theorem nsecPerSec_pos : 0 < Config.nsecPerSec := by decide

theorem nsToTicks_eq (ns clk : Nat) : nsToTicks ns clk = (ns * clk + 500000000) / 1000000000 := rfl

theorem ticksToNs_eq (t clk : Nat) : ticksToNs t clk = (t * 1000000000 + clk / 2) / clk := rfl

theorem nsToTicks_lt_iff {ns clk k : Nat} : nsToTicks ns clk < k ↔ ns * clk + 500000000 < k * 1000000000 :=
  rndDiv_lt_iff nsecPerSec_pos

/-- The product of a time and a rate leaves room for the rounding term below `2 ^ 127` (41_convert.md R121). -/
theorem dividend_lt (ns : Word64) (clk : ClkRate) : ns.toNat * clk.toNat + 500000000 < 2 ^ 127 := by
  have hmul : ns.toNat * clk.toNat ≤ (2 ^ 64 - 1) * (2 ^ 63 - 1) :=
    Nat.mul_le_mul (Nat.le_sub_one_of_lt ns.isLt) (Nat.le_sub_one_of_lt clk.isLt)
  omega

/-- The same dividend in 128-bit machine arithmetic does not wrap around (00_scope.md R6). -/
theorem dividend128_toNat (ns : Word64) (clk : ClkRate) :
    (ns.setWidth 128 * clk.setWidth 128 + 500000000#128).toNat = ns.toNat * clk.toNat + 500000000 := by
  have hlt := dividend_lt ns clk
  have hmul : (ns.setWidth 128 * clk.setWidth 128).toNat = ns.toNat * clk.toNat := by
    rw [BitVec.toNat_mul, BitVec.toNat_setWidth_of_le (by decide), BitVec.toNat_setWidth_of_le (by decide),
      Nat.mod_eq_of_lt (by omega)]
  rw [BitVec.toNat_add_of_lt] <;> rw [hmul]
  · rfl
  · exact hlt.trans (by decide)

/-- Settles O16: the bound on the dividend gives the bound on the count and keeps 128 bits from wrapping. -/
theorem nsToTicksIsExact : Obligations.NsToTicksIsExact := by
  unfold Obligations.NsToTicksIsExact
  intro ns clk
  have hlt := dividend_lt ns clk
  refine ⟨nsToTicks_eq _ _, hlt, nsToTicks_lt_iff.2 (by omega), ?_⟩
  rw [BitVec.toNat_udiv, dividend128_toNat]
  rfl

theorem rate_ne_zero {clk : ClkRate} (h : 1 ≤ clk.toNat) : clk ≠ 0 := by
  rintro rfl
  exact absurd h (by decide)

/-- Settles O17: rounding by a rate of at least 1 does not grow, and the field holds the largest dividend. -/
theorem ticksToNsFitsItsField : Obligations.TicksToNsFitsItsField := by
  unfold Obligations.TicksToNsFitsItsField
  intro t clk hclk
  have ht := t.isLt
  have hc := clk.isLt
  have hle : ticksToNs t.toNat clk.toNat ≤ t.toNat * 1000000000 := rndDiv_le_self hclk
  exact ⟨ticksToNs_eq _ _, by omega, by omega, by omega, by omega, nsField_toNat (rate_ne_zero hclk)⟩

/-- Settles O19: each zero is a dividend below half its divisor. -/
theorem conversionZeros : Obligations.ConversionZeros := by
  unfold Obligations.ConversionZeros
  intro x clk hclk
  have hns : ∀ y, nsToTicks y clk = 0 ↔ 2 * (y * clk) < 1000000000 := fun _ => rndDiv_eq_zero_iff nsecPerSec_pos
  have ht : ∀ y, ticksToNs y clk = 0 ↔ 2 * (y * 1000000000) < clk := fun _ => rndDiv_eq_zero_iff hclk
  refine ⟨(hns 0).2 (by omega), (ht 0).2 (by omega), (hns x).trans ?_, (ht x).trans ?_⟩ <;> omega

/-- Settles O21: a dividend that is a multiple of its divisor is not rounded. -/
theorem exactConversions : Obligations.ExactConversions := by
  unfold Obligations.ExactConversions
  intro x clk k hclk
  constructor <;> intro h
  · exact (congrArg (rndDiv · Config.nsecPerSec) h).trans (rndDiv_mul_self nsecPerSec_pos)
  · exact (congrArg (rndDiv · clk) h).trans (rndDiv_mul_self hclk)

/-! ### The register value (41_convert.md R124, R125) -/

theorem fits32_iff_product {ns clk : Nat} :
    fits32 ns clk = true ↔ ns * clk + 500000000 < 4294967296 * 1000000000 :=
  fits32_iff.trans (Nat.lt_succ_iff.symm.trans nsToTicks_lt_iff)

/-- Settles O18: the range is a bound on the product, solved for the time at the two rates. -/
theorem tickRegisterAndRange : Obligations.TickRegisterAndRange := by
  unfold Obligations.TickRegisterAndRange
  refine ⟨fun ns clk => ⟨BitVec.toNat_ofNat _ _, tickReg_toNat, fits32_iff, fits32_iff_product⟩, fun ns => ?_⟩
  constructor <;> rw [fits32_iff_product] <;> omega

/-- Settles O20: both dividends grow with the operand; at 24 MHz the first time out of range has register value 0. -/
theorem conversionsMonotone : Obligations.ConversionsMonotone := by
  unfold Obligations.ConversionsMonotone
  refine ⟨fun x y clk _ h => ⟨?_, ?_⟩, 178956970645, 178956970646, 24000000, by decide⟩
  · exact rndDiv_mono (Nat.mul_le_mul_right clk h) _
  · exact rndDiv_mono (Nat.mul_le_mul_right _ h) clk

/-- Settles O22: two roundings there and back, and in range neither the register nor the field loses a bit. -/
theorem roundTripWithinUnit : Obligations.RoundTripWithinUnit := by
  unfold Obligations.RoundTripWithinUnit
  refine ⟨fun ns clk hclk hfits => ?_, by decide⟩
  obtain ⟨hlo, hhi⟩ := rndDiv_round_trip (x := ns.toNat) hclk nsecPerSec_pos
  exact ⟨hlo, hhi, by rw [nsField_toNat (rate_ne_zero hclk), tickReg_toNat hfits]⟩

end Sys2Proof.Machine

/-! GET_STATE on its own: the undisturbed run written out as its trace (42_get_state.md R141 to R144). -/

namespace Sys2Proof.Machine

/-- The response of GET_STATE, field by field (42_get_state.md R144). -/
theorem stateResponse_eq (clk : ClkRate) (tp td tc : Word32) :
    stateResponse clk tp td tc =
      ⟨.ok, BitVec.ofNat 64 (ticksToNs tp.toNat clk.toNat), BitVec.ofNat 64 (ticksToNs td.toNat clk.toNat),
        tc.getLsbD 0, true⟩ := by
  rw [stateResponse, enabledOf_eq_getLsbD]
  rfl

/-- The three reads grow the trace and nothing else, so each finds the register as it was at the start
(42_get_state.md R141 to R143). -/
theorem afterRead_lrc_hrc_ctrl (s : State) (p : Nat) (ch : Channel) :
    ((s.afterRead p (effAddr (s.channelBase ch) .lrc)).afterRead p (effAddr (s.channelBase ch) .hrc)).afterRead p
        (effAddr (s.channelBase ch) .ctrl) =
      { s with
        trace :=
          [.read p (s.channelBase ch + 0xC) (s.channelReg ch .ctrl), .read p (s.channelBase ch + 0x4) (s.channelReg ch .hrc),
            .read p (s.channelBase ch + 0x8) (s.channelReg ch .lrc)] ++ s.trace } := rfl

/-- Settles O24: the run is the three reads and the response, and the response converts the values read. -/
theorem getStateReportsRegisters : Obligations.GetStateReportsRegisters := by
  unfold Obligations.GetStateReportsRegisters
  intro ch s hstart hp hacc hclk
  rw [exec_getState_undisturbed hstart hp hacc hclk, afterRead_lrc_hrc_ctrl, stateResponse_eq]
  rfl

end Sys2Proof.Machine

/-! APPLY on its own: the undisturbed run written out as its window and trace (43_apply.md R153 to R158), the bytes it
leaves alone, and the polarity it rejects (R151). -/

namespace Sys2Proof.Machine

/-! ### The enable bits -/

/-- Settles O25: the mask is `ENABLE_BIT` with `OUTPUT_ENABLE_BIT`, and the change is known bit by bit. -/
theorem enableBitsAlone : Obligations.EnableBitsAlone := by
  unfold Obligations.EnableBitsAlone
  intro tc en
  refine ⟨?_, ctrlWithEnable_getLsbD tc en⟩
  cases en with
  | false => rfl
  | true => rfl

/-! ### The accesses of the supported polarity -/

/-- `CNTR` is the first register of its block (10_state.md R25). -/
theorem effAddr_cntr (cb : Word64) : effAddr cb .cntr = cb := BitVec.add_zero cb

theorem afterRead_eq_log {s : State} {ea : Word64} {v : Word32} (h : s.readAt ea = v) (p : Nat) :
    s.afterRead p ea = s.log (.read p ea v) := by rw [State.afterRead, h]

/-- The writes of `LRC`, `HRC` and `CNTR` do not reach `CTRL`, so step 4 reads what it held at the start
(43_apply.md R156). -/
theorem channelReg_ctrl_afterWrites {s : State} (hw : s.window.wf = true) (p : Nat) (ch : Channel) (tp td : Word32) :
    (((s.afterWrite p (effAddr (s.channelBase ch) .lrc) tp).afterWrite p (effAddr (s.channelBase ch) .hrc)
        td).afterWrite p (effAddr (s.channelBase ch) .cntr) 0).channelReg ch .ctrl = s.channelReg ch .ctrl :=
  have hlrc := (State.Holds.refl (mask := fun _ => 0) (ch := ch) hw).write p .lrc tp rfl
  ((hlrc.write p .hrc td rfl).write p .cntr 0 rfl).eq .ctrl

/-- The window of `t` is that of `s` outside the 16 bytes of channel `ch`'s block (10_state.md R31), under the same
configuration. -/
structure State.SameOutside (s : State) (ch : Channel) (t : State) : Prop where
  wf : t.window.wf = true
  cfg : t.cfg = s.cfg
  bytes : ∀ a, ¬ s.inBlock ch a → t.window.byte a = s.window.byte a

namespace State.SameOutside

variable {s t : State} {ch : Channel}

theorem refl (hw : s.window.wf = true) : s.SameOutside ch s := ⟨hw, rfl, fun _ _ => rfl⟩

/-- A register of the channel lies inside the channel's block. -/
theorem write (h : s.SameOutside ch t) (p : Nat) (r : Reg) (v : Word32) :
    s.SameOutside ch (t.afterWrite p (effAddr (s.channelBase ch) r) v) := by
  refine ⟨write32_wf h.wf, h.cfg, fun a ha => ?_⟩
  obtain ⟨-, hle⟩ := regOff_mod r
  have hkey := windowKey_register t ch r
  rw [channelBase_congr h.cfg, h.cfg] at hkey
  rw [← h.bytes a ha, afterWrite_window, hkey]
  rw [State.inBlock] at ha
  exact byte_write32_outside h.wf (by omega)

theorem read (h : s.SameOutside ch t) (p : Nat) (ea : Word64) : s.SameOutside ch (t.afterRead p ea) :=
  ⟨h.wf, h.cfg, h.bytes⟩

end State.SameOutside

section Applied

variable (s : State) (ch : Channel) (en : Bool) (period duty : Word64)

theorem applied_env : (s.applied ch en period duty).env = s.env := by simp [State.applied]
theorem applied_draws : (s.applied ch en period duty).draws = s.draws := by simp [State.applied]

/-- The four writes and the one read as a window and a trace (43_apply.md R153 to R158). -/
theorem applied_eq (hw : s.window.wf = true) :
    s.applied ch en period duty =
      { s with
        window :=
          (((s.window.write32 (s.windowKey (s.channelBase ch + 0x8)) (tickReg period s.cfg.clkRate)).write32
              (s.windowKey (s.channelBase ch + 0x4)) (tickReg duty s.cfg.clkRate)).write32
              (s.windowKey (s.channelBase ch)) 0).write32
              (s.windowKey (s.channelBase ch + 0xC)) (ctrlWithEnable (s.channelReg ch .ctrl) en)
        trace :=
          [.write s.port (s.channelBase ch + 0xC) (ctrlWithEnable (s.channelReg ch .ctrl) en),
            .read s.port (s.channelBase ch + 0xC) (s.channelReg ch .ctrl),
            .write s.port (s.channelBase ch) 0,
            .write s.port (s.channelBase ch + 0x4) (tickReg duty s.cfg.clkRate),
            .write s.port (s.channelBase ch + 0x8) (tickReg period s.cfg.clkRate)] ++ s.trace } := by
  have hctrl := channelReg_ctrl_afterWrites hw s.port ch (tickReg period s.cfg.clkRate) (tickReg duty s.cfg.clkRate)
  rw [State.applied, hctrl, afterRead_eq_log (ea := effAddr (s.channelBase ch) .ctrl) hctrl, effAddr_cntr]
  rfl

/-- No write of APPLY leaves the channel's block. -/
theorem applied_sameOutside (hw : s.window.wf = true) : s.SameOutside ch (s.applied ch en period duty) :=
  have hlrc := (State.SameOutside.refl hw).write s.port .lrc (tickReg period s.cfg.clkRate)
  have hcntr := (hlrc.write s.port .hrc (tickReg duty s.cfg.clkRate)).write s.port .cntr 0
  (hcntr.read s.port (effAddr (s.channelBase ch) .ctrl)).write s.port .ctrl _

end Applied

/-- Settles O26: the run is the four writes and the one read, and the response. -/
theorem applyAccessesInOrder : Obligations.ApplyAccessesInOrder := by
  unfold Obligations.ApplyAccessesInOrder
  intro ch en period duty s hstart hp hacc hw
  rw [exec_apply_undisturbed hstart hp hacc, applied_eq s ch en period duty hw]
  rfl

/-- Settles O27: the registers are those of `appliedRegs`, and no write leaves the channel's block. -/
theorem applyRegisterResult : Obligations.ApplyRegisterResult := by
  unfold Obligations.ApplyRegisterResult
  intro ch en period duty s hstart hp hacc hw
  have hregs := applied_channelReg s ch en period duty hw
  refine ⟨_, exec_apply_undisturbed hstart hp hacc, ?_⟩
  simp only [channelReg_log, log_cfg, log_res, log_mapped, log_window, log_ports, log_env, log_pending, log_draws]
  refine ⟨hregs .lrc, hregs .hrc, hregs .cntr, fun k => ?_, (applied_sameOutside s ch en period duty hw).bytes,
    applied_cfg .., applied_res .., applied_mapped .., applied_ports .., applied_env .., applied_pending ..,
    applied_draws ..⟩
  rw [hregs .ctrl]
  exact ctrlWithEnable_getLsbD _ en k

/-! ### The other polarity -/

/-- Settles O28: statement 0 ends the operation before the first access. -/
theorem applyRejectsPolarity : Obligations.ApplyRejectsPolarity := by
  unfold Obligations.ApplyRejectsPolarity
  intro ch en period duty s hstart hp hin
  rw [exec_undisturbed hstart (by simp [Instr.isLifecycle]) hp]
  show drive (applyStatement ch en .normal period duty) _ _ _ _ = _
  exact drive_answers (apply_rejects rfl hin)

end Sys2Proof.Machine

/-! INIT on its own: what a granted INIT leaves, how each failing step unwinds, and that no path touches the register
window (44_lifecycle.md R172 to R176). -/

namespace Sys2Proof.Machine

/-! ### A granted INIT -/

/-- The resources taken before the last statement of INIT, as one change of the state (44_lifecycle.md R172, R174). -/
theorem acquired_eq (s : State) (h : s.env.rst ≠ .error) :
    s.acquired =
      { s with
        res := { s.res with map := true, clk := true, rst := s.res.rst || decide (s.env.rst = .present) }
        mapped := s.env.windowBytes
        trace :=
          (if s.env.rst = .present then [.action .deassertReset] else []) ++
            [.action .clockOn, .action .mapWindow] ++ s.trace } := by
  obtain ⟨cfg, res, mapped, window, ports, ⟨mapOk, clkOk, rst, regOk, bytes⟩, pending, port, draws, trace⟩ := s
  cases rst with
  | absent => simp [State.acquired, State.resetLineUp, State.mapWindow, State.clockOn, State.log]
  | present => simp [State.acquired, State.resetLineUp, State.mapWindow, State.clockOn, State.deassertReset, State.log]
  | error => exact absurd rfl h

/-- An undisturbed INIT that is granted everything, under a base and a window that meet the duty, captures its operands
and answers `OK` (44_lifecycle.md R172). -/
theorem exec_init_undisturbed {var : Variant} {clk base : Word64} {s : State} (hstart : s.canStart = true)
    (hquiet : s.quiet = true) (hp : s.pending = []) (h : s.GrantsInit clk) (hbase : baseMeetsDuty var base = true)
    (hwindow : var.windowBytes ≤ s.env.windowBytes) :
    exec (.init var clk base) s =
      .next ((s.acquired.register.capture var clk base).log (.response s.port (Response.only .ok))) := by
  obtain ⟨c, hc, hexec⟩ := exec_init_reaches_capture (var := var) (base := base) hstart hquiet hp h
  have hreg : s.acquired.env.regOk = true := by simpa [State.acquired] using h.regOk
  have hmapped : var.windowBytes ≤ s.acquired.mapped := by simpa [State.acquired] using hwindow
  exact hexec.trans (drive_answers ((init_captures hc hreg).trans (underDuty_of_met hbase hmapped _)))

/-- Settles O33: the granted INIT takes its resources, then captures its operands. -/
theorem initBringsIntoService : Obligations.InitBringsIntoService := by
  unfold Obligations.InitBringsIntoService
  intro var clk base s hstart hquiet hp hout hres hmap hclk hrst hreg hrate hbase hwindow
  rw [exec_init_undisturbed hstart hquiet hp ⟨hout, hmap, hclk, hrst, hreg, hrate⟩ hbase hwindow, acquired_eq s hrst,
    hres]
  simp [State.register, State.capture, State.log, Res.none, Response.only, storedRate]

/-! ### A failing INIT -/

section InitFails

variable {var : Variant} {clk base : Word64} {p : Nat} {c : Ctx} {s : State}

theorem init_fails_to_map (hq : c.seq = 1) (h : s.env.mapOk = false) :
    initStatement var clk base p c s = raise .resourceFailure s := by
  simp [initStatement, hq, h]

theorem init_fails_to_clock (hq : c.seq = 2) (h : s.env.clkOk = false) :
    initStatement var clk base p c s = raise .resourceFailure s.unmapWindow := by
  simp [initStatement, hq, h]

theorem init_rejects_rate (hq : c.seq = 3) (h : clk.toInt ≤ 0) :
    initStatement var clk base p c s = raise .invalidClockRate s.clockOff.unmapWindow := by
  simp [initStatement, hq, h]

theorem init_fails_on_reset_line (hq : c.seq = 4) (h : s.env.rst = .error) :
    initStatement var clk base p c s = raise .resourceFailure s.clockOff.unmapWindow := by
  simp [initStatement, hq, h]

theorem init_fails_to_register (hq : c.seq = 5) (h : s.env.regOk = false) :
    initStatement var clk base p c s = raise .resourceFailure s.assertReset.clockOff.unmapWindow := by
  simp [initStatement, hq, h]

end InitFails

/-! What was taken is released again in reverse order, which leaves a block that held nothing as it was but for the trace
(44_lifecycle.md R175). -/

theorem unmapWindow_mapWindow {s : State} (hres : s.res = Res.none) (hmapped : s.mapped = 0) :
    s.mapWindow.unmapWindow = { s with trace := [.action .unmapWindow, .action .mapWindow] ++ s.trace } := by
  cases s
  subst hres hmapped
  rfl

theorem unmapWindow_clockOff_clockOn_mapWindow {s : State} (hres : s.res = Res.none) (hmapped : s.mapped = 0) :
    s.mapWindow.clockOn.clockOff.unmapWindow =
      { s with
        trace :=
          [.action .unmapWindow, .action .clockOff, .action .clockOn, .action .mapWindow] ++ s.trace } := by
  cases s
  subst hres hmapped
  rfl

theorem unmapWindow_clockOff_assertReset_acquired {s : State} (hres : s.res = Res.none) (hmapped : s.mapped = 0)
    (hrst : s.env.rst ≠ .error) :
    s.acquired.assertReset.clockOff.unmapWindow =
      { s with
        trace :=
          [.action .unmapWindow, .action .clockOff] ++
            (if s.env.rst = .present then [.action .assertReset, .action .deassertReset] else []) ++
            [.action .clockOn, .action .mapWindow] ++ s.trace } := by
  rw [acquired_eq s hrst, hres]
  by_cases hline : s.env.rst = .present <;>
    simp [hline, State.assertReset, State.clockOff, State.unmapWindow, State.log, Res.none, ← hmapped]

/-- A run whose next statement raises ends with the error status on top of the trace. -/
theorem drive_raises {stmt : Statement} {p n : Nat} {c : Ctx} {s s' u : State} {st : Status} {new : List Event}
    (h : stmt p c s = raise st s') (hs : s' = { u with trace := new ++ u.trace }) :
    drive stmt p (n + 1) c s =
      .next { u with trace := .response p (Response.only st) :: (new ++ u.trace) } := by
  rw [drive_answers h, hs]
  rfl

/-- Settles O34: the first step that fails ends the run, and what the steps before it took is released. -/
theorem initFailsAndUnwinds : Obligations.InitFailsAndUnwinds := by
  unfold Obligations.InitFailsAndUnwinds
  intro var clk base s hstart hquiet hp hout hres hmapped hfails
  have hstarts : exec (.init var clk base) s = drive (initStatement var clk base) s.port 5 _ s :=
    (exec_undisturbed hstart (fun _ => hquiet) hp).trans
      (drive_goes (stmt := initStatement var clk base) (init_starts rfl hout))
  by_cases hmap : s.env.mapOk = false
  · rw [if_pos hmap]
    exact hstarts.trans (drive_raises (new := []) (init_fails_to_map rfl hmap) rfl)
  have hmaps := hstarts.trans (drive_goes (init_maps rfl (eq_true_of_ne_false hmap)))
  rw [if_neg hmap]
  by_cases hclk : s.env.clkOk = false
  · rw [if_pos hclk]
    exact hmaps.trans (drive_raises (init_fails_to_clock rfl hclk) (unmapWindow_mapWindow hres hmapped))
  have hclocks := hmaps.trans (drive_goes (init_clocks rfl (eq_true_of_ne_false hclk)))
  have hunwound := unmapWindow_clockOff_clockOn_mapWindow hres hmapped
  rw [if_neg hclk]
  by_cases hrate : clk.toInt ≤ 0
  · rw [if_pos hrate]
    exact hclocks.trans (drive_raises (init_rejects_rate rfl hrate) hunwound)
  have hrates := hclocks.trans (drive_goes (init_accepts_rate rfl (Int.not_le.1 hrate)))
  rw [if_neg hrate]
  by_cases hrst : s.env.rst = .error
  · rw [if_pos hrst]
    exact hrates.trans (drive_raises (init_fails_on_reset_line rfl hrst) hunwound)
  have hlines := hrates.trans (drive_goes (init_raises_reset_line rfl hrst))
  have hreg : s.acquired.env.regOk = false := by simpa [State.acquired, hmap, hclk, hrate, hrst] using hfails
  rw [if_neg hrst]
  exact hlines.trans (drive_raises (init_fails_to_register rfl hreg)
    (unmapWindow_clockOff_assertReset_acquired hres hmapped hrst))

/-! ### INIT and the register window -/

/-- The window of `t` is that of `s`, and no event since is a register access (44_lifecycle.md R176). -/
structure State.WindowUntouched (s t : State) : Prop where
  window : t.window = s.window
  trace : ∃ new : List Event, t.trace = new ++ s.trace ∧ new.all (fun e => !e.isAccess) = true

namespace State.WindowUntouched

variable {s t u : State}

theorem refl (s : State) : s.WindowUntouched s := ⟨rfl, [], rfl, rfl⟩

/-- One event that is no access, on the window as it was. -/
theorem event (h : s.WindowUntouched t) {e : Event} (hw : u.window = t.window) (ht : u.trace = e :: t.trace)
    (he : e.isAccess = false) : s.WindowUntouched u := by
  obtain ⟨hwindow, new, hnew, hall⟩ := h
  refine ⟨hw.trans hwindow, e :: new, ?_, ?_⟩
  · rw [ht, hnew, List.cons_append]
  · rw [List.all_cons, he, hall]
    rfl

theorem mapWindow (h : s.WindowUntouched t) : s.WindowUntouched t.mapWindow := h.event rfl rfl rfl
theorem unmapWindow (h : s.WindowUntouched t) : s.WindowUntouched t.unmapWindow := h.event rfl rfl rfl
theorem clockOn (h : s.WindowUntouched t) : s.WindowUntouched t.clockOn := h.event rfl rfl rfl
theorem clockOff (h : s.WindowUntouched t) : s.WindowUntouched t.clockOff := h.event rfl rfl rfl
theorem deassertReset (h : s.WindowUntouched t) : s.WindowUntouched t.deassertReset := h.event rfl rfl rfl
theorem register (h : s.WindowUntouched t) : s.WindowUntouched t.register := h.event rfl rfl rfl

theorem capture (h : s.WindowUntouched t) (var : Variant) (clk base : Word64) :
    s.WindowUntouched (t.capture var clk base) := ⟨h.window, h.trace⟩

theorem assertReset (h : s.WindowUntouched t) : s.WindowUntouched t.assertReset := by
  unfold State.assertReset
  split
  · exact h.event rfl rfl rfl
  · exact h

theorem response (h : s.WindowUntouched t) (p : Nat) (r : Response) : s.WindowUntouched (t.log (.response p r)) :=
  h.event rfl rfl rfl

/-- No statement of INIT touches the window (44_lifecycle.md R176). -/
theorem initStatement (h : s.WindowUntouched t) (var : Variant) (clk base : Word64) (p : Nat) (c : Ctx) :
    (Machine.initStatement var clk base p c t).Keeps s.WindowUntouched c := by
  have hgoes : ∀ {u}, s.WindowUntouched u → (Progress.goes c.next u).Keeps s.WindowUntouched c :=
    fun hu => ⟨hu, rfl, rfl, rfl⟩
  unfold Machine.initStatement
  split
  · exact keeps_ite (hgoes h) h
  · exact keeps_ite (hgoes h.mapWindow) h
  · exact keeps_ite (hgoes h.clockOn) h.unmapWindow
  · exact keeps_ite h.clockOff.unmapWindow (hgoes h)
  · cases t.env.rst with
    | absent => exact hgoes h
    | present => exact hgoes h.deassertReset
    | error => exact h.clockOff.unmapWindow
  · exact keeps_ite (keeps_underDuty (h.register.capture var clk base)) h.assertReset.clockOff.unmapWindow
  · trivial

end State.WindowUntouched

/-- What every statement and the response keep, the operation keeps. -/
theorem drive_keeps {stmt : Statement} {p n : Nat} {c : Ctx} {s t : State} {P : State → Prop}
    (hstmt : ∀ c s, P s → (stmt p c s).Keeps P c) (hresponse : ∀ s r, P s → P (s.log (.response p r))) (hs : P s)
    (h : drive stmt p n c s = .next t) : P t := by
  induction n generalizing c s with
  | zero => cases h
  | succ n ih =>
    have hk := hstmt c s hs
    rw [drive] at h
    cases hst : stmt p c s with
    | goes c' s' =>
      rw [hst] at h hk
      exact ih hk.1 h
    | answers r s' =>
      rw [hst] at h hk
      cases h
      exact hresponse s' r hk
    | faults f => rw [hst] at h; cases h
    | refuses r => rw [hst] at h; cases h

/-- Settles O38: no statement of INIT touches the window, so no run of them does. -/
theorem initNeverTouchesRegisters : Obligations.InitNeverTouchesRegisters := by
  unfold Obligations.InitNeverTouchesRegisters
  intro var clk base s t hstart hquiet hp ht
  rw [exec_undisturbed hstart (fun _ => hquiet) hp] at ht
  have h : s.WindowUntouched t :=
    drive_keeps (fun c _ hu => hu.initStatement var clk base s.port c) (fun _ r hu => hu.response s.port r) (.refl s) ht
  exact ⟨h.window, h.trace⟩

end Sys2Proof.Machine

/-! TEARDOWN on its own, and the INIT after it (44_lifecycle.md R177, R178, R180). -/

namespace Sys2Proof.Machine

/-! ### The statements of TEARDOWN -/

/-- The reset line is asserted where the block holds it deasserted, after which the registers' contents are unspecified
(44_lifecycle.md R177, R178). -/
def State.resetLineDown (s : State) : State := if s.res.rst then s.assertReset.scrambleRegisters else s

section ResetLineDown

variable (s : State)

@[simp] theorem resetLineDown_cfg : s.resetLineDown.cfg = s.cfg := by
  unfold State.resetLineDown
  split <;> simp

@[simp] theorem resetLineDown_res : s.resetLineDown.res = { s.res with rst := false } := by
  unfold State.resetLineDown
  split
  · simp
  · rename_i hrst
    simp [← Bool.eq_false_iff.2 hrst]

@[simp] theorem resetLineDown_ports : s.resetLineDown.ports = s.ports := by
  unfold State.resetLineDown
  split <;> simp

@[simp] theorem resetLineDown_env : s.resetLineDown.env = s.env := by
  unfold State.resetLineDown
  split <;> simp

@[simp] theorem resetLineDown_pending : s.resetLineDown.pending = s.pending := by
  unfold State.resetLineDown
  split <;> simp

@[simp] theorem resetLineDown_port : s.resetLineDown.port = s.port := by
  unfold State.resetLineDown
  split <;> simp

@[simp] theorem resetLineDown_trace :
    s.resetLineDown.trace = (if s.res.rst then [Event.action .assertReset] else []) ++ s.trace := by
  unfold State.resetLineDown
  split
  · rename_i hrst
    simp [hrst]
  · rfl

end ResetLineDown

section Teardown

variable {p : Nat} {c : Ctx} {s : State}

theorem teardown_leaves_service (hq : c.seq = 0) (h : s.cfg.inService = true) :
    teardownStatement p c s = .goes c.next s.leaveService.unregister := by
  simp [teardownStatement, hq, gate, h]

theorem teardown_lowers_reset_line (hq : c.seq = 1) : teardownStatement p c s = .goes c.next s.resetLineDown := by
  simp only [teardownStatement, hq, State.resetLineDown]
  exact (apply_ite (Progress.goes c.next) ..).symm

theorem teardown_stops_clock (hq : c.seq = 2) :
    teardownStatement p c s = .goes c.next s.clockOff.scrambleRegisters := by
  simp [teardownStatement, hq]

theorem teardown_unmaps (hq : c.seq = 3) : teardownStatement p c s = respondOk s.unmapWindow := by
  simp [teardownStatement, hq]

end Teardown

/-- The state before the response of an undisturbed TEARDOWN (44_lifecycle.md R177). -/
def State.released (s : State) : State :=
  s.leaveService.unregister.resetLineDown.clockOff.scrambleRegisters.unmapWindow

/-- An undisturbed TEARDOWN in service releases everything and answers `OK`. -/
theorem exec_teardown_undisturbed {s : State} (hstart : s.canStart = true) (hquiet : s.quiet = true)
    (hp : s.pending = []) (hin : s.cfg.inService = true) :
    exec .teardown s = .next (s.released.log (.response s.port (Response.only .ok))) := by
  calc exec .teardown s
      = drive teardownStatement s.port 6 (Ctx.accepted _) s := exec_undisturbed hstart (fun _ => hquiet) hp
    _ = drive teardownStatement s.port 5 _ s.leaveService.unregister := drive_goes (teardown_leaves_service rfl hin)
    _ = drive teardownStatement s.port 4 _ s.leaveService.unregister.resetLineDown :=
        drive_goes (teardown_lowers_reset_line rfl)
    _ = drive teardownStatement s.port 3 _ s.leaveService.unregister.resetLineDown.clockOff.scrambleRegisters :=
        drive_goes (teardown_stops_clock rfl)
    _ = .next (s.released.log (.response s.port (Response.only .ok))) := drive_answers (teardown_unmaps rfl)

section Released

variable (s : State)

@[simp] theorem released_cfg : s.released.cfg = { s.cfg with inService := false } := by simp [State.released]
@[simp] theorem released_res : s.released.res = Res.none := by simp [State.released, Res.none]
@[simp] theorem released_mapped : s.released.mapped = 0 := rfl
@[simp] theorem released_ports : s.released.ports = s.ports := by simp [State.released]
@[simp] theorem released_env : s.released.env = s.env := by simp [State.released]
@[simp] theorem released_pending : s.released.pending = s.pending := by simp [State.released]
@[simp] theorem released_port : s.released.port = s.port := by simp [State.released]

theorem released_trace :
    s.released.trace =
      [Event.action .unmapWindow, .action .clockOff] ++ (if s.res.rst then [Event.action .assertReset] else []) ++
        [Event.action .unregister] ++ s.trace := by
  show Event.action .unmapWindow :: .action .clockOff :: s.leaveService.unregister.resetLineDown.trace = _
  rw [resetLineDown_trace]
  simp only [List.append_assoc]
  rfl

/-- The last draw of free values is the one when the clock goes off (44_lifecycle.md R178; log 5). -/
theorem released_window :
    s.released.window = s.leaveService.unregister.resetLineDown.window.scramble (s.released.draws - 1) := rfl

end Released

/-! ### The window after TEARDOWN -/

theorem resetLineDown_wf {s : State} (hw : s.window.wf = true) : s.resetLineDown.window.wf = true := by
  unfold State.resetLineDown
  split
  · simpa using scramble_wf hw s.draws
  · exact hw

/-- The reset line moves no byte outside the registers (log 4). -/
theorem resetLineDown_byte_outside {s : State} (hw : s.window.wf = true) {a : Nat}
    (ha : ∀ x ∈ registerOffsets, a < x ∨ x + 4 ≤ a) : s.resetLineDown.window.byte a = s.window.byte a := by
  unfold State.resetLineDown
  split
  · simpa using byte_scramble_outside hw s.draws ha
  · rfl

/-- Settles O36: the run releases in reverse order, and the clock going off draws the registers' free values last. -/
theorem teardownReleases : Obligations.TeardownReleases := by
  unfold Obligations.TeardownReleases
  intro s hstart hquiet hp hin hw _ _ _
  have hdown : s.leaveService.unregister.resetLineDown.window.wf = true := resetLineDown_wf hw
  refine ⟨_, exec_teardown_undisturbed hstart hquiet hp hin, released_cfg s, released_res s, released_mapped s, ?_,
    released_ports s, released_env s, released_pending s, ?_, fun a ha => ?_, fun a ha => ?_⟩
  · rw [log_trace, released_trace]
    rfl
  · exact scramble_wf hdown _
  · exact read32_scramble hdown _ ha
  · calc _ = s.leaveService.unregister.resetLineDown.window.byte a := byte_scramble_outside hdown _ ha
      _ = s.window.byte a := resetLineDown_byte_outside (s := s.leaveService.unregister) hw ha

/-! ### INIT after TEARDOWN -/

/-- Settles O37: TEARDOWN leaves the ports and the platform's answers as they are, so the INIT is granted again. -/
theorem initAfterTeardown : Obligations.InitAfterTeardown := by
  unfold Obligations.InitAfterTeardown
  intro var clk base s hstart hquiet hp hin _ _ _ hmap hclk hrst hreg hrate hbase hwindow
  have hteardown := exec_teardown_undisturbed hstart hquiet hp hin
  generalize ht : s.released.log (.response s.port (Response.only .ok)) = t at hteardown
  have hports : t.ports = s.ports := by simp [← ht]
  have hport : t.port = s.port := by simp [← ht]
  have hpending : t.pending = [] := by simp [← ht, hp]
  have henv : t.env = s.env := by simp [← ht]
  have hout : t.cfg.inService = false := by simp [← ht]
  rw [← canStart_congr hports hport] at hstart
  rw [← quiet_congr hports] at hquiet
  rw [← henv] at hmap hclk hrst hreg hwindow
  refine ⟨t, _, hteardown,
    exec_init_undisturbed hstart hquiet hpending ⟨hout, hmap, hclk, hrst, hreg, hrate⟩ hbase hwindow, rfl, ?_⟩
  simp [acquired_eq t hrst, hport, Response.only]

end Sys2Proof.Machine

/-! SUPPORT. The lifecycle gate in front of every operation (60_exceptions.md R194), and which operations can pass into
and out of service (R204). -/

namespace Sys2Proof.Machine

/-- Statement 0 of every operation is its gate (60_exceptions.md R194, R197). -/
theorem statementOf_gate_closed {i : Instr} {p : Nat} {c : Ctx} {s : State} (hq : c.seq = 0)
    (h : s.cfg.inService ≠ requiredService i) : statementOf i p c s = raise .wrongLifecycleState s := by
  cases i with
  | init var clk base =>
    show initStatement var clk base p c s = _
    rw [initStatement, hq]
    exact gate_closed h _
  | teardown =>
    show teardownStatement p c s = _
    rw [teardownStatement, hq]
    exact gate_closed h _
  | resolve ch => exact (resolve_gates (p := p) hq).trans (gate_closed h _)
  | getState ch =>
    show getStateStatement ch p c s = _
    rw [getStateStatement, hq]
    exact gate_closed h _
  | apply ch en pol period duty =>
    show applyStatement ch en pol period duty p c s = _
    unfold applyStatement
    rw [hq]
    exact gate_closed h _

/-- An undisturbed operation in the wrong lifecycle state ends at its gate. -/
theorem exec_gate_closed {i : Instr} {s : State} (hstart : s.canStart = true)
    (hquiet : i.isLifecycle = true → s.quiet = true) (hp : s.pending = [])
    (h : s.cfg.inService ≠ requiredService i) :
    exec i s = .next (s.log (.response s.port (Response.only .wrongLifecycleState))) := by
  rw [exec_undisturbed hstart hquiet hp]
  exact drive_answers (statementOf_gate_closed rfl h)

/-- Settles O39: the gate is the first statement and takes the error before anything else happens. -/
theorem wrongLifecycleStateAnswered : Obligations.WrongLifecycleStateAnswered := by
  unfold Obligations.WrongLifecycleStateAnswered
  intro i s hstart hquiet hp hne
  exact exec_gate_closed hstart hquiet hp hne

/-- No statement of RESOLVE, GET_STATE or APPLY changes the configuration, whatever its context (10_state.md R23). -/
theorem statementOf_keeps_cfg {i : Instr} (hi : i.isLifecycle = false) (p : Nat) (c : Ctx) (s : State) :
    (statementOf i p c s).Keeps (fun t => t.cfg = s.cfg) c := by
  cases i with
  | init var clk base => cases hi
  | teardown => cases hi
  | resolve ch =>
    show (resolveStatement ch p c s).Keeps _ c
    unfold resolveStatement
    split
    · exact keeps_ite rfl rfl
    · trivial
  | getState ch =>
    show (getStateStatement ch p c s).Keeps _ c
    unfold getStateStatement
    split
    · exact keeps_ite ⟨rfl, rfl, rfl, rfl⟩ rfl
    · exact keeps_access ⟨rfl, rfl, rfl, rfl⟩
    · exact keeps_access ⟨rfl, rfl, rfl, rfl⟩
    · exact keeps_access (keeps_ite trivial rfl)
    · trivial
  | apply ch en pol period duty =>
    show (applyStatement ch en pol period duty p c s).Keeps _ c
    unfold applyStatement
    split
    · cases pol with
      | normal => exact keeps_ite rfl rfl
      | inversed => exact keeps_ite ⟨rfl, rfl, rfl, rfl⟩ rfl
    · exact keeps_access ⟨rfl, rfl, rfl, rfl⟩
    · exact keeps_access ⟨rfl, rfl, rfl, rfl⟩
    · exact keeps_access ⟨rfl, rfl, rfl, rfl⟩
    · exact keeps_access ⟨rfl, rfl, rfl, rfl⟩
    · exact keeps_access rfl
    · trivial

/-- An undisturbed RESOLVE, GET_STATE or APPLY leaves the configuration. -/
theorem exec_keeps_cfg {i : Instr} {s t : State} (hstart : s.canStart = true) (hp : s.pending = [])
    (hi : i.isLifecycle = false) (h : exec i s = .next t) : t.cfg = s.cfg := by
  rw [exec_undisturbed hstart (by simp [hi]) hp] at h
  exact drive_keeps (P := fun u => u.cfg = s.cfg) (fun c u hu => hu ▸ statementOf_keeps_cfg hi s.port c u)
    (fun _ _ hu => hu) rfl h

/-- Settles O42: a change of service needs an open gate, which for INIT means that the Controller was out of service,
for TEARDOWN that it was in service; no other operation changes the configuration. -/
theorem serviceEnteredAndLeft : Obligations.ServiceEnteredAndLeft := by
  unfold Obligations.ServiceEnteredAndLeft
  intro i s t hstart hquiet hp ht hne
  have hopen : s.cfg.inService = requiredService i := by
    by_contra hclosed
    cases (exec_gate_closed hstart hquiet hp hclosed).symm.trans ht
    exact hne rfl
  have hconv : i.isLifecycle ≠ false := fun hi =>
    hne (congrArg Cfg.inService (exec_keeps_cfg hstart hp hi ht))
  rw [hopen] at hne
  cases i with
  | init var clk base => exact .inl ⟨eq_true_of_ne_false hne, var, clk, base, rfl⟩
  | teardown => exact .inr ⟨eq_false_of_ne_true hne, rfl⟩
  | resolve ch => exact absurd rfl hconv
  | getState ch => exact absurd rfl hconv
  | apply ch en pol period duty => exact absurd rfl hconv

end Sys2Proof.Machine

/-! SUPPORT. What APPLY leaves alone: the registers of every other physical block (60_exceptions.md R210). -/

namespace Sys2Proof.Machine

/-- A register is its four bytes (20_memory.md R58). -/
theorem read32_congr {m m' : Memory} {off : Nat} (h : ∀ k < 4, m.byte (off + k) = m'.byte (off + k)) :
    m.read32 off = m'.read32 off := by
  have hlow : m.byte off = m'.byte off := h 0 (by decide)
  simp only [Memory.read32, hlow, h 1 (by decide), h 2 (by decide), h 3 (by decide)]

/-- A register of another block lies outside the bytes that may have changed. -/
theorem channelReg_of_sameOutside {s t : State} {ch ch' : Channel} (h : s.SameOutside ch t)
    (hne : blockOffset Config.bankAliased s.cfg.variant ch' ≠ blockOffset Config.bankAliased s.cfg.variant ch)
    (r : Reg) : t.channelReg ch' r = s.channelReg ch' r := by
  have hmod := blockOffset_mod Config.bankAliased s.cfg.variant ch
  have hmod' := blockOffset_mod Config.bankAliased s.cfg.variant ch'
  obtain ⟨-, hle⟩ := regOff_mod r
  rw [channelReg_eq, channelReg_eq, h.cfg]
  exact read32_congr fun k hk => h.bytes _ fun ⟨hlo, hhi⟩ => by omega

/-- Settles O29: the writes of APPLY stay in the channel's block, and with the other polarity there are none. -/
theorem applyLeavesOtherChannels : Obligations.ApplyLeavesOtherChannels := by
  unfold Obligations.ApplyLeavesOtherChannels
  intro ch ch' en pol period duty r s t hstart hp hacc hw hne ht
  cases pol with
  | normal =>
    cases (applyRejectsPolarity ch en period duty s hstart hp (inService_of_accessible hacc)).symm.trans ht
    rfl
  | inversed =>
    cases (exec_apply_undisturbed hstart hp hacc).symm.trans ht
    exact channelReg_of_sameOutside (applied_sameOutside s ch en period duty hw) hne r

end Sys2Proof.Machine

/-! SUPPORT. How an operation can end with an error: at a gate, at APPLY's polarity, or in an INIT that unwinds
(60_exceptions.md R196, R200). -/

namespace Sys2Proof.Machine

/-- In service a settled block can make every access and convert back (10_state.md R41; 60_exceptions.md R191). -/
theorem accessible_of_settled {s : State} (h : s.settled = true) (hin : s.cfg.inService = true) :
    s.accessible = true ∧ s.cfg.clkRate ≠ 0 := by
  simp only [State.settled, hin, if_true, State.serving, Bool.and_eq_true, decide_eq_true_eq] at h
  obtain ⟨⟨⟨⟨hmap, -⟩, -⟩, hrate⟩, hduty⟩ := h
  exact ⟨by simp only [State.accessible, hin, hmap, hduty, Bool.and_self], hrate⟩

/-- Out of service it holds nothing (44_lifecycle.md R177, R180). -/
theorem released_of_settled {s : State} (h : s.settled = true) (hout : s.cfg.inService = false) :
    s.res = Res.none ∧ s.mapped = 0 := by
  obtain ⟨cfg, ⟨map, clk, rst, reg⟩, mapped, window, ports, env, pending, port, draws, trace⟩ := s
  simp only at hout
  simpa [State.settled, hout, Res.anyHeld, Res.none, and_assoc] using h

/-- The events, newest first, of an operation on port `p` that ended with a bare status and made no register access. -/
def BareEnd (p : Nat) (evs : List Event) : Prop :=
  ∃ st new, evs = .response p (Response.only st) :: new ∧ new.all (fun e => !e.isAccess) = true

/-- From `s` to `t` an operation has ended with a bare status, and only the trace has grown. -/
def State.EndsBare (s t : State) : Prop :=
  ∃ evs, BareEnd s.port evs ∧ t = { s with trace := evs ++ s.trace }

theorem endsBare_response (s : State) (st : Status) :
    s.EndsBare (s.log (.response s.port (Response.only st))) :=
  ⟨_, ⟨st, [], rfl, rfl⟩, rfl⟩

/-- From `s` to `t` an operation has ended with status `OK`. -/
def State.EndsOk (s t : State) : Prop := ∃ r : Response, t.trace.head? = some (.response s.port r) ∧ r.status = .ok

theorem endsOk_response {s u : State} {r : Response} (h : r.status = .ok) : s.EndsOk (u.log (.response s.port r)) :=
  ⟨r, rfl, h⟩

/-- An undisturbed INIT from an empty block captures its operands, or unwinds (44_lifecycle.md R175, R180). -/
theorem exec_init_ends {var : Variant} {clk base : Word64} {s t : State} (hstart : s.canStart = true)
    (hquiet : s.quiet = true) (hp : s.pending = []) (hset : s.settled = true) (hout : s.cfg.inService = false)
    (ht : exec (.init var clk base) s = .next t) : s.EndsOk t ∨ s.EndsBare t := by
  obtain ⟨hres, hmapped⟩ := released_of_settled hset hout
  by_cases hfails : s.env.mapOk = false ∨ s.env.clkOk = false ∨ clk.toInt ≤ 0 ∨ s.env.rst = .error ∨
      s.env.regOk = false
  · have hunwinds := initFailsAndUnwinds var clk base s hstart hquiet hp hout hres hmapped hfails
    cases hunwinds.symm.trans ht
    refine .inr ⟨_, ?_, rfl⟩
    split
    · exact ⟨_, _, rfl, rfl⟩
    split
    · exact ⟨_, _, rfl, rfl⟩
    split
    · exact ⟨_, _, rfl, rfl⟩
    split
    · exact ⟨_, _, rfl, rfl⟩
    · exact ⟨_, _, rfl, by split <;> rfl⟩
  · simp only [not_or, Bool.not_eq_false, Int.not_le] at hfails
    obtain ⟨hmap, hclk, hrate, hrst, hreg⟩ := hfails
    have hgrants : s.GrantsInit clk := ⟨hout, hmap, hclk, hrst, hreg, hrate⟩
    have hwindow : s.acquired.mapped = s.env.windowBytes := by simp [State.acquired]
    by_cases hb : baseMeetsDuty var base = true
    · by_cases hw : var.windowBytes ≤ s.env.windowBytes
      · cases (exec_init_undisturbed hstart hquiet hp hgrants hb hw).symm.trans ht
        exact .inl (endsOk_response rfl)
      · cases (exec_init_refused hstart hquiet hp hgrants
          (underDuty_refuses_window hb (hwindow ▸ Nat.lt_of_not_le hw))).symm.trans ht
    · cases (exec_init_refused hstart hquiet hp hgrants (underDuty_refuses_base hb _)).symm.trans ht

/-- An undisturbed operation on a settled block ends with `OK`, or with a bare status and nothing else done. -/
theorem exec_ends {i : Instr} {s t : State} (hstart : s.canStart = true)
    (hquiet : i.isLifecycle = true → s.quiet = true) (hp : s.pending = []) (hset : s.settled = true)
    (ht : exec i s = .next t) : s.EndsOk t ∨ s.EndsBare t := by
  by_cases hgate : s.cfg.inService = requiredService i
  · cases i with
    | init var clk base => exact exec_init_ends hstart (hquiet rfl) hp hset hgate ht
    | teardown =>
      cases (exec_teardown_undisturbed hstart (hquiet rfl) hp hgate).symm.trans ht
      exact .inl (endsOk_response rfl)
    | resolve ch =>
      cases (exec_resolve_undisturbed hstart hp (gate_open hgate _)).symm.trans ht
      exact .inl (endsOk_response rfl)
    | getState ch =>
      obtain ⟨hacc, hrate⟩ := accessible_of_settled hset hgate
      cases (exec_getState_undisturbed hstart hp hacc hrate).symm.trans ht
      exact .inl (endsOk_response rfl)
    | apply ch en pol period duty =>
      cases pol with
      | normal =>
        cases (applyRejectsPolarity ch en period duty s hstart hp hgate).symm.trans ht
        exact .inr (endsBare_response s .unsupportedPolarity)
      | inversed =>
        obtain ⟨hacc, -⟩ := accessible_of_settled hset hgate
        cases (exec_apply_undisturbed hstart hp hacc).symm.trans ht
        exact .inl (endsOk_response rfl)
  · cases (exec_gate_closed hstart hquiet hp hgate).symm.trans ht
    exact .inr (endsBare_response s .wrongLifecycleState)

/-- Settles O41: an operation that does not end with `OK` ends with a bare status and grows the trace alone. -/
theorem errorsHaveNoRegisterEffect : Obligations.ErrorsHaveNoRegisterEffect := by
  unfold Obligations.ErrorsHaveNoRegisterEffect
  intro i s t r hstart hquiet hp hset ht hr hne
  obtain ⟨r', hr', hok⟩ | ⟨evs, ⟨st, new, rfl, hnew⟩, rfl⟩ := exec_ends hstart hquiet hp hset ht
  · cases hr'.symm.trans hr
    exact absurd hok hne
  · cases hr
    exact ⟨rfl, rfl, rfl, rfl, rfl, rfl, _, rfl, hnew⟩

end Sys2Proof.Machine

/-! SUPPORT. One statement of GET_STATE or APPLY as an effect that is fixed by what the port sees: its own context and
the registers of its channel. Effects on distinct blocks commute (60_exceptions.md R210; 20_memory.md R65). -/

namespace Sys2Proof.Machine

/-- Contexts of different ports can be replaced in either order. -/
theorem update_comm {α : Type} [DecidableEq α] {d v w : α} {j k : Nat} {l : List (Nat × α)}
    (h : canonical d l = true) (hjk : j ≠ k) : update d j v (update d k w l) = update d k w (update d j v l) := by
  refine canonical_ext (canonical_update (canonical_update h)) (canonical_update (canonical_update h)) fun x => ?_
  by_cases hj : x = j
  · subst hj
    rw [lookup_update_same (canonical_update h), lookup_update_other (canonical_update h) hjk, lookup_update_same h]
  · by_cases hk : x = k
    · subst hk
      rw [lookup_update_other (canonical_update h) hj, lookup_update_same h, lookup_update_same (canonical_update h)]
    · rw [lookup_update_other (canonical_update h) hj, lookup_update_other h hk,
        lookup_update_other (canonical_update h) hk, lookup_update_other h hj]

/-! ### The gate of the State Converter's operations -/

theorem requiredService_of_not_lifecycle {i : Instr} (hi : i.isLifecycle = false) : requiredService i = true := by
  cases i with
  | init var clk base => cases hi
  | teardown => cases hi
  | resolve ch => rfl
  | getState ch => rfl
  | apply ch en pol period duty => rfl

/-- Out of service an operation beside INIT and TEARDOWN stands at its gate. -/
theorem seq_eq_zero_of_ctxFits {s : State} {c : Ctx} {i : Instr} (hf : ctxFits s c = true)
    (hd : decode c.cmd = .ok i) (hi : i.isLifecycle = false) (hout : s.cfg.inService = false) : c.seq = 0 := by
  cases i with
  | init var clk base => cases hi
  | teardown => cases hi
  | resolve ch =>
    simp only [ctxFits, hd, Bool.and_eq_true, decide_eq_true_eq] at hf
    exact hf.2
  | getState ch =>
    simp only [ctxFits, hd, hout, Bool.and_eq_true, Bool.false_and, Bool.or_false, decide_eq_true_eq] at hf
    exact hf.2
  | apply ch en pol period duty =>
    simp only [ctxFits, hd, hout, Bool.and_eq_true, Bool.false_and, Bool.or_false, decide_eq_true_eq] at hf
    exact hf.2

/-- From a context that fits, an operation beside INIT and TEARDOWN can make its accesses, or stands at a closed gate
(10_state.md R41; 60_exceptions.md R194). -/
theorem accessible_or_gate_closed {s : State} {c : Ctx} {i : Instr} (hf : ctxFits s c = true)
    (hd : decode c.cmd = .ok i) (hi : i.isLifecycle = false) :
    (s.accessible = true ∧ s.cfg.clkRate ≠ 0) ∨ (c.seq = 0 ∧ s.cfg.inService ≠ requiredService i) := by
  cases hin : s.cfg.inService with
  | true => exact .inl (accessible_of_settled (settled_of_ctxFits hf hd (.inl hi)) hin)
  | false =>
    refine .inr ⟨seq_eq_zero_of_ctxFits hf hd hi hin, ?_⟩
    rw [requiredService_of_not_lifecycle hi]
    exact Bool.false_ne_true

/-! ### Effects -/

/-- What one statement does: the context it leaves to its port, the register of its channel that it writes, and the
events that it adds (10_state.md R21; 20_memory.md R64). -/
structure Effect where
  ctx : Ctx
  write : Option (Reg × Word32)
  events : List Event

namespace Effect

/-- The operation goes on. -/
def goes (c : Ctx) : Effect := ⟨c, none, []⟩

/-- The operation of port `p` ends. -/
def answers (p : Nat) (r : Response) : Effect := ⟨Ctx.idle, none, [.response p r]⟩

/-- With a read before. -/
def reading (e : Effect) (p : Nat) (ea : Word64) (v : Word32) : Effect :=
  { e with events := e.events ++ [.read p ea v] }

/-- With a write of the register `r` before. -/
def writing (e : Effect) (p : Nat) (ea : Word64) (r : Reg) (v : Word32) : Effect :=
  ⟨e.ctx, some (r, v), e.events ++ [.write p ea v]⟩

/-- The window after the effect on the register block at `off`. -/
def window (e : Effect) (off : Nat) (m : Memory) : Memory :=
  match e.write with
  | none => m
  | some (r, v) => m.write32 (off + (regOff r).toNat) v

theorem window_wf (e : Effect) (off : Nat) {m : Memory} (h : m.wf = true) : (e.window off m).wf = true := by
  unfold window
  split
  · exact h
  · exact write32_wf h

/-- A register of another block stays. -/
theorem read32_window (e : Effect) {m : Memory} {off off' : Nat} (h : m.wf = true) (ho : off % 16 = 0)
    (ho' : off' % 16 = 0) (hne : off ≠ off') (r : Reg) :
    (e.window off' m).read32 (off + (regOff r).toNat) = m.read32 (off + (regOff r).toNat) := by
  unfold window
  split
  · rfl
  · exact read32_write32_other h (registers_apart ho ho' (.inl hne))

/-- Effects on two blocks commute (20_memory.md R65). -/
theorem window_comm (e e' : Effect) {m : Memory} {off off' : Nat} (h : m.wf = true) (ho : off % 16 = 0)
    (ho' : off' % 16 = 0) (hne : off ≠ off') : e'.window off' (e.window off m) = e.window off (e'.window off' m) := by
  unfold window
  split
  · rfl
  · split
    · rfl
    · exact write32_comm h (registers_apart ho ho' (.inl hne))

end Effect

/-- The state after an effect on port `p` and channel `ch`. -/
def State.after (s : State) (p : Nat) (ch : Channel) (e : Effect) : State :=
  { s with
    window := e.window (blockOffset Config.bankAliased s.cfg.variant ch) s.window
    ports := update Ctx.idle p e.ctx s.ports
    trace := e.events ++ s.trace }

theorem after_read {s : State} {p : Nat} {ch : Channel} {cb : Word64} (e : Effect) (hcb : cb = s.channelBase ch)
    (r : Reg) :
    (s.afterRead p (effAddr cb r)).after p ch e =
      s.after p ch (e.reading p (effAddr cb r) (s.channelReg ch r)) := by
  subst hcb
  simp only [State.after, Effect.reading, List.append_assoc]
  rfl

theorem after_write {s : State} {p : Nat} {ch : Channel} {cb : Word64} {e : Effect} (he : e.write = none)
    (hcb : cb = s.channelBase ch) (r : Reg) (v : Word32) :
    (s.afterWrite p (effAddr cb r) v).after p ch e = s.after p ch (e.writing p (effAddr cb r) r v) := by
  subst hcb
  simp only [State.after, Effect.writing, Effect.window, he, List.append_assoc, afterWrite_window, windowKey_register]
  rfl

/-! ### What a port sees -/

/-- Port `p` sees the same in `t` as in `s`: the configuration, its context and the registers of channel `ch`. -/
structure State.SameView (s : State) (p : Nat) (ch : Channel) (t : State) : Prop where
  cfg : t.cfg = s.cfg
  res : t.res = s.res
  mapped : t.mapped = s.mapped
  ctx : t.ctx p = s.ctx p
  regs : ∀ r, t.channelReg ch r = s.channelReg ch r

namespace State.SameView

variable {s t u : State} {p : Nat} {ch : Channel} {i : Instr} {cb : Word64}

theorem refl (s : State) (p : Nat) (ch : Channel) : s.SameView p ch s := ⟨rfl, rfl, rfl, rfl, fun _ => rfl⟩

/-- The effect of another port on another block is not seen (60_exceptions.md R210). -/
theorem after {q : Nat} {ch' : Channel} (hw : s.window.wf = true) (hc : canonical Ctx.idle s.ports = true)
    (hqp : q ≠ p)
    (hne : blockOffset Config.bankAliased s.cfg.variant ch ≠ blockOffset Config.bankAliased s.cfg.variant ch')
    (e : Effect) : s.SameView p ch (s.after q ch' e) := by
  refine ⟨rfl, rfl, rfl, lookup_update_other hc (Ne.symm hqp), fun r => ?_⟩
  rw [channelReg_eq, channelReg_eq]
  exact e.read32_window hw (blockOffset_mod _ _ _) (blockOffset_mod _ _ _) hne r

theorem accessible (h : s.SameView p ch t) (hacc : s.accessible = true) : t.accessible = true :=
  (accessible_congr h.cfg h.res h.mapped).trans hacc

theorem base (h : s.SameView p ch t) (hcb : cb = s.channelBase ch) : cb = t.channelBase ch :=
  hcb.trans (channelBase_congr h.cfg ch).symm

theorem readAt (h : s.SameView p ch t) (hcb : cb = s.channelBase ch) (r : Reg) :
    t.readAt (effAddr cb r) = s.channelReg ch r := by
  rw [h.base hcb]
  exact h.regs r

theorem read (h : s.SameView p ch t) (hcb : cb = s.channelBase ch) (r : Reg) (e : Effect) :
    (t.afterRead p (effAddr cb r)).after p ch e = t.after p ch (e.reading p (effAddr cb r) (s.channelReg ch r)) := by
  rw [after_read e (h.base hcb), h.regs]

theorem write (h : s.SameView p ch t) (hcb : cb = s.channelBase ch) (r : Reg) (v : Word32) {e : Effect}
    (he : e.write = none) :
    (t.afterWrite p (effAddr cb r) v).after p ch e = t.after p ch (e.writing p (effAddr cb r) r v) :=
  after_write he (h.base hcb) r v

section Advance

variable (h : s.SameView p ch t) (hb : (s.ctx p).busy = true) (hd : decode (s.ctx p).cmd = .ok i)
include h hb hd

theorem advance_goes {c : Ctx} (hst : statementOf i p (s.ctx p) t = .goes c u) :
    advance p t = .next (u.after p ch (.goes c)) := by
  rw [← h.ctx] at hb hd hst
  exact (advance_busy hb hd).trans (runStatement_goes rfl hst)

theorem advance_answers {r : Response} (hst : statementOf i p (s.ctx p) t = .answers r u) :
    advance p t = .next (u.after p ch (.answers p r)) := by
  rw [← h.ctx] at hb hd hst
  exact (advance_busy hb hd).trans (runStatement_answers rfl hst)

end Advance

end State.SameView

/-- The next statement of port `p` has one effect on every state in which the port sees the same. -/
def State.HasEffect (s : State) (p : Nat) (ch : Channel) (e : Effect) : Prop :=
  ∀ t, s.SameView p ch t → advance p t = .next (t.after p ch e)

section HasEffect

variable {s : State} {p : Nat} {ch : Channel} {i : Instr}

/-- At a closed gate the effect is the answer alone. -/
theorem hasEffect_gate_closed (hb : (s.ctx p).busy = true) (hd : decode (s.ctx p).cmd = .ok i)
    (hq : (s.ctx p).seq = 0) (h : s.cfg.inService ≠ requiredService i) :
    s.HasEffect p ch (.answers p (Response.only .wrongLifecycleState)) :=
  fun _ ht => ht.advance_answers hb hd (statementOf_gate_closed hq (ht.cfg ▸ h))

theorem getState_hasEffect (hb : (s.ctx p).busy = true) (hd : decode (s.ctx p).cmd = .ok (.getState ch))
    (hacc : s.accessible = true) (hrate : s.cfg.clkRate ≠ 0) (hplace : AtPlace s.cfg (s.ctx p) (.getState ch)) :
    ∃ e, s.HasEffect p ch e := by
  obtain ⟨hle, hcb⟩ := hplace
  have hbase : (s.ctx p).seq ≠ 0 → (s.ctx p).cb = s.channelBase ch := hcb.resolve_left
  rcases seq_cases (s.ctx p).seq with hq | hq | hq | hq | hq | hq | hq | hq
  · refine ⟨.goes { (s.ctx p).next with cb := s.channelBase ch }, fun t ht => ht.advance_goes hb hd ?_⟩
    rw [← channelBase_congr ht.cfg]
    exact getState_resolves hq (inService_of_accessible (ht.accessible hacc))
  · have hcb := hbase (by simp [hq])
    refine ⟨(Effect.goes { (s.ctx p).next with tp := s.channelReg ch .lrc }).reading p (effAddr (s.ctx p).cb .lrc)
      (s.channelReg ch .lrc), fun t ht => ?_⟩
    rw [ht.advance_goes hb hd (getState_reads_lrc hq (ht.accessible hacc)), ht.read hcb, ht.readAt hcb]
  · have hcb := hbase (by simp [hq])
    refine ⟨(Effect.goes { (s.ctx p).next with td := s.channelReg ch .hrc }).reading p (effAddr (s.ctx p).cb .hrc)
      (s.channelReg ch .hrc), fun t ht => ?_⟩
    rw [ht.advance_goes hb hd (getState_reads_hrc hq (ht.accessible hacc)), ht.read hcb, ht.readAt hcb]
  · have hcb := hbase (by simp [hq])
    refine ⟨(Effect.answers p (stateResponse s.cfg.clkRate (s.ctx p).tp (s.ctx p).td (s.channelReg ch .ctrl))).reading
      p (effAddr (s.ctx p).cb .ctrl) (s.channelReg ch .ctrl), fun t ht => ?_⟩
    rw [ht.advance_answers hb hd (getState_answers hq (ht.accessible hacc) (ht.cfg ▸ hrate)), ht.read hcb, ht.readAt hcb,
      ht.cfg]
  all_goals simp [hq] at hle

theorem apply_hasEffect {en : Bool} {pol : Polarity} {period duty : Word64} (hb : (s.ctx p).busy = true)
    (hd : decode (s.ctx p).cmd = .ok (.apply ch en pol period duty)) (hacc : s.accessible = true)
    (hplace : AtPlace s.cfg (s.ctx p) (.apply ch en pol period duty)) : ∃ e, s.HasEffect p ch e := by
  obtain ⟨hle, hcb⟩ := hplace
  have hbase : (s.ctx p).seq ≠ 0 → (s.ctx p).cb = s.channelBase ch := hcb.resolve_left
  rcases seq_cases (s.ctx p).seq with hq | hq | hq | hq | hq | hq | hq | hq
  · have hin : ∀ {t}, s.SameView p ch t → t.cfg.inService = true := fun ht =>
      inService_of_accessible (ht.accessible hacc)
    cases pol with
    | normal =>
      exact ⟨.answers p (Response.only .unsupportedPolarity), fun t ht =>
        ht.advance_answers hb hd (apply_rejects (ch := ch) (period := period) (duty := duty) hq (hin ht))⟩
    | inversed =>
      refine ⟨.goes { (s.ctx p).next with
        cb := s.channelBase ch, tp := tickReg period s.cfg.clkRate, td := tickReg duty s.cfg.clkRate },
        fun t ht => ht.advance_goes hb hd ?_⟩
      rw [← channelBase_congr ht.cfg, ← ht.cfg]
      exact apply_converts hq (hin ht)
  · have hcb := hbase (by simp [hq])
    refine ⟨(Effect.goes (s.ctx p).next).writing p (effAddr (s.ctx p).cb .lrc) .lrc (s.ctx p).tp, fun t ht => ?_⟩
    rw [ht.advance_goes hb hd (apply_writes_lrc hq (ht.accessible hacc)), ht.write hcb _ _ rfl]
  · have hcb := hbase (by simp [hq])
    refine ⟨(Effect.goes (s.ctx p).next).writing p (effAddr (s.ctx p).cb .hrc) .hrc (s.ctx p).td, fun t ht => ?_⟩
    rw [ht.advance_goes hb hd (apply_writes_hrc hq (ht.accessible hacc)), ht.write hcb _ _ rfl]
  · have hcb := hbase (by simp [hq])
    refine ⟨(Effect.goes (s.ctx p).next).writing p (effAddr (s.ctx p).cb .cntr) .cntr 0, fun t ht => ?_⟩
    rw [ht.advance_goes hb hd (apply_clears_cntr hq (ht.accessible hacc)), ht.write hcb _ _ rfl]
  · have hcb := hbase (by simp [hq])
    refine ⟨(Effect.goes { (s.ctx p).next with tc := s.channelReg ch .ctrl }).reading p (effAddr (s.ctx p).cb .ctrl)
      (s.channelReg ch .ctrl), fun t ht => ?_⟩
    rw [ht.advance_goes hb hd (apply_reads_ctrl hq (ht.accessible hacc)), ht.read hcb, ht.readAt hcb]
  · have hcb := hbase (by simp [hq])
    refine ⟨(Effect.answers p (Response.only .ok)).writing p (effAddr (s.ctx p).cb .ctrl) .ctrl
      (ctrlWithEnable (s.ctx p).tc en), fun t ht => ?_⟩
    rw [ht.advance_answers hb hd (apply_writes_ctrl hq (ht.accessible hacc)), ht.write hcb _ _ rfl]
  all_goals simp [hq] at hle

/-- Every statement of GET_STATE and APPLY from a context that fits has an effect. -/
theorem converter_hasEffect (hb : (s.ctx p).busy = true) (hd : decode (s.ctx p).cmd = .ok i)
    (hf : ctxFits s (s.ctx p) = true)
    (hi : i = .getState ch ∨ ∃ (en : Bool) (pol : Polarity) (x y : Word64), i = .apply ch en pol x y) :
    ∃ e, s.HasEffect p ch e := by
  have hl : i.isLifecycle = false := by
    obtain rfl | ⟨en, pol, x, y, rfl⟩ := hi <;> rfl
  obtain ⟨hacc, hrate⟩ | ⟨hq, hgate⟩ := accessible_or_gate_closed hf hd hl
  · have hplace := atPlace_of_ctxFits hf hd hl
    obtain rfl | ⟨en, pol, x, y, rfl⟩ := hi
    · exact getState_hasEffect hb hd hacc hrate hplace
    · exact apply_hasEffect hb hd hacc hplace
  · exact ⟨_, hasEffect_gate_closed hb hd hq hgate⟩

/-- Two ports step one after the other, and the second sees nothing of the first. -/
theorem consumeAll_two_effects {q : Nat} {ch' : Channel} {e e' : Effect} (hw : s.window.wf = true)
    (hc : canonical Ctx.idle s.ports = true) (hpq : p ≠ q)
    (hne : blockOffset Config.bankAliased s.cfg.variant ch ≠ blockOffset Config.bankAliased s.cfg.variant ch')
    (he : s.HasEffect p ch e) (he' : s.HasEffect q ch' e') :
    consumeAll [.advance p, .advance q] s = .next ((s.after p ch e).after q ch' e') := by
  have hsame : s.SameView q ch' (s.after p ch e) := .after hw hc hpq hne.symm e
  rw [consumeAll_cons, consume_advance, he s (.refl s p ch), thenRun_next, consumeAll_cons, consume_advance,
    he' _ hsame]
  rfl

end HasEffect

/-- Settles O55: each statement has the same effect before and after the other, and effects on two ports and two blocks
commute but for the order of their events. -/
theorem distinctChannelsCommute : Obligations.DistinctChannelsCommute := by
  unfold Obligations.DistinctChannelsCommute
  intro p q ch ch' i j s hw hc hpq hbp hbq hfp hfq hdp hdq hi hj hne
  obtain ⟨e, he⟩ := converter_hasEffect hbp hdp hfp hi
  obtain ⟨e', he'⟩ := converter_hasEffect hbq hdq hfq hj
  refine ⟨_, _, consumeAll_two_effects hw hc hpq hne he he', consumeAll_two_effects hw hc hpq.symm hne.symm he' he, ?_,
    update_comm hc hpq.symm, rfl, rfl, rfl, rfl, rfl, rfl, fun ev => ?_⟩
  · exact e.window_comm e' hw (blockOffset_mod _ _ _) (blockOffset_mod _ _ _) hne
  · simp only [State.after, List.count_append]
    omega

end Sys2Proof.Machine

/-! SUPPORT. An operation runs to its response: under the platform's duty no input that falls inside it is refused, and
it has no more statements than `maxStatements` (60_exceptions.md R208; 70_reset_and_hazards.md R226, R231, R236). -/

namespace Sys2Proof.Machine

/-! ### Statements that are not refused -/

/-- Once INIT has mapped the window, it covers what the INIT will capture (70_reset_and_hazards.md R226). -/
def WindowHeld (i : Instr) (c : Ctx) (s : State) : Prop :=
  match i with
  | .init var _ _ => 2 ≤ c.seq.toNat → var.windowBytes ≤ s.mapped
  | .teardown => True
  | .resolve _ => True
  | .getState _ => True
  | .apply _ _ _ _ _ => True

theorem windowHeld_congr {i : Instr} {c : Ctx} {s t : State} (h : t.mapped = s.mapped) :
    WindowHeld i c t ↔ WindowHeld i c s := by
  simp only [WindowHeld, h]

theorem windowHeld_accepted (i : Instr) (c : Command) (s : State) : WindowHeld i (Ctx.accepted c) s := by
  cases i with
  | init var clk base => exact fun hq => absurd hq (show ¬ 2 ≤ 0 by decide)
  | teardown => trivial
  | resolve ch => trivial
  | getState ch => trivial
  | apply ch en pol period duty => trivial

theorem windowHeld_of_not_lifecycle {i : Instr} (hi : i.isLifecycle = false) (c : Ctx) (s : State) :
    WindowHeld i c s := by
  cases i with
  | init var clk base => cases hi
  | teardown => cases hi
  | resolve ch => trivial
  | getState ch => trivial
  | apply ch en pol period duty => trivial

/-- The outcome is no refusal, and a statement that goes on leaves a context and a state as `R` says. -/
def Progress.Proceeds (R : Ctx → State → Prop) : Progress → Prop
  | .goes c s => R c s
  | .answers _ _ => True
  | .faults _ => True
  | .refuses _ => False

theorem proceeds_ite {R : Ctx → State → Prop} {b : Prop} [Decidable b] {x y : Progress} (hx : x.Proceeds R)
    (hy : y.Proceeds R) : (if b then x else y).Proceeds R := by split <;> assumption

/-- INIT maps what the platform offers and keeps it mapped, so that its capture is under the duty
(44_lifecycle.md R172; 70_reset_and_hazards.md R226). -/
theorem initStatement_proceeds {var : Variant} {clk base : Word64} (p : Nat) {c : Ctx} {s : State}
    (hbase : baseMeetsDuty var base = true) (hwindow : var.windowBytes ≤ s.env.windowBytes)
    (hheld : 2 ≤ c.seq.toNat → var.windowBytes ≤ s.mapped) :
    (initStatement var clk base p c s).Proceeds (WindowHeld (.init var clk base)) := by
  have hgoes : ∀ s' : State, (2 ≤ c.next.seq.toNat → var.windowBytes ≤ s'.mapped) →
      (Progress.goes c.next s').Proceeds (WindowHeld (.init var clk base)) := fun _ h => h
  unfold initStatement
  split
  · rename_i hq
    have hnext : c.next.seq.toNat = 1 := by simp [Ctx.next, BitVec.toNat_add, hq]
    exact proceeds_ite (hgoes _ fun hle => by omega) trivial
  · exact proceeds_ite (hgoes _ fun _ => hwindow) trivial
  · exact proceeds_ite (hgoes _ fun _ => hheld (by omega)) trivial
  · exact proceeds_ite trivial (hgoes _ fun _ => hheld (by omega))
  · cases s.env.rst with
    | absent => exact hgoes _ fun _ => hheld (by omega)
    | present => exact hgoes _ fun _ => hheld (by omega)
    | error => trivial
  · rw [underDuty_of_met hbase (hheld (by omega))]
    exact proceeds_ite trivial trivial
  · trivial

theorem teardownStatement_proceeds (p : Nat) (c : Ctx) (s : State) :
    (teardownStatement p c s).Proceeds (WindowHeld .teardown) := by
  unfold teardownStatement
  split
  · exact proceeds_ite trivial trivial
  · exact proceeds_ite trivial trivial
  · trivial
  · trivial
  · trivial

/-- The accesses of the State Converter stay under the duty that INIT has captured (70_reset_and_hazards.md R226). -/
theorem converterStatement_proceeds {i : Instr} (p : Nat) {c : Ctx} {s : State} (hf : ctxFits s c = true)
    (hd : decode c.cmd = .ok i) (hi : i.isLifecycle = false) : (statementOf i p c s).Proceeds (WindowHeld i) := by
  obtain ⟨hacc, hrate⟩ | ⟨hq, hgate⟩ := accessible_or_gate_closed hf hd hi
  · have htouch := statementOf_touches (q := p) hacc hrate (atPlace_of_ctxFits hf hd hi)
    cases hst : statementOf i p c s with
    | goes c' t => exact windowHeld_of_not_lifecycle hi c' t
    | answers r t => trivial
    | faults f => trivial
    | refuses e =>
      rw [hst] at htouch
      exact htouch
  · rw [statementOf_gate_closed hq hgate]
    trivial

/-- No statement of a well-formed operation is refused from a context that fits, if an INIT finds its window covered. -/
theorem statementOf_proceeds {i : Instr} (p : Nat) {c : Ctx} {s : State} (hf : ctxFits s c = true)
    (hd : decode c.cmd = .ok i) (hwf : i.wellFormed = true) (henv : windowMet i s.env = true)
    (hheld : WindowHeld i c s) : (statementOf i p c s).Proceeds (WindowHeld i) := by
  cases i with
  | init var clk base => exact initStatement_proceeds p hwf (of_decide_eq_true henv) hheld
  | teardown => exact teardownStatement_proceeds p c s
  | resolve ch => exact converterStatement_proceeds p hf hd rfl
  | getState ch => exact converterStatement_proceeds p hf hd rfl
  | apply ch en pol period duty => exact converterStatement_proceeds p hf hd rfl

/-- A statement that fits and is not refused goes on or answers. -/
theorem goes_or_answers {i : Instr} {p : Nat} {c : Ctx} {s : State} {R : Ctx → State → Prop}
    (hf : ctxFits s c = true) (hd : decode c.cmd = .ok i) (h : (statementOf i p c s).Proceeds R) :
    (∃ c' s', statementOf i p c s = .goes c' s' ∧ R c' s') ∨ ∃ r s', statementOf i p c s = .answers r s' := by
  have hok := statementOf_ok i p c s hd hf
  cases hst : statementOf i p c s with
  | goes c' s' =>
    rw [hst] at h
    exact .inl ⟨c', s', rfl, h⟩
  | answers r s' => exact .inr ⟨r, s', rfl⟩
  | faults f =>
    rw [hst] at hok
    exact hok.elim
  | refuses e =>
    rw [hst] at h
    exact h.elim

/-! ### An operation in flight -/

/-- Port `p` runs the operation `i`, and the platform has kept its duty on the window so far (70_reset_and_hazards.md
R226). -/
structure State.InFlight (s : State) (p : Nat) (i : Instr) : Prop where
  sound : s.Sound
  busy : (s.ctx p).busy = true
  latched : decode (s.ctx p).cmd = .ok i
  env : windowMet i s.env = true
  held : WindowHeld i (s.ctx p) s

/-- Port `p` is idle, its response the newest event. -/
def State.Ended (s : State) (p : Nat) : Prop :=
  s.ctx p = Ctx.idle ∧ ∃ r : Response, s.trace.head? = some (.response p r)

theorem State.Ended.idle {s : State} {p : Nat} (h : s.Ended p) : (s.ctx p).busy = false := by
  rw [h.1]
  rfl

namespace State.InFlight

variable {s t : State} {p q : Nat} {i : Instr} {x : Input}

/-- The next statement of the operation (10_state.md R21). -/
theorem own (h : s.InFlight p i) (hwf : i.wellFormed = true) :
    ∃ t, runStatement (statementOf i) p s = .next t ∧ (t.InFlight p i ∨ t.Ended p) := by
  have hf := h.sound.fits p h.busy
  have hk := statementOf_keeps i p (s.ctx p) s
  obtain ⟨c', s', hst, hheld⟩ | ⟨r, s', hst⟩ :=
    goes_or_answers hf h.latched (statementOf_proceeds p hf h.latched hwf h.env h.held)
  · have hrun := runStatement_goes (p := p) rfl hst
    rw [hst] at hk
    obtain ⟨⟨hports, henv, -⟩, hbusy, hcmd, -⟩ := hk
    have hctx : (s'.setCtx p c').ctx p = c' := ctx_setCtx_same (hports ▸ h.sound.canonical)
    refine ⟨_, hrun, .inl ⟨h.sound.statement h.busy h.latched hrun, ?_, ?_, henv ▸ h.env, ?_⟩⟩
    · rw [hctx, hbusy]
      exact h.busy
    · rw [hctx, hcmd]
      exact h.latched
    · rw [hctx]
      exact (windowHeld_congr rfl).2 hheld
  · rw [hst] at hk
    obtain ⟨hports, -⟩ := hk
    exact ⟨_, runStatement_answers rfl hst, .inr ⟨ctx_respond_same (hports ▸ h.sound.canonical), r, rfl⟩⟩

/-- An input that leaves the port's context and the mapped window, and the platform's duty kept. -/
theorem of_consume (h : s.InFlight p i) (hx : consume x s = .next t) (hctx : t.ctx p = s.ctx p)
    (hmapped : t.mapped = s.mapped) (henv : windowMet i t.env = true) : t.InFlight p i where
  sound := h.sound.consume x hx
  busy := hctx ▸ h.busy
  latched := hctx ▸ h.latched
  env := henv
  held := hctx ▸ (windowHeld_congr hmapped).2 h.held

/-- No other port runs INIT or TEARDOWN meanwhile (70_reset_and_hazards.md R231). -/
theorem other_not_lifecycle (h : s.InFlight p i) (hq : q ≠ p) (hb : (s.ctx q).busy = true) :
    (s.ctx q).cmd.isLifecycle = false := by
  rw [← Bool.not_eq_true]
  exact fun hl => hq (h.sound.alone q hb hl p h.busy).symm

theorem no_lifecycle (h : s.InFlight p i) (hi : i.isLifecycle = false) : s.lifecycleInFlight = false := by
  rw [← Bool.not_eq_true, lifecycleInFlight_iff h.sound.canonical]
  rintro ⟨q, hb, hl⟩
  by_cases hq : q = p
  · subst hq
    rw [isLifecycle_of_decode h.latched, hi] at hl
    cases hl
  · rw [h.other_not_lifecycle hq hb] at hl
    cases hl

/-- A command that keeps the duty is latched on its port, answered or gone. -/
theorem command (h : s.InFlight p i) {c : Command} (hk : (Input.command q c).keepsDuty p i = true) :
    ∃ t, consume (.command q c) s = .next t ∧ t.InFlight p i := by
  simp only [Input.keepsDuty, Bool.and_eq_true, Bool.or_eq_true, decide_eq_true_eq] at hk
  obtain ⟨he, hk⟩ := hk
  cases hb : (s.ctx q).busy with
  | true => exact ⟨s, offer_busy he hb, h⟩
  | false =>
    have hq : q ≠ p := by
      rintro rfl
      rw [h.busy] at hb
      cases hb
    cases hd : decode c with
    | error e =>
      obtain ⟨t, ht, hcase⟩ := rejectReserved_of_exists he s
      have hx : consume (.command q c) s = .next t := (offer_reserved hd s).trans ht
      obtain rfl | rfl := hcase
      · exact ⟨_, hx, h⟩
      · exact ⟨_, hx, h.of_consume hx rfl rfl h.env⟩
    | ok j =>
      rw [hd] at hk
      obtain ⟨hi, hj⟩ := (Bool.and_eq_true _ _).mp (hk.resolve_left hq)
      rw [Bool.not_eq_true'] at hi hj
      have hx : consume (.command q c) s = .next (s.setCtx q (Ctx.accepted c)) :=
        (offer_operation hd s).trans (accept_free he hb hj (h.no_lifecycle hi))
      exact ⟨_, hx, h.of_consume hx (ctx_setCtx_other h.sound.canonical hq.symm) rfl h.env⟩

/-- Another port's next statement goes on or ends that port's operation. -/
theorem advance_other (h : s.InFlight p i) (hq : q ≠ p) :
    ∃ t, consume (.advance q) s = .next t ∧ t.InFlight p i := by
  cases hb : (s.ctx q).busy with
  | false => exact ⟨s, advance_idle hb, h⟩
  | true =>
    have hf := h.sound.fits q hb
    obtain ⟨j, hd⟩ := decodes_of_ctxFits hf
    have hj : j.isLifecycle = false := (isLifecycle_of_decode hd).symm.trans (h.other_not_lifecycle hq hb)
    have hok := statementOf_ok j q (s.ctx q) s hd hf
    have hk := statementOf_keeps j q (s.ctx q) s
    have hother : ∀ {t}, consume (.advance q) s = .next t → t.ctx p = s.ctx p := fun ht =>
      (h.sound.consume_of_not_concerns (q := p) (x := .advance q) (decide_eq_false hq) ht).2 nofun
    obtain ⟨c', s', hst, -⟩ | ⟨r, s', hst⟩ := goes_or_answers hf hd (converterStatement_proceeds q hf hd hj)
    · rw [hst] at hok hk
      obtain ⟨-, -, hmapped⟩ := hok.2.resolve_left (by simp [hj])
      obtain ⟨⟨-, henv, -⟩, -⟩ := hk
      have hx : consume (.advance q) s = .next (s'.setCtx q c') :=
        (advance_busy hb hd).trans (runStatement_goes rfl hst)
      exact ⟨_, hx, h.of_consume hx (hother hx) hmapped (henv ▸ h.env)⟩
    · rw [hst] at hok hk
      obtain ⟨-, -, hmapped⟩ := hok.2.resolve_left (by simp [hj])
      obtain ⟨-, henv, -⟩ := hk
      have hx : consume (.advance q) s = .next (s'.respond q r) :=
        (advance_busy hb hd).trans (runStatement_answers rfl hst)
      exact ⟨_, hx, h.of_consume hx (hother hx) hmapped (henv ▸ h.env)⟩

/-- No input that keeps the duties is refused or disturbs the operation (70_reset_and_hazards.md R231). -/
theorem other (h : s.InFlight p i) (hk : x.keepsDuty p i = true) (hw : x.windowMet i = true) (hx : x ≠ .advance p) :
    ∃ t, consume x s = .next t ∧ t.InFlight p i := by
  cases x with
  | command q c => exact h.command hk
  | advance q => exact h.advance_other fun hq => hx (hq ▸ rfl)
  | device b r v => exact ⟨_, rfl, h.of_consume (x := .device b r v) rfl rfl rfl h.env⟩
  | platform e => exact ⟨_, rfl, h.of_consume (x := .platform e) rfl rfl rfl hw⟩
  | reset => cases hk

/-! ### From acceptance to the response -/

/-- Alone, the port runs its remaining statements and answers (60_exceptions.md R208). -/
theorem runAlone_ends {n : Nat} (h : s.InFlight p i) (hwf : i.wellFormed = true) (hn : s.Latched p i n) :
    ∃ t, runAlone (statementOf i) p n s = .next t ∧ t.Ended p := by
  induction n generalizing s with
  | zero =>
    obtain ⟨-, hlt, hle⟩ := hn h.busy
    omega
  | succ n ih =>
    obtain ⟨u, hu, hcase⟩ := h.own hwf
    rw [runAlone_succ h.busy, hu, thenRun_next]
    obtain hu' | hend := hcase
    · exact ih hu' (hn.statement h.sound.canonical h.busy hu).2
    · exact ⟨u, runAlone_idle hend.idle, hend⟩

/-- Among inputs that keep the duties it answers too. -/
theorem runInputs_ends {xs : List Input} (h : s.InFlight p i) (hwf : i.wellFormed = true)
    (hk : ∀ x ∈ xs, x.keepsDuty p i = true) (hw : ∀ x ∈ xs, x.windowMet i = true) :
    ∃ t, runInputs (statementOf i) p xs s = .next t ∧ t.Ended p := by
  induction xs generalizing s with
  | nil => exact h.runAlone_ends hwf (h.sound.latched_of_decodes fun _ => h.latched)
  | cons x xs ih =>
    have hk' : ∀ y ∈ xs, y.keepsDuty p i = true := fun y hy => hk y (List.mem_cons_of_mem x hy)
    have hw' : ∀ y ∈ xs, y.windowMet i = true := fun y hy => hw y (List.mem_cons_of_mem x hy)
    by_cases hx : x = .advance p
    · subst hx
      obtain ⟨u, hu, hu' | hend⟩ := h.own hwf
      · rw [runInputs_own h.busy hu]
        exact ih hu' hk' hw'
      · rw [runInputs_own h.busy hu]
        cases xs with
        | nil => exact ⟨u, runAlone_idle hend.idle, hend⟩
        | cons y ys => exact ⟨_, runInputs_idle hend.idle, hend⟩
    · obtain ⟨u, hu, hu'⟩ := h.other (hk x List.mem_cons_self) (hw x List.mem_cons_self) hx
      rw [runInputs_other h.busy hx hu]
      exact ih hu' hk' hw'

/-- Acceptance on a port that can start puts the operation in flight. -/
theorem accepted (hs : s.Sound) (hstart : s.canStart = true) (hquiet : i.isLifecycle = true → s.quiet = true)
    (henv : windowMet i s.env = true) :
    ({ s.setCtx s.port (Ctx.accepted (encode i)) with pending := [] } : State).InFlight s.port i := by
  have hsound := hs.accept (decode_encode i) (accept_of_canStart hstart hquiet)
  have hctx : (s.setCtx s.port (Ctx.accepted (encode i))).ctx s.port = Ctx.accepted (encode i) :=
    ctx_setCtx_same hs.canonical
  refine ⟨hsound.setPending [] s.port, ?_, ?_, henv, ?_⟩
  · exact congrArg Ctx.busy hctx
  · exact (congrArg (fun c => decode c.cmd) hctx).trans (decode_encode i)
  · show WindowHeld i ((s.setCtx s.port (Ctx.accepted (encode i))).ctx s.port) _
    rw [hctx]
    exact windowHeld_accepted i _ _

end State.InFlight

/-- Settles O52: accepted, the operation is in flight until it answers, and every input that keeps the duties leaves it
so. -/
theorem everyOperationAnswered : Obligations.EveryOperationAnswered := by
  unfold Obligations.EveryOperationAnswered
  intro i s hgood hstart hquiet hwf henv hwindow hduty
  obtain ⟨-, hidle, -, -⟩ := canStart_iff.1 hstart
  have hflight := State.InFlight.accepted ((good_iff_sound s).1 hgood) hstart hquiet henv
  obtain ⟨t, ht, hctx, r, hr⟩ :=
    hflight.runInputs_ends hwf (List.all_eq_true.1 hduty) (List.all_eq_true.1 hwindow)
  refine ⟨t, r, ?_, hctx, hr⟩
  rw [exec_eq_thenRun, hidle, accept_of_canStart hstart hquiet]
  exact ht

end Sys2Proof.Machine

/-! SUPPORT. What a run does where the callers break their duty: an operation that overlaps INIT or TEARDOWN, and the
block's reset during a run (70_reset_and_hazards.md R220 to R222, R231; 93_implementation_defined.md U12). -/

namespace Sys2Proof.Machine

/-! ### Acceptance that breaks the duty -/

/-- Acceptance on a free port looks at the overlap before it latches anything (70_reset_and_hazards.md R231). -/
theorem accept_overlap {p : Nat} {i : Instr} {c : Command} {s : State} (he : portExists p = true)
    (hb : (s.ctx p).busy = false)
    (ho : (i.isLifecycle = true ∧ s.anyBusy = true) ∨ s.lifecycleInFlight = true) :
    accept p i c s = .refused .lifecycleOverlap := by
  have hoverlap : ((i.isLifecycle && s.anyBusy) || s.lifecycleInFlight) = true := by
    simpa only [Bool.or_eq_true, Bool.and_eq_true] using ho
  rw [accept, if_pos he, hb, if_neg Bool.false_ne_true, if_pos hoverlap]

/-- Settles O44: the free port comes to the acceptance, and its refusal is that of the whole operation. -/
theorem lifecycleOverlapRefused : Obligations.LifecycleOverlapRefused := by
  unfold Obligations.LifecycleOverlapRefused
  intro i s he hb ho
  rw [exec_eq_thenRun, hb, accept_overlap he hb ho]
  rfl

/-! ### The block's reset -/

/-- A step whose next input is the block's reset takes it. -/
theorem step_reset {s : State} {rest : List Input} (h : s.pending = .reset :: rest) :
    step s = resetInput { s with pending := rest } := by
  simp [step, h, consume]

/-- A reset in mid-operation with a resource held has no meaning (93_implementation_defined.md U12). -/
theorem resetInput_refused {s : State} (hb : s.anyBusy = true) (hr : s.res.anyHeld = true) :
    resetInput s = .refused .resetInMidOperation := by
  rw [resetInput, hb, hr]
  rfl

/-- Every other reset takes place (70_reset_and_hazards.md R220, R222). -/
theorem resetInput_resets {s : State} (h : s.anyBusy = false ∨ s.res.anyHeld = false) :
    resetInput s = .next s.resetBlock := by
  have hn : (s.anyBusy && s.res.anyHeld) = false := Bool.and_eq_false_iff.2 h
  rw [resetInput, hn]
  rfl

@[simp] theorem resetBlock_mapped (s : State) : s.resetBlock.mapped = 0 := rfl

/-- After the block's reset every port is idle. -/
@[simp] theorem resetBlock_ctx (s : State) (p : Nat) : s.resetBlock.ctx p = Ctx.idle := rfl

/-- After the block's reset every register holds the free value of the next draw (10_state.md R43). -/
theorem resetBlock_read32 {s : State} (hw : s.window.wf = true) {a : Nat} (ha : a ∈ registerOffsets) :
    s.resetBlock.window.read32 a = Config.freeRegister s.draws a := read32_scramble hw s.draws ha

/-- Settles O47: the step is the reset input, which is refused or leaves the reset block with its free values. -/
theorem resetDuringRun : Obligations.ResetDuringRun := by
  unfold Obligations.ResetDuringRun
  intro s rest hp hw
  rw [step_reset hp]
  refine ⟨fun hb hr => resetInput_refused hb hr, fun h => ⟨_, resetInput_resets h, ?_⟩⟩
  exact ⟨rfl, rfl, resetBlock_mapped _, resetBlock_ctx _, resetBlock_trace _, resetBlock_pending _,
    fun _ ha => resetBlock_read32 hw ha⟩

end Sys2Proof.Machine
